-- ==== Sys2Proof/Word.lean ====
section
/-! DEFINITION. The word and byte of the SFU: a register, table entry or command word has 32 bits, a symbol, a
rank or a buffer byte has 8 (00_scope.md R8: `SYM_W` = 8, `FREQ_W` = 32; 30_encoding.md R80). -/

namespace Sys2Proof

/-- One 32-bit word: what the port moves in one transaction (20_memory.md R60), a command word (30_encoding.md R80). -/
abbrev Word := BitVec 32

/-- One byte: a symbol, a rank (00_scope.md R12), a buffer byte (10_state.md R47, R48). -/
abbrev Byte := BitVec 8

end Sys2Proof
end

