-- ==== Sys2Proof/Syntax.lean ====
section
/-! DEFINITION. The nine commands of 30_encoding.md R87, one constructor per row of spec/opcode_table.json. -/

namespace Sys2Proof

/-- A command. The two operands of `split` are ranks, unsigned and not scaled (30_encoding.md R83); no other command
has an operand in its word. -/
inductive Instr where
  | nop
  | rank
  | split (first last : Nat)
  | part
  | assign
  | tbuild
  | tfree
  | decode
  | blkdec
  deriving DecidableEq, Repr

end Sys2Proof
end

