-- ==== Sys2Proof/WellFormed.lean ====
section
/-! DEFINITION. Which terms of Instr a command word can carry (30_encoding.md R82, R83: `first` and `last` are ranks
0..255). Whether `first < last` is no matter of form: such a word is a legal command that faults (40_cae.md R105). -/

namespace Sys2Proof

/-- The operands fit their fields. -/
def Instr.wf : Instr → Bool
  | .nop => true
  | .rank => true
  | .split first last => decide (first < 256) && decide (last < 256)
  | .part => true
  | .assign => true
  | .tbuild => true
  | .tfree => true
  | .decode => true
  | .blkdec => true

end Sys2Proof
end

