-- ==== Sys2Proof/Decode.lean ====
section
/-! DEFINITION. The decoder and the encoder of command words (30_encoding.md R80 to R88). -/

namespace Sys2Proof

/-- Why a word is no command (30_encoding.md R85, steps 1 and 2). -/
inductive WordError where
  /-- bits [7:0] are not one of the nine opcodes -/
  | illegalOpcode
  /-- a legal opcode with a reserved bit set -/
  | reservedBits
  deriving DecidableEq, Repr

/-- Bits [7:0] of a command word (R80). -/
def opcodeOf (w : Word) : Byte := w.extractLsb' 0 8

/-- Bits [15:8] of a format I word: `first` (R82). -/
def firstOf (w : Word) : Byte := w.extractLsb' 8 8

/-- Bits [23:16] of a format I word: `last` (R82). -/
def lastOf (w : Word) : Byte := w.extractLsb' 16 8

/-- The eight commands of format Z by opcode (R81, R87). -/
def formatZ (op : Byte) : Option Instr :=
  if op = 0x00 then some .nop
  else if op = 0x10 then some .rank
  else if op = 0x12 then some .part
  else if op = 0x13 then some .assign
  else if op = 0x20 then some .tbuild
  else if op = 0x21 then some .tfree
  else if op = 0x30 then some .decode
  else if op = 0x31 then some .blkdec
  else none

/-- R85, steps 1 and 2: the opcode first, then the reserved field of the opcode's format. -/
def decode (w : Word) : Except WordError Instr :=
  if opcodeOf w = 0x11 then
    if w.extractLsb' 24 8 = 0 then .ok (.split (firstOf w).toNat (lastOf w).toNat)
    else .error .reservedBits
  else
    match formatZ (opcodeOf w) with
    | none => .error .illegalOpcode
    | some i => if w.extractLsb' 8 24 = 0 then .ok i else .error .reservedBits

/-- The word of a command (R81, R82, R90). -/
def encode : Instr → Word
  | .nop => 0x00
  | .rank => 0x10
  | .split first last => 0x11 ||| (BitVec.ofNat 32 first <<< 8) ||| (BitVec.ofNat 32 last <<< 16)
  | .part => 0x12
  | .assign => 0x13
  | .tbuild => 0x20
  | .tfree => 0x21
  | .decode => 0x30
  | .blkdec => 0x31

/-- The `mask` column of R87. -/
def maskOf : Instr → Word
  | .nop => 0xFFFFFFFF
  | .rank => 0xFFFFFFFF
  | .split _ _ => 0xFF0000FF
  | .part => 0xFFFFFFFF
  | .assign => 0xFFFFFFFF
  | .tbuild => 0xFFFFFFFF
  | .tfree => 0xFFFFFFFF
  | .decode => 0xFFFFFFFF
  | .blkdec => 0xFFFFFFFF

/-- The `match` column of R87. -/
def patternOf : Instr → Word
  | .nop => 0x00000000
  | .rank => 0x00000010
  | .split _ _ => 0x00000011
  | .part => 0x00000012
  | .assign => 0x00000013
  | .tbuild => 0x00000020
  | .tfree => 0x00000021
  | .decode => 0x00000030
  | .blkdec => 0x00000031

/-- A word's low `nbits` bits `w`, every bit above them 0: what `decodeTableWord` decodes and `withFetchWord` places. -/
def tableWord (nbits w : Nat) : Word := BitVec.ofNat 32 (w % 2 ^ nbits)

/-- The command the decoder reads from a word whose low `nbits` bits are `w`, every higher bit 0. -/
def decodeTableWord (nbits w : Nat) : Option Instr :=
  (decode (tableWord nbits w)).toOption

end Sys2Proof
end

