-- ==== Sys2Proof/Config.lean ====
section
/-! DEFINITION. What one implementation of the SFU fixes (00_scope.md R8: the open parameters `NODE_MAX`, `PBUF_SIZE`,
`OBUF_SIZE`), and the free values that stand for the spec's unspecified values (10_state.md R53, decision D26). -/

namespace Sys2Proof

/-- The open parameters of 00_scope.md R8, held so that every value of this type is an admissible choice:
`1 <= NODE_MAX <= 65536`, and `PBUF_SIZE`, `OBUF_SIZE` multiples of 4 from 4 to 2^28. (`BUS_PROTOCOL` lies below
the transaction level and has no part here: assumption log 13.) -/
structure Config where
  /-- `NODE_MAX - 1` -/
  nodeMaxPred   : Fin 65536
  /-- `PBUF_SIZE / 4 - 1` -/
  pbufWordsPred : Fin 67108864
  /-- `OBUF_SIZE / 4 - 1` -/
  obufWordsPred : Fin 67108864
  deriving DecidableEq, Repr

/-- `NODE_MAX`, the capacity of the trie node arena. -/
def Config.nodeMax (c : Config) : Nat := c.nodeMaxPred.val + 1

/-- `PBUF_SIZE`, in bytes. -/
def Config.pbufSize (c : Config) : Nat := 4 * (c.pbufWordsPred.val + 1)

/-- `OBUF_SIZE`, in bytes. -/
def Config.obufSize (c : Config) : Nat := 4 * (c.obufWordsPred.val + 1)

/-- The value an unspecified BYTE takes at the n-th draw: nothing constrains it (10_state.md R53: "any value of the
location's width, and two reads of the same location may differ"; assumption log 4). -/
opaque Config.freeByte : Nat → Byte

/-- The value an unspecified WORD takes at the n-th draw: nothing constrains it (10_state.md R53; log 4). -/
opaque Config.freeWord : Nat → Word

end Sys2Proof
end

