-- ==== Sys2Proof/Machine/Table.lean ====
section
/-! DEFINITION. The 256-entry tables indexed by a symbol or a rank (10_state.md section 3), and the parameter values
State.reset carries. These stand here, under Machine/, so that their bodies can be mended. -/

namespace Sys2Proof.Machine

/-- A table with one entry per byte value. -/
abbrev Table (α : Type) := Vector α 256

/-- `TBL[i]` (00_scope.md R13). -/
def Table.at {α : Type} (t : Table α) (i : Byte) : α := t[i.toNat]'i.isLt

/-- `TBL[i] <- v` (00_scope.md R13). -/
def Table.put {α : Type} (t : Table α) (i : Byte) (v : α) : Table α := t.set i.toNat v i.isLt

/-- All 256 byte values, ascending. -/
def allBytes : List Byte := (List.range 256).map (BitVec.ofNat 8)

/-- The table whose entry `i` is `f i`. -/
def Table.ofFn {α : Type} (f : Byte → α) : Table α := ⟨(allBytes.map f).toArray, by simp [allBytes]⟩

/-- The table with the same value everywhere. -/
def Table.const {α : Type} (v : α) : Table α := Vector.replicate 256 v

/-- The open parameters of the machine that State.reset describes: `NODE_MAX` = 511, `PBUF_SIZE` = `OBUF_SIZE` = 64,
the least values for which 95_test_vectors.md holds (00_scope.md R8). DESIGN CHOICE, assumption log 1: the spec leaves
them open, and no claim rests on them, since every claim is about all states, hence all parameter values. -/
def resetConfig : Config := { nodeMaxPred := 510, pbufWordsPred := 15, obufWordsPred := 15 }

end Sys2Proof.Machine
end

