-- ==== Sys2Proof/Machine/State.lean ====
section
/-! DEFINITION. The state of the SFU (10_state.md), its reset value (R55), and the reasons a step of the model can stop. -/

namespace Sys2Proof.Machine

/-- The bits of `STATUS` (10_state.md R27); bits [31:6] read 0 and are not state. -/
structure Status where
  /-- bit 0: a command has been accepted and has neither completed nor faulted -/
  busy      : Bool
  /-- bit 1: the last accepted command completed without fault -/
  done      : Bool
  /-- bit 2: the engine is in phase `FAULT`; sticky -/
  fault     : Bool
  /-- bit 3: the rank tables describe the current `FREQ` -/
  rankValid : Bool
  /-- bit 4: the arena holds a completely built trie -/
  trieValid : Bool
  /-- bit 5: a `CMD` write arrived while busy; sticky -/
  ovr       : Bool
  deriving DecidableEq, Repr

/-- The engine phase (10_state.md R49). -/
inductive Phase where
  | idle
  | busy
  | fault
  deriving DecidableEq, Repr

/-- A node of the Decode Trie: three optional parts (10_state.md R46, 41_trie.md R131). -/
structure Node where
  left  : Option Nat
  right : Option Nat
  sym   : Option Byte
  deriving DecidableEq, Repr

/-- A byte buffer: the bytes whose value is specified, as (index, byte) pairs with strictly rising indices. An index
that is not listed reads as an unspecified value (10_state.md R53), so no byte value is barred from the list. -/
abbrev Memory := List Host.Cell

/-- The canonical form: indices strictly rising. -/
abbrev Memory.wf (m : Memory) : Prop := m.Pairwise fun a b => a.1 < b.1

/-- The error kinds of 60_exceptions.md R201 (numbers in Flags.lean). -/
inductive ErrKind where
  | outOfMemory
  | fileInaccessible
  | fileStreamFailed
  | fileUnrecognizable
  | fileTooSmall
  | illegalCommand
  deriving DecidableEq, Repr

/-- The causes of 60_exceptions.md R202 (numbers and kinds in Flags.lean). -/
inductive Cause where
  | opcode
  | reserved
  | operand
  | seqRank
  | seqNoTrie
  | seqHeld
  | nodes
  | obuf
  | pbuf
  | prefixThrough
  | prefixEnd
  | exhaustedRoot
  | exhaustedMidpath
  | noChild
  deriving DecidableEq, Repr

/-- What `raise Fault(KIND, CAUSE, info)` is given; the kind follows from the cause (R202). -/
structure FaultReport where
  cause : Cause
  info  : Word
  deriving DecidableEq, Repr

/-- What happens next at the SFU, and so who moves (00_scope.md R6; assumption log 2). A port address is a word
number: the byte offset divided by 4, the offset bits [29:2] the port carries (20_memory.md R60). -/
inductive Turn where
  /-- the engine runs the command in flight, if there is one -/
  | engine
  /-- `HostRead(4 * addr)` -/
  | hostRead (addr : BitVec 28)
  /-- `HostWrite(4 * addr, v)` -/
  | hostWrite (addr : BitVec 28) (v : Word)
  /-- the reset input is asserted (70_reset_and_hazards.md R230) -/
  | resetPin
  deriving DecidableEq, Repr

/-- Everything the spec gives the machine (10_state.md), the parameters of the machine at hand, and the model's own
fields for the outside world. `ID` and `CTRL` are hard-wired reads (R24, R25) and hold nothing. -/
structure State where
  /-- the open parameters (00_scope.md R8); no step changes them (log 1) -/
  config      : Config
  /-- `CMD`, the last accepted word (R26) -/
  cmd         : Word
  /-- `STATUS` (R27) -/
  status      : Status
  /-- `ERR` (R28) -/
  err         : Word
  /-- `ERRINFO` (R29) -/
  errInfo     : Word
  /-- `NNZ` [8:0] (R30) -/
  nnz         : BitVec 9
  /-- `LAST_NZ` [7:0] (R31) -/
  lastNz      : Byte
  /-- `SPLIT_D` [7:0] (R32) -/
  splitD      : Byte
  /-- `PACKED_LEN` (R33) -/
  packedLen   : Word
  /-- `EXPECTED_LEN` (R34) -/
  expectedLen : Word
  /-- `OUT_COUNT` (R35) -/
  outCount    : Word
  /-- `CURSOR` [28:0] (R36) -/
  cursor      : BitVec 29
  /-- `BITMASK` [7:0] (R37) -/
  bitmask     : Byte
  /-- `NODE_COUNT` [16:0] (R38) -/
  nodeCount   : BitVec 17
  /-- `FREQ` (R40) -/
  freq        : Table Word
  /-- `SYMOF` (R41) -/
  symOf       : Table Byte
  /-- `RANKOF` (R42) -/
  rankOf      : Table Byte
  /-- `CLEN` (R43) -/
  clen        : Table Byte
  /-- `CBITS`: code bit `i` of a symbol is bit `i` of its entry, word `w` is bits [32w+31 : 32w] (R44) -/
  cbits       : Table (BitVec 256)
  /-- `NODE[0 .. NODE_COUNT-1]` (R46) -/
  nodes       : List Node
  /-- `PBUF` (R47): the bytes the host has written since the last hardware reset -/
  pbuf        : Memory
  /-- `OBUF` (R48): the bytes whose value is specified -/
  obuf        : Memory
  /-- the model's own: what happens next, in order (log 2) -/
  turns       : List Turn
  /-- the model's own: what the last `HostRead` returned (log 2) -/
  readData    : Option Word
  /-- the model's own: how many unspecified values have been drawn (log 4) -/
  draws       : Nat
  deriving DecidableEq, Repr

/-- Reasons for the model to stop with a fault: none. The spec gives every command, every illegal word and every host
transaction an effect, and a fault of the SFU (60_exceptions.md R210) is a next state here (assumption log 17). -/
inductive Fault where
  deriving DecidableEq, Repr

/-- Reasons to give a command no meaning. -/
inductive Refusal where
  /-- raised by `exec` alone, in the arm of a command that has no meaning yet; safe -/
  | notModelled (mnemonic : String)
  deriving DecidableEq, Repr

/-- What a meaning and a step answer. -/
abbrev Result := Host.Outcome State Fault Refusal

/-- `STATUS` = 0. -/
def Status.reset : Status :=
  { busy := false, done := false, fault := false, rankValid := false, trieValid := false, ovr := false }

/-- The state after hardware reset (10_state.md R55): phase `IDLE`, every register and table entry 0 but `BITMASK` =
0x80, no trie node allocated, nothing specified in `PBUF` and `OBUF`. The last three fields, the model's own, are
the DESIGN CHOICES of logs 2 and 4. -/
def State.reset : State :=
  { config := resetConfig
    cmd := 0, status := Status.reset, err := 0, errInfo := 0
    nnz := 0, lastNz := 0, splitD := 0
    packedLen := 0, expectedLen := 0, outCount := 0, cursor := 0, bitmask := 0x80
    nodeCount := 0
    freq := Table.const 0, symOf := Table.const 0, rankOf := Table.const 0
    clen := Table.const 0, cbits := Table.const 0
    nodes := [], pbuf := [], obuf := []
    turns := [], readData := none, draws := 0 }

end Sys2Proof.Machine
end

