-- ==== Sys2Proof/Machine/Flags.lean ====
section
/-! DEFINITION. The status and error words: `STATUS` (10_state.md R27), the engine phase (R49), `ERR` (R28,
60_exceptions.md R201, R202), and how the flags change at acceptance, completion and fault entry. -/

namespace Sys2Proof.Machine

/-- Bit `i` of a word, set or clear. -/
def flagBit (b : Bool) (i : Nat) : Word := if b then (1 : Word) <<< i else 0

/-- `STATUS` as the host reads it (R27). -/
def Status.toWord (st : Status) : Word :=
  flagBit st.busy 0 ||| flagBit st.done 1 ||| flagBit st.fault 2 |||
    flagBit st.rankValid 3 ||| flagBit st.trieValid 4 ||| flagBit st.ovr 5

/-- The engine phase, "readable from STATUS" (R49). -/
def Status.phase (st : Status) : Phase :=
  if st.busy then .busy else if st.fault then .fault else .idle

/-- 30_encoding.md R84: `BUSY <- 1 ; DONE <- 0`. -/
def Status.accepted (st : Status) : Status := { st with busy := true, done := false }

/-- 30_encoding.md R86: `BUSY <- 0 ; DONE <- 1`. -/
def Status.completed (st : Status) : Status := { st with busy := false, done := true }

/-- 60_exceptions.md R210: `TRIE_VALID <- 0 ; BUSY <- 0 ; DONE <- 0 ; FAULT <- 1`. -/
def Status.faulted (st : Status) : Status :=
  { st with trieValid := false, busy := false, done := false, fault := true }

/-- 30_encoding.md R84, phase `BUSY`: `OVR <- 1`. -/
def Status.overrun (st : Status) : Status := { st with ovr := true }

/-- `ERR.KIND`, the numbers of 60_exceptions.md R201. -/
def ErrKind.code : ErrKind → BitVec 3
  | .outOfMemory => 1
  | .fileInaccessible => 2
  | .fileStreamFailed => 3
  | .fileUnrecognizable => 4
  | .fileTooSmall => 5
  | .illegalCommand => 6

/-- `ERR.CAUSE`, the numbers of 60_exceptions.md R202. -/
def Cause.code : Cause → Byte
  | .opcode => 0x01
  | .reserved => 0x02
  | .operand => 0x03
  | .seqRank => 0x04
  | .seqNoTrie => 0x05
  | .seqHeld => 0x06
  | .nodes => 0x10
  | .obuf => 0x11
  | .pbuf => 0x12
  | .prefixThrough => 0x20
  | .prefixEnd => 0x21
  | .exhaustedRoot => 0x30
  | .exhaustedMidpath => 0x31
  | .noChild => 0x32

/-- The `KIND` column of 60_exceptions.md R202. -/
def Cause.kind : Cause → ErrKind
  | .opcode => .illegalCommand
  | .reserved => .illegalCommand
  | .operand => .illegalCommand
  | .seqRank => .illegalCommand
  | .seqNoTrie => .illegalCommand
  | .seqHeld => .illegalCommand
  | .nodes => .outOfMemory
  | .obuf => .outOfMemory
  | .pbuf => .outOfMemory
  | .prefixThrough => .fileUnrecognizable
  | .prefixEnd => .fileUnrecognizable
  | .exhaustedRoot => .fileUnrecognizable
  | .exhaustedMidpath => .fileUnrecognizable
  | .noChild => .fileUnrecognizable

/-- `CAUSE << 8 | KIND` (60_exceptions.md R202, R210). -/
def Cause.errWord (c : Cause) : Word := (c.code.setWidth 32 <<< 8) ||| c.kind.code.setWidth 32

/-- The cause a word that is no command faults with (30_encoding.md R85, steps 1 and 2). -/
def wordErrorCause : WordError → Cause
  | .illegalOpcode => .opcode
  | .reservedBits => .reserved

end Sys2Proof.Machine
end

