-- ==== Sys2Proof/Machine/Ops.lean ====
section
/-! DEFINITION. The named operations over the byte buffers and the registers: reading and writing one byte, unspecified
values, acceptance (30_encoding.md R84), completion (R86), fault entry (60_exceptions.md R210; nothing returns from a
fault, R215), the release of the trie (41_trie.md R140), soft and hardware reset (70_reset_and_hazards.md R230, R231). -/

namespace Sys2Proof.Machine

/-! ### Byte buffers -/

/-- The byte at index `a`, or none where its value is not specified. -/
def Memory.read : Memory → Nat → Option Byte
  | [], _ => none
  | (k, v) :: m, a => if a = k then some v else Memory.read m a

/-- Storing `b` at index `a`; the list stays sorted. -/
def Memory.write : Memory → Nat → Byte → Memory
  | [], a, b => [(a, b)]
  | (k, v) :: m, a, b =>
    if a < k then (a, b) :: (k, v) :: m
    else if a = k then (a, b) :: m
    else (k, v) :: Memory.write m a b

/-- A read of byte `a` after `d` draws: the byte, or a fresh unspecified value (10_state.md R53), and the draws made
since. -/
def byteOrFree (m : Memory) (a d : Nat) : Byte × Nat :=
  match Memory.read m a with
  | some b => (b, d)
  | none => (Config.freeByte d, d + 1)

/-- Four bytes as one word, byte 0 lowest: 20_memory.md R62. -/
def wordOfBytes (b0 b1 b2 b3 : Byte) : Word :=
  b0.setWidth 32 ||| (b1.setWidth 32 <<< 8) ||| (b2.setWidth 32 <<< 16) ||| (b3.setWidth 32 <<< 24)

/-- Byte `k` of a word: bits [8k+7 : 8k] (20_memory.md R62). -/
def byteOfWord (v : Word) (k : Nat) : Byte := v.extractLsb' (8 * k) 8

/-- The word at buffer bytes `4j .. 4j+3` (20_memory.md R62), an unspecified value for each byte that has none. -/
def wordOrFree (m : Memory) (j d : Nat) : Word × Nat :=
  let r0 := byteOrFree m (4 * j) d
  let r1 := byteOrFree m (4 * j + 1) r0.2
  let r2 := byteOrFree m (4 * j + 2) r1.2
  let r3 := byteOrFree m (4 * j + 3) r2.2
  (wordOfBytes r0.1 r1.1 r2.1 r3.1, r3.2)

/-- A `HostWrite` to a buffer word writes all four of its bytes (20_memory.md R62). -/
def Memory.writeWord (m : Memory) (j : Nat) (v : Word) : Memory :=
  let m0 := Memory.write m (4 * j) (byteOfWord v 0)
  let m1 := Memory.write m0 (4 * j + 1) (byteOfWord v 1)
  let m2 := Memory.write m1 (4 * j + 2) (byteOfWord v 2)
  Memory.write m2 (4 * j + 3) (byteOfWord v 3)

/-! ### Code bits -/

/-- The number whose bit `i` is bit `i` of a code string (10_state.md R44: the first bit is bit 0). -/
def packBits : List Bool → Nat
  | [] => 0
  | b :: bs => b.toNat + 2 * packBits bs

/-- `CBITS` word `w` of an entry: its bits [32w+31 : 32w] (10_state.md R44). -/
def cbitsWord (v : BitVec 256) (w : Nat) : Word := v.extractLsb' (32 * w) 32

/-- An entry with word `w` replaced. -/
def setCbitsWord (v : BitVec 256) (w : Nat) (x : Word) : BitVec 256 :=
  (v &&& ~~~((BitVec.allOnes 32).setWidth 256 <<< (32 * w))) ||| (x.setWidth 256 <<< (32 * w))

/-! ### The trie arena -/

/-- `{absent, absent, absent}` (41_trie.md R131). -/
def Node.empty : Node := { left := none, right := none, sym := none }

/-- `NODE[n]`; an index the arena does not hold, which no run meets (Safety.lean, assumption log 8), has no part. -/
def nodeAt (ns : List Node) (n : Nat) : Node := ns[n]?.getD Node.empty

/-- `child(n, b)`: 0 = left, 1 = right (41_trie.md R131). -/
def Node.child (x : Node) (b : Bool) : Option Nat := if b then x.right else x.left

/-- `child(n, b) <- c`. -/
def Node.setChild (x : Node) (b : Bool) (c : Nat) : Node :=
  if b then { x with right := some c } else { x with left := some c }

/-- A leaf: no children (10_state.md R46). -/
def Node.isLeaf (x : Node) : Bool := x.left.isNone && x.right.isNone

/-! ### Registers -/

/-- Acceptance of a command word: `CMD <- w ; BUSY <- 1 ; DONE <- 0` (30_encoding.md R84). -/
def State.accept (s : State) (w : Word) : State := { s with cmd := w, status := s.status.accepted }

/-- `complete` (30_encoding.md R86). -/
def State.complete (s : State) : State := { s with status := s.status.completed }

/-- Fault entry, `raise Fault(KIND, CAUSE, info)` (60_exceptions.md R210): `ERR`, `ERRINFO` written, the trie released,
the flags set; and `OBUF` has no specified byte any more (10_state.md R48, R53; assumption log 5). -/
def State.raise (s : State) (f : FaultReport) : State :=
  { s with
    err := f.cause.errWord, errInfo := f.info
    nodeCount := 0, nodes := []
    obuf := []
    status := s.status.faulted }

/-- Storing a built arena: `NODE[0..]` and `NODE_COUNT`. -/
def State.storeNodes (s : State) (ns : List Node) : State :=
  { s with nodes := ns, nodeCount := BitVec.ofNat 17 ns.length }

/-- `TRIE_VALID <- b`. -/
def State.setTrieValid (s : State) (b : Bool) : State := { s with status := { s.status with trieValid := b } }

/-- `NODE_COUNT <- 0` (41_trie.md R140, 42_decode.md R160): no node is allocated any more, so no node has a specified
value (10_state.md R53). -/
def State.releaseNodes (s : State) : State := { s with nodes := [], nodeCount := 0 }

/-- The state `R55` of a machine with the same parameters; the outside world (`turns`, `readData`) and the draw
counter, which are no part of the SFU, stay. -/
def State.hardReset (s : State) : State :=
  { State.reset with config := s.config, turns := s.turns, readData := s.readData, draws := s.draws }

/-- Soft reset (70_reset_and_hazards.md R231): as the hardware reset, but `PBUF` bytes keep the values the host wrote. -/
def State.softReset (s : State) : State := { s.hardReset with pbuf := s.pbuf }

end Sys2Proof.Machine
end

