-- ==== Sys2Proof/Machine/Operands.lean ====
section
/-! DEFINITION. What the commands read: the rank-order frequency (40_cae.md R103), the operand check of `split` (R105),
the code of a symbol (10_state.md R45), the two length registers (42_decode.md R151) and one packed bit (20_memory.md
R63, 42_decode.md R152). -/

namespace Sys2Proof.Machine

/-- `F(r) = FREQ[SYMOF[r]]` (40_cae.md R103). -/
def rankFreq (freq : Table Word) (symOf : Table Byte) (r : Nat) : Nat :=
  (freq.at (symOf.at (BitVec.ofNat 8 r))).toNat

/-- 40_cae.md R105: `first < last and last < NNZ`. -/
def State.splittable (s : State) (first last : Nat) : Bool := decide (first < last) && decide (last < s.nnz.toNat)

/-- `code(s)`: the `CLEN[s]` bits of `CBITS[s]`, first bit first (10_state.md R45). -/
def codeString (len : Byte) (bits : BitVec 256) : List Bool := (List.range len.toNat).map bits.getLsbD

/-- `code(a)` in a state. -/
def State.code (s : State) (a : Byte) : List Bool := codeString (s.clen.at a) (s.cbits.at a)

/-- `LatchLengths()` (42_decode.md R151): `PACKED_LEN` is checked first. -/
def State.latchLengths (s : State) : Except FaultReport (Word × Word) :=
  if s.config.pbufSize < s.packedLen.toNat then .error { cause := .pbuf, info := s.packedLen }
  else if s.config.obufSize < s.expectedLen.toNat then .error { cause := .obuf, info := s.expectedLen }
  else .ok (s.packedLen, s.expectedLen)

/-- One packed bit after `d` draws: `(PBUF[CURSOR] & BITMASK) != 0` (42_decode.md R152). Each bit is a read of its own,
so an unwritten byte may answer differently at each (10_state.md R53; assumption log 6). -/
def packedBit (pbuf : Memory) (cursor : Nat) (mask : Byte) (d : Nat) : Bool × Nat :=
  let r := byteOrFree pbuf cursor d
  (r.1 &&& mask != 0, r.2)

end Sys2Proof.Machine
end

