-- ==== Sys2Proof/Machine/CodeAssign.lean ====
section
/-! DEFINITION. The code assignment commands `rank`, `split`, `part`, `assign` (40_cae.md). -/

namespace Sys2Proof.Machine

/-! ### Ranking and truncation -/

/-- The strict total order `<<` of R101 on (count, symbol) pairs: the higher count first, ties by ascending symbol. -/
def precedes (a b : Word × Byte) : Bool :=
  decide (b.1.toNat < a.1.toNat) || (decide (a.1 = b.1) && decide (a.2.toNat < b.2.toNat))

/-- Inserting a pair into a list in ascending `<<` order. -/
def insertRanked (x : Word × Byte) : List (Word × Byte) → List (Word × Byte)
  | [] => [x]
  | y :: ys => if precedes x y then x :: y :: ys else y :: insertRanked x ys

/-- The pairs in ascending `<<` order (the method is free, R101). -/
def sortRanked : List (Word × Byte) → List (Word × Byte)
  | [] => []
  | x :: xs => insertRanked x (sortRanked xs)

/-- The 256 symbols with their counts, ascending symbol order. -/
def countedSymbols (freq : Table Word) : List (Word × Byte) := freq.toList.zip allBytes

/-- The list of all 256 symbols in ascending `<<` order (R101): rank `r` is its entry `r`. -/
def rankList (freq : Table Word) : List Byte := (sortRanked (countedSymbols freq)).map Prod.snd

/-- `SYMOF` (R101). -/
def symOfTable (freq : Table Word) : Table Byte :=
  let l := rankList freq
  Table.ofFn fun r => l.getD r.toNat 0

/-- `RANKOF` (R101): `RANKOF[SYMOF[r]] = r`. -/
def rankOfTable (freq : Table Word) : Table Byte :=
  let l := rankList freq
  Table.ofFn fun a => BitVec.ofNat 8 (l.idxOf a)

/-- The number of symbols with a non-zero count (R102). -/
def countNonzero (freq : Table Word) : Nat := freq.toList.countP fun f => decide (0 < f.toNat)

/-- What `rank` does before its `complete` (R100). -/
def State.rankEffect (s : State) : State :=
  let n := countNonzero s.freq
  { s with
    symOf := symOfTable s.freq
    rankOf := rankOfTable s.freq
    nnz := BitVec.ofNat 9 n
    lastNz := BitVec.ofNat 8 (if 1 ≤ n then n - 1 else 0)
    status := { s.status with rankValid := true } }

/-- `rank` (R100). -/
def execRank (s : State) : Result := .next s.rankEffect.complete

/-! ### Best division -/

/-- `|2*sum - total|`, exact (R104). -/
def imbalance (sum total : Nat) : Nat := if total ≤ 2 * sum then 2 * sum - total else total - 2 * sum

/-- Whether an imbalance improves on the minimum so far: strictly smaller, or no minimum yet (R106, R108). -/
def improves (imb : Nat) : Option Nat → Bool
  | none => true
  | some best => decide (imb < best)

/-- `F(first) + ... + F(last)`, over `count` ranks from `r`. -/
def intervalSum (F : Nat → Nat) (r : Nat) : Nat → Nat
  | 0 => 0
  | count + 1 => F r + intervalSum F (r + 1) count

/-- The scan of R106 over the `count` ranks from `r`: it answers `d`, the last rank that improved. -/
def scanSplit (F : Nat → Nat) (total : Nat) : (count r sum : Nat) → (best : Option Nat) → (d : Nat) → Nat
  | 0, _, _, _, d => d
  | count + 1, r, sum, best, d =>
    let s2 := sum + F r
    let imb := imbalance s2 total
    if improves imb best then scanSplit F total count (r + 1) s2 (some imb) r else d

/-- `Split(first, last)` (R106), over the rank-order frequency `F`. The first rank is always taken (R108), so the `d`
the scan starts from is never the answer on an interval that holds a rank. -/
def bestDivision (F : Nat → Nat) (first last : Nat) : Nat :=
  let count := last - first + 1
  scanSplit F (intervalSum F first count) count first 0 none first

/-- `split first, last` (R105): the sequence check, the operand check, then `SPLIT_D`. -/
def execSplit (first last : Nat) (s : State) : Result :=
  if s.status.rankValid = false then .next (s.raise { cause := .seqRank, info := s.cmd })
  else if s.splittable first last = false then .next (s.raise { cause := .operand, info := s.cmd })
  else
    .next (State.complete
      { s with splitD := BitVec.ofNat 8 (bestDivision (rankFreq s.freq s.symOf) first last) })

/-! ### Partition and emission -/

/-- `Assign(first, last, p)` (R111) as the list of the leaves it reaches, (rank, code), left half first. The first
argument bounds the recursion; `last - first` is enough, because every half is shorter than its interval (R107 (a),
R112; assumption log 12). -/
def assignLeaves (F : Nat → Nat) : (bound first last : Nat) → (p : List Bool) → List (Nat × List Bool)
  | 0, first, _, p => [(first, p)]
  | bound + 1, first, last, p =>
    if last ≤ first then [(first, p)]
    else
      let d := bestDivision F first last
      assignLeaves F bound first d (p ++ [false]) ++ assignLeaves F bound (d + 1) last (p ++ [true])

/-- A code table: `CLEN` and `CBITS`. -/
structure CodeTable where
  clen  : Table Byte
  cbits : Table (BitVec 256)
  deriving DecidableEq, Repr

/-- All 256 codes empty: `CLEN[s] <- 0`, all eight words of `CBITS[s] <- 0` (R109). -/
def CodeTable.blank : CodeTable := { clen := Table.const 0, cbits := Table.const 0 }

/-- `code(a) <- p`: `CLEN <- len(p)`, `CBITS` bit `i` is bit `i` of `p`, higher bits 0 (R111). -/
def CodeTable.setCode (t : CodeTable) (a : Byte) (p : List Bool) : CodeTable :=
  { clen := t.clen.put a (BitVec.ofNat 8 p.length)
    cbits := t.cbits.put a (BitVec.ofNat 256 (packBits p)) }

/-- The leaves of the recursion, none for an empty alphabet (R109, R114). -/
def codeLeaves (F : Nat → Nat) (nnz : Nat) : List (Nat × List Bool) :=
  if 1 ≤ nnz then assignLeaves F (nnz - 1) 0 (nnz - 1) [] else []

/-- The code table of a ranking: every leaf's code goes to the symbol that holds its rank (R111). -/
def partition (F : Nat → Nat) (symOf : Table Byte) (nnz : Nat) : CodeTable :=
  (codeLeaves F nnz).foldl (fun t leaf => t.setCode (symOf.at (BitVec.ofNat 8 leaf.1)) leaf.2) CodeTable.blank

/-- What `part` does after its check and before its `complete` (R109). -/
def State.partEffect (s : State) : State :=
  let t := partition (rankFreq s.freq s.symOf) s.symOf s.nnz.toNat
  { s with clen := t.clen, cbits := t.cbits }

/-- `part` (R109). -/
def execPart (s : State) : Result :=
  if s.status.rankValid = false then .next (s.raise { cause := .seqRank, info := s.cmd })
  else .next s.partEffect.complete

/-- `assign` (R115): what `rank` does, then what `part` does; its sequence check passes, `RANK_VALID` was just set. -/
def execAssign (s : State) : Result := .next s.rankEffect.partEffect.complete

end Sys2Proof.Machine
end

