-- ==== Sys2Proof/Machine/Trie.lean ====
section
/-! DEFINITION. The trie commands `tbuild`, `tfree` (41_trie.md). -/

namespace Sys2Proof.Machine

/-- `x << 8 | a`, the information word of the faults of `BuildTrie` (60_exceptions.md R203). -/
def insertInfo (x : Nat) (a : Byte) : Word := (BitVec.ofNat 32 x <<< 8) ||| a.setWidth 32

/-- The walk of R131 for symbol `a`: the bits still to follow, the index `i` of the first of them, the current node
`n`, the arena. The end of the code attaches the leaf. -/
def insertCode (nodeMax : Nat) (a : Byte) : List Bool → (i n : Nat) → List Node → Except FaultReport (List Node)
  | [], i, n, ns =>
    let x := nodeAt ns n
    if x.left.isSome || x.right.isSome || x.sym.isSome then
      .error { cause := .prefixEnd, info := insertInfo i a }
    else .ok (ns.set n { x with sym := some a })
  | b :: bs, i, n, ns =>
    let x := nodeAt ns n
    if x.sym.isSome then .error { cause := .prefixThrough, info := insertInfo i a }
    else
      match x.child b with
      | some c => insertCode nodeMax a bs (i + 1) c ns
      | none =>
        if ns.length = nodeMax then .error { cause := .nodes, info := insertInfo i a }
        else insertCode nodeMax a bs (i + 1) ns.length (ns.set n (x.setChild b ns.length) ++ [Node.empty])

/-- One symbol of `BuildTrie` (R131): an empty code is skipped. -/
def insertSymbol (nodeMax : Nat) (code : Byte → List Bool) (a : Byte) (ns : List Node) :
    Except FaultReport (List Node) :=
  if (code a).isEmpty then .ok ns else insertCode nodeMax a (code a) 0 0 ns

/-- The symbols of a list, in its order. -/
def insertSymbols (nodeMax : Nat) (code : Byte → List Bool) : List Byte → List Node → Except FaultReport (List Node)
  | [], ns => .ok ns
  | a :: rest, ns =>
    match insertSymbol nodeMax code a ns with
    | .error f => .error f
    | .ok ns' => insertSymbols nodeMax code rest ns'

/-- `BuildTrie()` (R131): the root, then all 256 symbols in ascending order. -/
def buildTrie (nodeMax : Nat) (code : Byte → List Bool) : Except FaultReport (List Node) :=
  insertSymbols nodeMax code allBytes [Node.empty]

/-- `tbuild` (R130). A fault inside `BuildTrie` leaves the arena released, whatever had been built (R130, 60_exceptions.md
R210, R211). -/
def execTbuild (s : State) : Result :=
  if s.status.trieValid = true then .next (s.raise { cause := .seqHeld, info := s.cmd })
  else
    match buildTrie s.config.nodeMax s.code with
    | .error f => .next (s.raise f)
    | .ok ns => .next ((s.storeNodes ns).setTrieValid true).complete

/-- `tfree` (R140). -/
def execTfree (s : State) : Result := .next (s.releaseNodes.setTrieValid false).complete

end Sys2Proof.Machine
end

