-- ==== Sys2Proof/Machine/Decoder.lean ====
section
/-! DEFINITION. The decode commands `decode`, `blkdec` (42_decode.md). -/

namespace Sys2Proof.Machine

/-- What `DecodeBlock` works on (R152): the current node `n` (hidden, 10_state.md R50), the registers `OUT_COUNT`,
`CURSOR`, `BITMASK`, the output buffer, and the draws made for unwritten bytes. -/
structure Walk where
  node     : Nat
  outCount : Word
  cursor   : BitVec 29
  bitmask  : Byte
  obuf     : Memory
  draws    : Nat
  deriving DecidableEq, Repr

/-- The start of R152. No byte of `OBUF` has a specified value any more: those of an earlier block at or beyond this
block's length are unspecified (10_state.md R48, R53; assumption log 5). -/
def Walk.start (draws : Nat) : Walk :=
  { node := 0, outCount := 0, cursor := 0, bitmask := 0x80, obuf := [], draws := draws }

/-- What the acceptance of `decode` or `blkdec` sets (10_state.md R35 to R37). `DecodeBlock` sets the same again (R152), so
this shows only where `blkdec` faults before it (assumption log 20). -/
def State.startDecode (s : State) : State := { s with outCount := 0, cursor := 0, bitmask := 0x80 }

/-- The end of one iteration of R152: the next lower bit, and the next byte when the mask is exhausted. -/
def Walk.nextBit (k : Walk) : Walk :=
  if k.bitmask >>> 1 = 0 then { k with cursor := k.cursor + 1, bitmask := 0x80 }
  else { k with bitmask := k.bitmask >>> 1 }

/-- R152: the step to node `c`; a leaf emits its symbol and the walk goes back to the root. -/
def Walk.enter (nodes : List Node) (c : Nat) (k : Walk) : Walk :=
  if (nodeAt nodes c).isLeaf then
    { k with
      obuf := Memory.write k.obuf k.outCount.toNat ((nodeAt nodes c).sym.getD 0)
      outCount := k.outCount + 1
      node := 0 }
  else { k with node := c }

/-- R152: no packed bit left before the count is reached, at the root or inside a code. -/
def exhausted (n : Nat) : FaultReport :=
  if n = 0 then { cause := .exhaustedRoot, info := BitVec.ofNat 32 n }
  else { cause := .exhaustedMidpath, info := BitVec.ofNat 32 n }

/-- R152: the bit `b` read at node `n` leads to an absent child; the information word is `b << 16 | n`. -/
def missingChild (n : Nat) (b : Bool) : FaultReport :=
  { cause := .noChild, info := (BitVec.ofNat 32 b.toNat <<< 16) ||| BitVec.ofNat 32 n }

/-- The loop of `DecodeBlock(PL, EL)` (R152): the registers where it ends, and the fault that ended it if one did. The
first number bounds the iterations; `8 * PL + 1` is enough, since each consumes one bit and the exhaustion test stops
it (70_reset_and_hazards.md R243; assumption log 12). -/
def decodeLoop (nodes : List Node) (pbuf : Memory) (pl el : Word) : Nat → Walk → Walk × Option FaultReport
  | 0, k => (k, none)
  | bound + 1, k =>
    if k.outCount.toNat < el.toNat then
      if pl.toNat ≤ k.cursor.toNat then (k, some (exhausted k.node))
      else
        let r := packedBit pbuf k.cursor.toNat k.bitmask k.draws
        let k' := { k with draws := r.2 }
        match (nodeAt nodes k.node).child r.1 with
        | none => (k', some (missingChild k.node r.1))
        | some c => decodeLoop nodes pbuf pl el bound (k'.enter nodes c).nextBit
    else (k, none)

/-- `DecodeBlock(PL, EL)` with the trie in the arena (R152). -/
def State.decodeBlock (s : State) (pl el : Word) : Walk × Option FaultReport :=
  decodeLoop s.nodes s.pbuf pl el (8 * pl.toNat + 1) (Walk.start s.draws)

/-- The registers and the output buffer as a walk left them. -/
def State.withWalk (s : State) (k : Walk) : State :=
  { s with outCount := k.outCount, cursor := k.cursor, bitmask := k.bitmask, obuf := k.obuf, draws := k.draws }

/-- `decode` (R150). -/
def execDecode (s : State) : Result :=
  if s.status.trieValid = false then .next (s.raise { cause := .seqNoTrie, info := s.cmd })
  else
    match s.latchLengths with
    | .error f => .next (s.raise f)
    | .ok (pl, el) =>
      match s.decodeBlock pl el with
      | (k, some f) => .next ((s.withWalk k).raise f)
      | (k, none) => .next (s.withWalk k).complete

/-- `blkdec` (R160): the sequence check, the lengths, the build, the decode, the release. A fault of the two checks comes
before any effect (60_exceptions.md R211); a fault inside `BuildTrie` finds `OUT_COUNT`, `CURSOR` and `BITMASK` as the
acceptance of the command set them (10_state.md R35 to R37; DEDUCED, log 20). -/
def execBlkdec (s : State) : Result :=
  if s.status.trieValid = true then .next (s.raise { cause := .seqHeld, info := s.cmd })
  else
    match s.latchLengths with
    | .error f => .next (s.raise f)
    | .ok (pl, el) =>
      match buildTrie s.config.nodeMax s.code with
      | .error f => .next (s.startDecode.raise f)
      | .ok ns =>
        match (s.storeNodes ns).decodeBlock pl el with
        | (k, some f) => .next (((s.storeNodes ns).withWalk k).raise f)
        | (k, none) => .next (((s.storeNodes ns).withWalk k).releaseNodes).complete

end Sys2Proof.Machine
end

