-- ==== Sys2Proof/Machine/System.lean ====
section
/-! DEFINITION. The system command (43_system.md). -/

namespace Sys2Proof.Machine

/-- `nop` (R170): completes and nothing else. -/
def execNop (s : State) : Result := .next s.complete

end Sys2Proof.Machine
end

