-- ==== Sys2Proof/Machine/Dispatch.lean ====
section
/-! DEFINITION. Which meaning runs which command (30_encoding.md R85 step 3, R87). -/

namespace Sys2Proof.Machine

def exec (i : Instr) (s : State) : Host.Outcome State Fault Refusal :=
  match i with
  | .nop => Sys2Proof.Machine.execNop s
  | .rank => Sys2Proof.Machine.execRank s
  | .split first last => Sys2Proof.Machine.execSplit first last s
  | .part => Sys2Proof.Machine.execPart s
  | .assign => Sys2Proof.Machine.execAssign s
  | .tbuild => Sys2Proof.Machine.execTbuild s
  | .tfree => Sys2Proof.Machine.execTfree s
  | .decode => Sys2Proof.Machine.execDecode s
  | .blkdec => Sys2Proof.Machine.execBlkdec s

end Sys2Proof.Machine
end

