-- ==== Sys2Proof/Machine/Port.lean ====
section
/-! DEFINITION. The host port (20_memory.md): the address map (R61), `HostRead` and `HostWrite` in every engine phase
(R65 to R68, 30_encoding.md R84). -/

namespace Sys2Proof.Machine

/-- What lies at a port offset (20_memory.md R61). -/
inductive Loc where
  | id
  | ctrl
  | cmd
  | status
  | err
  | errInfo
  | nnz
  | lastNz
  | splitD
  | packedLen
  | expectedLen
  | outCount
  | cursor
  | bitmask
  | nodeCount
  | freq (a : Byte)
  | symOf (r : Byte)
  | rankOf (a : Byte)
  | clen (a : Byte)
  | cbits (a : Byte) (w : Nat)
  | node (n : Nat) (second : Bool)
  | pbuf (j : Nat)
  | obuf (j : Nat)
  | unmapped
  deriving DecidableEq, Repr

/-- The register page (10_state.md R22); its other offsets are reserved (R39). -/
def registerAt (off : Nat) : Loc :=
  if off = 0x000 then .id
  else if off = 0x004 then .ctrl
  else if off = 0x008 then .cmd
  else if off = 0x00C then .status
  else if off = 0x010 then .err
  else if off = 0x014 then .errInfo
  else if off = 0x018 then .nnz
  else if off = 0x01C then .lastNz
  else if off = 0x020 then .splitD
  else if off = 0x024 then .packedLen
  else if off = 0x028 then .expectedLen
  else if off = 0x02C then .outCount
  else if off = 0x030 then .cursor
  else if off = 0x034 then .bitmask
  else if off = 0x038 then .nodeCount
  else .unmapped

/-- Entry `off / 4` of a table, as a byte index. -/
def entryIndex (off : Nat) : Byte := BitVec.ofNat 8 (off / 4)

/-- The address map (20_memory.md R61), by byte offset. -/
def locate (c : Config) (off : Nat) : Loc :=
  if off < 0x400 then registerAt off
  else if off < 0x800 then .freq (entryIndex (off - 0x400))
  else if off < 0xC00 then .symOf (entryIndex (off - 0x800))
  else if off < 0x1000 then .rankOf (entryIndex (off - 0xC00))
  else if off < 0x1400 then .clen (entryIndex (off - 0x1000))
  else if off < 0x2000 then .unmapped
  else if off < 0x4000 then .cbits (BitVec.ofNat 8 ((off - 0x2000) / 32)) ((off - 0x2000) % 32 / 4)
  else if off < 0x80000 then .unmapped
  else if off < 0x80000 + 8 * c.nodeMax then .node ((off - 0x80000) / 8) (decide ((off - 0x80000) % 8 = 4))
  else if off < 0x10000000 then .unmapped
  else if off < 0x10000000 + c.pbufSize then .pbuf ((off - 0x10000000) / 4)
  else if off < 0x20000000 then .unmapped
  else if off < 0x20000000 + c.obufSize then .obuf ((off - 0x20000000) / 4)
  else .unmapped

/-- The byte offset of a port address (20_memory.md R60: the port carries offset bits [29:2]). -/
def portOffset (addr : BitVec 28) : Nat := 4 * addr.toNat

/-- The port address of a byte offset, a multiple of 4. -/
def portAddr (off : Nat) : BitVec 28 := BitVec.ofNat 28 (off / 4)

/-- A child reference and its validity bit: absent is 0 (10_state.md R46). -/
def childWord (c : Option Nat) : Word := BitVec.ofNat 32 (c.getD 0)

/-- Word W0 of a node (10_state.md R46). -/
def Node.word0 (x : Node) : Word := childWord x.left ||| (childWord x.right <<< 16)

/-- Word W1 of a node (10_state.md R46). -/
def Node.word1 (x : Node) : Word :=
  flagBit x.left.isSome 0 ||| flagBit x.right.isSome 1 ||| flagBit x.sym.isSome 2 |||
    ((x.sym.getD 0).setWidth 32 <<< 8)

/-- `ID` (10_state.md R24). -/
def idWord : Word := 0x53460100

/-- The value at a location while the engine is not busy, and the draws made since (10_state.md section 2 and 3, R53
for the unspecified ones). `CTRL` always reads as 0 (R25). -/
def State.readLoc (s : State) : Loc → Word × Nat
  | .id => (idWord, s.draws)
  | .ctrl => (0, s.draws)
  | .cmd => (s.cmd, s.draws)
  | .status => (s.status.toWord, s.draws)
  | .err => (s.err, s.draws)
  | .errInfo => (s.errInfo, s.draws)
  | .nnz => (s.nnz.setWidth 32, s.draws)
  | .lastNz => (s.lastNz.setWidth 32, s.draws)
  | .splitD => (s.splitD.setWidth 32, s.draws)
  | .packedLen => (s.packedLen, s.draws)
  | .expectedLen => (s.expectedLen, s.draws)
  | .outCount => (s.outCount, s.draws)
  | .cursor => (s.cursor.setWidth 32, s.draws)
  | .bitmask => (s.bitmask.setWidth 32, s.draws)
  | .nodeCount => (s.nodeCount.setWidth 32, s.draws)
  | .freq a => (s.freq.at a, s.draws)
  | .symOf r => ((s.symOf.at r).setWidth 32, s.draws)
  | .rankOf a => ((s.rankOf.at a).setWidth 32, s.draws)
  | .clen a => ((s.clen.at a).setWidth 32, s.draws)
  | .cbits a w => (cbitsWord (s.cbits.at a) w, s.draws)
  | .node n second =>
    if n < s.nodeCount.toNat then
      (if second then (nodeAt s.nodes n).word1 else (nodeAt s.nodes n).word0, s.draws)
    else (Config.freeWord s.draws, s.draws + 1)
  | .pbuf j => wordOrFree s.pbuf j s.draws
  | .obuf j => wordOrFree s.obuf j s.draws
  | .unmapped => (0, s.draws)

/-- The value at a location while the engine is busy (20_memory.md R66): `ID`, `CTRL`, `CMD`, `STATUS` as they are,
unmapped and reserved offsets 0 (R68; assumption log 9), everything else an unspecified value. -/
def State.readLocBusy (s : State) : Loc → Word × Nat
  | .id => s.readLoc .id
  | .ctrl => s.readLoc .ctrl
  | .cmd => s.readLoc .cmd
  | .status => s.readLoc .status
  | .unmapped => s.readLoc .unmapped
  | _ => (Config.freeWord s.draws, s.draws + 1)

/-- `HostRead(4 * addr)`: what it returns and the draws made since (20_memory.md R65 to R68). -/
def State.hostRead (s : State) (addr : BitVec 28) : Word × Nat :=
  let l := locate s.config (portOffset addr)
  if s.status.busy then s.readLocBusy l else s.readLoc l

/-- A `HostRead` changes nothing of the SFU (20_memory.md R65): the value goes to the host. -/
def State.performRead (s : State) (addr : BitVec 28) : State :=
  { s with readData := some (s.hostRead addr).1, draws := (s.hostRead addr).2 }

/-- A write to `CTRL`: bit 0 set is the soft reset, in every phase (10_state.md R25). -/
def State.writeCtrl (s : State) (v : Word) : State := if v.getLsbD 0 then s.softReset else s

/-- A write to `CMD`, by phase (30_encoding.md R84). -/
def State.writeCmd (s : State) (v : Word) : State :=
  match s.status.phase with
  | .busy => { s with status := s.status.overrun }
  | .fault => s
  | .idle => s.accept v

/-- A write to a location other than `CTRL` and `CMD` while the engine is not busy: the read-write locations store
(10_state.md R22, R33, R34, R40, R43, R44, R47), a `FREQ` write clears `RANK_VALID` (R40), the rest is discarded. -/
def State.writeLoc (s : State) (v : Word) : Loc → State
  | .packedLen => { s with packedLen := v }
  | .expectedLen => { s with expectedLen := v }
  | .freq a => { s with freq := s.freq.put a v, status := { s.status with rankValid := false } }
  | .clen a => { s with clen := s.clen.put a (v.setWidth 8) }
  | .cbits a w => { s with cbits := s.cbits.put a (setCbitsWord (s.cbits.at a) w v) }
  | .pbuf j => { s with pbuf := Memory.writeWord s.pbuf j v }
  | .id => s
  | .ctrl => s
  | .cmd => s
  | .status => s
  | .err => s
  | .errInfo => s
  | .nnz => s
  | .lastNz => s
  | .splitD => s
  | .outCount => s
  | .cursor => s
  | .bitmask => s
  | .nodeCount => s
  | .symOf _ => s
  | .rankOf _ => s
  | .node _ _ => s
  | .obuf _ => s
  | .unmapped => s

/-- `HostWrite(4 * addr, v)` (20_memory.md R65 to R68): `CTRL` and `CMD` by their own rules in every phase; any other
write is discarded while the engine is busy. -/
def State.hostWrite (s : State) (addr : BitVec 28) (v : Word) : State :=
  let l := locate s.config (portOffset addr)
  if l = .ctrl then s.writeCtrl v
  else if l = .cmd then s.writeCmd v
  else if s.status.busy then s
  else s.writeLoc v l

end Sys2Proof.Machine
end

