-- ==== Sys2Proof/Machine/Step.lean ====
section
/-! DEFINITION. One step of the machine: the next turn (00_scope.md R6, R7; assumption log 2). -/

namespace Sys2Proof.Machine

/-- Execution of the accepted word (30_encoding.md R85): the word checks, then the command's rule. -/
def runCommand (s : State) : Result :=
  match decode s.cmd with
  | .ok i => exec i s
  | .error e => .next (s.raise { cause := wordErrorCause e, info := s.cmd })

/-- The engine's turn: it runs the command in flight, whole; without one it does nothing (70_reset_and_hazards.md R230,
60_exceptions.md R225). -/
def engineTurn (s : State) : Result := if s.status.busy then runCommand s else .next s

/-- One turn: a host transaction, a reset, or the engine. When the outside world has nothing more to do, the engine
has the turn, so a command in flight always ends (70_reset_and_hazards.md R243). -/
def step (s : State) : Host.Outcome State Fault Refusal :=
  match s.turns with
  | [] => engineTurn s
  | .engine :: rest => engineTurn { s with turns := rest }
  | .hostRead addr :: rest => .next (State.performRead { s with turns := rest } addr)
  | .hostWrite addr v :: rest => .next (State.hostWrite { s with turns := rest } addr v)
  | .resetPin :: rest => .next (State.hardReset { s with turns := rest })

/-- `s` with the word just accepted (30_encoding.md R84) and the engine's turn next: the engine fetches its command
from `CMD` (20_memory.md R73), and no other place holds one (10_state.md R21). It stands for the host's `CMD` write
(assumption log 3). -/
def State.withFetchWord (s : State) (nbits w : Nat) : State :=
  { s.accept (tableWord nbits w) with turns := .engine :: s.turns }

end Sys2Proof.Machine
end

