-- ==== Sys2Proof/Machine/HostProgram.lean ====
section
/-! DEFINITION. Host programs (30_encoding.md R90, R91): the written form of a command, and the statements of a host
program as the turns they issue. The machine itself knows only turns. -/

namespace Sys2Proof.Machine

/-- The written form of a command (R90). -/
def commandText : Instr → String
  | .nop => "nop"
  | .rank => "rank"
  | .split first last => "split " ++ toString first ++ ", " ++ toString last
  | .part => "part"
  | .assign => "assign"
  | .tbuild => "tbuild"
  | .tfree => "tfree"
  | .decode => "decode"
  | .blkdec => "blkdec"

/-- A statement of a host program (R91). -/
inductive Statement where
  /-- `wr off, v` -/
  | wr (off : Nat) (v : Word)
  /-- `rd off` -/
  | rd (off : Nat)
  /-- `cmd <command>` -/
  | cmd (i : Instr)
  /-- `wait`: `polls` reads of `STATUS` find `BUSY` = 1, then the engine has its turn and the last read finds it 0 -/
  | wait (polls : Nat)
  /-- `srst` -/
  | srst
  /-- `ldfreq a, v` -/
  | ldfreq (a : Byte) (v : Word)
  /-- `ldcode a, "<bits>"` -/
  | ldcode (a : Byte) (bits : List Bool)
  /-- `ldpbuf b0 b1 ...` -/
  | ldpbuf (bytes : List Byte)
  /-- `run <command>`: `cmd` then `wait` -/
  | run (i : Instr) (polls : Nat)
  deriving DecidableEq, Repr

/-- `HostWrite(off, v)`. -/
def wrTurn (off : Nat) (v : Word) : Turn := .hostWrite (portAddr off) v

/-- `HostRead(off)`. -/
def rdTurn (off : Nat) : Turn := .hostRead (portAddr off)

/-- The turns of `wait`. -/
def waitTurns (polls : Nat) : List Turn := List.replicate polls (rdTurn 0x00C) ++ [.engine, rdTurn 0x00C]

/-- Word `w` of a code string: bit `j` is its character `32*w + j`, 0 beyond the end (R91, `ldcode`). -/
def codeWord (bits : List Bool) (w : Nat) : Word := BitVec.ofNat 32 (packBits ((bits.drop (32 * w)).take 32))

/-- The expansion of a statement (R91). WHERE THE ENGINE HAS ITS TURN is the model's choice (DESIGN CHOICE, log 19): the
spec leaves open when a command ends relative to the host's statements (00_scope.md R7, 70_reset_and_hazards.md R243);
here only `wait` and `run` give the engine a turn, so after `cmd` every `wr` and `rd` up to the next `wait` finds `BUSY` =
1, however many there are. -/
def Statement.turns : Statement → List Turn
  | .wr off v => [wrTurn off v]
  | .rd off => [rdTurn off]
  | .cmd i => [wrTurn 0x008 (encode i)]
  | .wait polls => waitTurns polls
  | .srst => [wrTurn 0x004 1]
  | .ldfreq a v => [wrTurn (0x0400 + 4 * a.toNat) v]
  | .ldcode a bits =>
    wrTurn (0x1000 + 4 * a.toNat) (BitVec.ofNat 32 bits.length) ::
      (List.range ((bits.length + 31) / 32)).map fun w => wrTurn (0x2000 + 32 * a.toNat + 4 * w) (codeWord bits w)
  | .ldpbuf bytes =>
    (List.range ((bytes.length + 3) / 4)).map fun j =>
      wrTurn (0x10000000 + 4 * j)
        (wordOfBytes (bytes.getD (4 * j) 0) (bytes.getD (4 * j + 1) 0) (bytes.getD (4 * j + 2) 0)
          (bytes.getD (4 * j + 3) 0))
  | .run i polls => wrTurn 0x008 (encode i) :: waitTurns polls

/-- A program is its statements' turns in order: one schedule of the many the spec allows (DESIGN CHOICE, log 19). The
others are this list with further turns `.engine` put between its entries, or the one of a `wait` moved forward; a
program that polls with plain `rd 0x00C` ends its commands only under such a schedule. `step` runs any of them. -/
def programTurns (p : List Statement) : List Turn := p.flatMap Statement.turns

end Sys2Proof.Machine
end

