-- ==== Sys2Proof/Machine/HostReference.lean ====
section
/-! DEFINITION. Host-side reference functions (44_host_reference.md R180 to R183). The SFU executes none of them; the
properties of 42_decode.md R157 and R182 are stated through them. -/

namespace Sys2Proof.Machine

/-- Byte `k` of a packed stream: bit `8*k + j` of the stream is bit `7 - j`, padding bits are 0 (R183). -/
def packedByte (bits : List Bool) (k : Nat) : Byte :=
  BitVec.ofNat 8 (((List.range 8).map fun j => (bits.getD (8 * k + j) false).toNat * 2 ^ (7 - j)).sum)

/-- `Pack(B, code)` (R183); its length is `PL`. R183 defines it only where every byte of `B` has a non-empty code; on
other blocks this total function leaves the bytes without a code out of the stream, which is the model's choice
(DESIGN CHOICE, log 16). -/
def packBlock (code : Byte → List Bool) (block : List Byte) : List Byte :=
  let bits := block.flatMap code
  (List.range ((bits.length + 7) / 8)).map (packedByte bits)

/-- A code string as text (R180). -/
def bitsText (p : List Bool) : List Char := p.map fun b => if b then '1' else '0'

/-- The code-table text: the 256 code strings in symbol order, joined by one separator, the semicolon (R180). -/
def joinFields : List (List Char) → List Char
  | [] => []
  | [f] => f
  | f :: g :: rest => f ++ ';' :: joinFields (g :: rest)

/-- `Serialize(C)` (R180). -/
def serializeCodes (codes : List (List Bool)) : List Char := joinFields (codes.map bitsText)

/-- Splitting a text on the separator (R181). -/
def splitFields : List Char → List (List Char)
  | [] => [[]]
  | c :: cs =>
    if c = ';' then [] :: splitFields cs
    else
      match splitFields cs with
      | [] => [[c]]
      | f :: fs => (c :: f) :: fs

/-- A field as a code string, none where it holds another character than `0` and `1`. -/
def fieldBits : List Char → Option (List Bool)
  | [] => some []
  | c :: cs =>
    if c = '0' then (fieldBits cs).map (false :: ·)
    else if c = '1' then (fieldBits cs).map (true :: ·)
    else none

/-- `Deserialize(text)`: exactly 256 fields, field `i` is the code of symbol `i` (R181); none on a text that is no
code table, for which the spec gives no behaviour (91_not_in_source.md N14, U23). -/
def deserializeCodes (text : List Char) : Option (List (List Bool)) :=
  let fields := splitFields text
  if fields.length = 256 then fields.mapM fieldBits else none

end Sys2Proof.Machine
end

