-- ==== Sys2Proof/Safety.lean ====
section
/-! DEFINITION. What a good state of the SFU is (10_state.md R52 and the ranges the registers keep), and the notions the
statements are written in: rankings, splits, prefix-free tables, paths of a trie, and which parts of the state two
states share. -/

namespace Sys2Proof.Machine

/-! ### Rankings (40_cae.md R101 to R103) -/

/-- `a << b` (R101). -/
def Before (freq : Table Word) (a b : Byte) : Prop :=
  (freq.at b).toNat < (freq.at a).toNat ∨ (freq.at a = freq.at b ∧ a.toNat < b.toNat)

/-- `SYMOF` lists the symbols in ascending `<<` order and `RANKOF` is its inverse (R101, 10_state.md R42). -/
def IsRanking (freq : Table Word) (symOf rankOf : Table Byte) : Prop :=
  (∀ r r' : Byte, r.toNat < r'.toNat → Before freq (symOf.at r) (symOf.at r')) ∧
  (∀ r : Byte, rankOf.at (symOf.at r) = r) ∧
  (∀ a : Byte, symOf.at (rankOf.at a) = a)

/-- The symbols with a non-zero count, ascending. -/
def nonzeroSymbols (freq : Table Word) : List Byte := allBytes.filter fun a => decide (freq.at a ≠ 0)

/-! ### Splits (40_cae.md R106, R107) -/

/-- The imbalance after rank `r` of the interval that starts at `first` (R106). -/
def imbalanceAt (F : Nat → Nat) (first last r : Nat) : Nat :=
  imbalance (intervalSum F first (r - first + 1)) (intervalSum F first (last - first + 1))

/-- Every rank of the interval has a count of at least 1. -/
def PositiveOn (F : Nat → Nat) (first last : Nat) : Prop := ∀ r, first ≤ r → r ≤ last → 1 ≤ F r

/-! ### Code tables -/

/-- No non-empty code is a prefix of another symbol's (00_scope.md R14; equal codes count). -/
def PrefixFree (code : Byte → List Bool) : Prop :=
  ∀ a b : Byte, a ≠ b → code a ≠ [] → code b ≠ [] → ¬ code a <+: code b

/-- The distinct non-empty prefixes of the non-empty codes (41_trie.md R137). -/
def codePrefixes (code : Byte → List Bool) : List (List Bool) :=
  (allBytes.flatMap fun a => (code a).inits.tail).dedup

/-- How many nodes the trie of a table has (41_trie.md R137). -/
def nodesNeeded (code : Byte → List Bool) : Nat := 1 + (codePrefixes code).length

/-- The paths from the root of the nodes made by inserting codes one after the other, in order of creation (41_trie.md
R133): the root, then for each code its prefixes from the shortest on, each where it first occurs. -/
def creationOrder (codes : List (List Bool)) : List (List Bool) := ([] :: codes.flatMap List.inits).eraseDups

/-! ### Tries -/

/-- The node reached from node `n` by the bits of a code, left on 0 and right on 1 (41_trie.md R136). -/
def followPath (ns : List Node) : Nat → List Bool → Option Nat
  | n, [] => some n
  | n, b :: bs =>
    match (nodeAt ns n).child b with
    | none => none
    | some c => followPath ns c bs

/-- Every non-empty code leads from the root to a leaf that holds its symbol (41_trie.md R136 (a)). -/
def TrieHolds (ns : List Node) (code : Byte → List Bool) : Prop :=
  ∀ a : Byte, code a ≠ [] →
    ∃ n, followPath ns 0 (code a) = some n ∧ nodeAt ns n = { left := none, right := none, sym := some a }

/-- The bits of the codes of emitted symbols, and then of the part of a code followed since (42_decode.md R152). -/
def followedBits (emitted : List (Byte × List Bool)) (rest : List Bool) : List Bool :=
  emitted.flatMap Prod.snd ++ rest

/-- Each pair is a symbol and the path from the root to its leaf, and `rest` leads from the root to node `n` (42_decode.md
R152, R154). -/
def FollowedTo (ns : List Node) (emitted : List (Byte × List Bool)) (rest : List Bool) (n : Nat) : Prop :=
  (∀ x ∈ emitted, x.2 ≠ [] ∧
    ∃ m, followPath ns 0 x.2 = some m ∧ nodeAt ns m = { left := none, right := none, sym := some x.1 }) ∧
  followPath ns 0 rest = some n

/-- `CURSOR` and `BITMASK` name bit `p` of the packed stream (42_decode.md R154). -/
def NextBitIs (t : State) (p : Nat) : Prop :=
  t.cursor.toNat = p / 8 ∧ t.bitmask = (0x80 : Byte) >>> (p % 8)

/-- `c` is a child of node `n`. -/
def IsChild (ns : List Node) (n c : Nat) : Prop := (nodeAt ns n).left = some c ∨ (nodeAt ns n).right = some c

/-- 10_state.md R52 (e): every node but the root is the child of exactly one node, of smaller index (and every child
index is an allocated one); a leaf other than the root holds a symbol; a node with a child holds none. -/
def TrieShape (ns : List Node) : Prop :=
  (∀ n c, n < ns.length → IsChild ns n c → n < c ∧ c < ns.length) ∧
  (∀ c, 0 < c → c < ns.length → ∃ n, n < ns.length ∧ IsChild ns n c ∧ ∀ m, m < ns.length → IsChild ns m c → m = n) ∧
  (∀ n, 0 < n → n < ns.length → (nodeAt ns n).isLeaf = true → (nodeAt ns n).sym.isSome = true) ∧
  (∀ n, n < ns.length → (nodeAt ns n).isLeaf = false → (nodeAt ns n).sym = none)

/-! ### The invariants (10_state.md R52) -/

/-- R27: at most one of `BUSY`, `FAULT`; `DONE` implies neither. R52 (d): without a fault `ERR` and `ERRINFO` are 0. -/
def StatusOk (s : State) : Prop :=
  ¬ (s.status.busy = true ∧ s.status.fault = true) ∧
  (s.status.done = true → s.status.busy = false ∧ s.status.fault = false) ∧
  (s.status.fault = false → s.err = 0 ∧ s.errInfo = 0)

/-- R52 (c): `BITMASK` is one-hot. -/
def BitmaskOk (s : State) : Prop :=
  s.bitmask ∈ ([0x80, 0x40, 0x20, 0x10, 0x08, 0x04, 0x02, 0x01] : List Byte)

/-- R52 (b), with `LAST_NZ` of R31: while `RANK_VALID` is 1 the rank tables, `NNZ` and `LAST_NZ` describe `FREQ`. -/
def RankTablesOk (s : State) : Prop :=
  s.status.rankValid = true →
    IsRanking s.freq s.symOf s.rankOf ∧
    s.nnz.toNat = (nonzeroSymbols s.freq).length ∧
    s.lastNz.toNat = s.nnz.toNat - 1 ∧
    ∀ r : Byte, s.freq.at (s.symOf.at r) ≠ 0 ↔ r.toNat < s.nnz.toNat

/-- R52 (a), R38: `NODE_COUNT` counts the allocated nodes, at most `NODE_MAX`, and `TRIE_VALID` says there are any. -/
def ArenaOk (s : State) : Prop :=
  s.nodeCount.toNat = s.nodes.length ∧ s.nodes.length ≤ s.config.nodeMax ∧
  (s.status.trieValid = true ↔ 1 ≤ s.nodeCount.toNat)

/-- R52 (e). -/
def TrieOk (s : State) : Prop := s.status.trieValid = true → TrieShape s.nodes

/-- The canonical form of both buffers, their indices within the buffer (R47, R48), and the ranges of `OUT_COUNT` and
`CURSOR` (R21, 42_decode.md R151). -/
def BuffersOk (s : State) : Prop :=
  Memory.wf s.pbuf ∧ (∀ c ∈ s.pbuf, c.1 < s.config.pbufSize) ∧
  Memory.wf s.obuf ∧ (∀ c ∈ s.obuf, c.1 < s.config.obufSize) ∧
  s.outCount.toNat ≤ s.config.obufSize ∧ s.cursor.toNat ≤ s.config.pbufSize

/-! ### What two states share -/

/-- What no command writes (20_memory.md R75; 10_state.md R26, R33, R34, R40, R47), the parameters and the outside
world. -/
def SameInputs (s t : State) : Prop :=
  t.config = s.config ∧ t.cmd = s.cmd ∧ t.freq = s.freq ∧ t.pbuf = s.pbuf ∧
  t.packedLen = s.packedLen ∧ t.expectedLen = s.expectedLen ∧
  t.turns = s.turns ∧ t.readData = s.readData ∧ t.status.ovr = s.status.ovr

/-- The rank tables and what goes with them. -/
def SameRanking (s t : State) : Prop :=
  t.symOf = s.symOf ∧ t.rankOf = s.rankOf ∧ t.nnz = s.nnz ∧ t.lastNz = s.lastNz ∧
  t.status.rankValid = s.status.rankValid

/-- The code table. -/
def SameCodes (s t : State) : Prop := t.clen = s.clen ∧ t.cbits = s.cbits

/-- The trie. -/
def SameTrie (s t : State) : Prop :=
  t.nodes = s.nodes ∧ t.nodeCount = s.nodeCount ∧ t.status.trieValid = s.status.trieValid

/-- The registers a decode moves. -/
def SameCursor (s t : State) : Prop :=
  t.outCount = s.outCount ∧ t.cursor = s.cursor ∧ t.bitmask = s.bitmask ∧ t.draws = s.draws

/-- The error registers. -/
def SameErrors (s t : State) : Prop := t.err = s.err ∧ t.errInfo = s.errInfo

/-- Everything a fault entry leaves as it was, where the command had changed nothing before it (60_exceptions.md R211). -/
def Untouched (s t : State) : Prop :=
  SameInputs s t ∧ SameRanking s t ∧ SameCodes s t ∧ SameCursor s t ∧ t.splitD = s.splitD

/-- A command ended by `complete` (30_encoding.md R86). -/
def Completed (s t : State) : Prop :=
  t.status.busy = false ∧ t.status.done = true ∧ t.status.fault = s.status.fault ∧ SameErrors s t

/-- Fault entry with these words of `ERR` and `ERRINFO` has been performed (60_exceptions.md R210). -/
def FaultEntered (t : State) (err info : Word) : Prop :=
  t.err = err ∧ t.errInfo = info ∧ t.nodeCount = 0 ∧ t.status.trieValid = false ∧
  t.status.busy = false ∧ t.status.done = false ∧ t.status.fault = true

/-- A command ended by fault entry: besides, no node has a specified value (10_state.md R53; log 7), and no byte of
`OBUF` has (10_state.md R48; log 5). -/
def Faulted (t : State) (err info : Word) : Prop :=
  FaultEntered t err info ∧ t.nodes = [] ∧ t.obuf = []

/-- The words `ERR` can take at a fault of a command's own, by the `raised by` column of 60_exceptions.md R202. -/
def ownErrWords : Instr → List Word
  | .nop => []
  | .rank => []
  | .split _ _ => [0x0406, 0x0306]
  | .part => [0x0406]
  | .assign => []
  | .tbuild => [0x0606, 0x1001, 0x2004, 0x2104]
  | .tfree => []
  | .decode => [0x0506, 0x1201, 0x1101, 0x3004, 0x3104, 0x3204]
  | .blkdec => [0x0606, 0x1201, 0x1101, 0x1001, 0x2004, 0x2104, 0x3004, 0x3104, 0x3204]

end Sys2Proof.Machine
end

