-- ==== Sys2Proof/Certificates/Slice0/Obligations.lean ====
section
/-! DEFINITION. The statements for the provers, in the order of OBLIGATIONS.json. Each docstring names the sentence of
spec/ it formalises. -/

open Sys2Proof Sys2Proof.Machine

/-! ### Encoding (30_encoding.md) -/

/-- R81, R82, R90: the word of every well-formed command decodes to that command, with both operands of `split` at every
value 0..255. -/
def Obligations.EncodedCommandDecodesBack : Prop :=
  ∀ i : Instr, i.wf = true → decode (encode i) = .ok i

/-- R88: "There is no hint space, no custom space and no encoding that executes as another command": a word that decodes
is the one word of the command it decodes to. -/
def Obligations.DecodedWordHasOneEncoding : Prop :=
  ∀ (w : Word) (i : Instr), decode w = .ok i → i.wf = true ∧ encode i = w

/-- R85 steps 1 and 2, R88: which words are no command, and for which of the two reasons. -/
def Obligations.WordsRejectedByOpcodeThenReserved : Prop :=
  ∀ w : Word,
    (decode w = .error .illegalOpcode ↔
      w.toNat % 256 ∉ [0x00, 0x10, 0x11, 0x12, 0x13, 0x20, 0x21, 0x30, 0x31]) ∧
    (decode w = .error .reservedBits ↔
      w.toNat % 256 ∈ [0x00, 0x10, 0x11, 0x12, 0x13, 0x20, 0x21, 0x30, 0x31] ∧
      (if w.toNat % 256 = 0x11 then 2 ^ 24 ≤ w.toNat else 2 ^ 8 ≤ w.toNat))

/-- R87, R90: a few words, written out from the formats, and the commands they are. -/
def Obligations.WrittenWordsDecode : Prop :=
  decode 0x00000000 = .ok .nop ∧ decode 0x00000010 = .ok .rank ∧
  decode 0x00070011 = .ok (.split 0 7) ∧ decode 0x00070111 = .ok (.split 1 7) ∧
  decode 0x00000013 = .ok .assign ∧ decode 0x00000020 = .ok .tbuild ∧ decode 0x00000031 = .ok .blkdec ∧
  decode 0x00000001 = .error .illegalOpcode ∧ decode 0x01000011 = .error .reservedBits

/-! ### The engine's turn and acceptance (30_encoding.md R84 to R88) -/

/-- R84, R85, 00_scope.md R7: while a command is in flight, the engine's turn is exactly the command's meaning at that
state; it has the turn when the outside world gives it, or has nothing more to do. 60_exceptions.md R225,
70_reset_and_hazards.md R230: with no command in flight the engine's turn does nothing. -/
def Obligations.EngineTurnRunsTheDecodedCommand : Prop :=
  (∀ (s : State) (i : Instr), s.status.busy = true → i.wf = true → decode s.cmd = .ok i →
    (s.turns = [] → step s = exec i s) ∧
    (∀ rest, s.turns = .engine :: rest → step s = exec i { s with turns := rest })) ∧
  (∀ s : State, s.status.busy = false →
    (s.turns = [] → step s = .next s) ∧
    (∀ rest, s.turns = .engine :: rest → step s = .next { s with turns := rest }))

/-- R85, R88: a word with an illegal opcode or a reserved bit set, once accepted, faults with `C_OPCODE` or
`C_RESERVED` at the engine's turn, given by the outside world or, with nothing more to come from it, its own; `ERRINFO`
is the word; nothing else changes but what fault entry changes. -/
def Obligations.IllegalWordEntersFault : Prop :=
  ∀ (s : State) (e : WordError) (rest : List Turn),
    s.status.busy = true → (s.turns = .engine :: rest ∨ (s.turns = [] ∧ rest = [])) → decode s.cmd = .error e →
    ∃ t, step s = .next t ∧
      Faulted t (match e with | .illegalOpcode => 0x0106 | .reservedBits => 0x0206) s.cmd ∧
      Untouched { s with turns := rest } t

/-- R84: what a write to `CMD` does in each of the three phases, and that it is the only way a command starts. -/
def Obligations.CmdWriteActsByPhase : Prop :=
  (∀ (s : State) (v : Word) (rest : List Turn), s.turns = .hostWrite (portAddr 0x008) v :: rest →
    (s.status.busy = true →
      step s = .next { s with turns := rest, status := { s.status with ovr := true } }) ∧
    (s.status.busy = false → s.status.fault = true → step s = .next { s with turns := rest }) ∧
    (s.status.busy = false → s.status.fault = false →
      step s = .next { s with
        turns := rest, cmd := v, status := { s.status with busy := true, done := false } })) ∧
  (∀ s t : State, step s = .next t → s.status.busy = false → t.status.busy = true →
    s.status.fault = false ∧ ∃ rest, s.turns = .hostWrite (portAddr 0x008) t.cmd :: rest)

/-! ### nop and tfree -/

/-- 43_system.md R170, 30_encoding.md R86. -/
def Obligations.NopOnlyCompletes : Prop :=
  ∀ s : State, exec .nop s = .next { s with status := { s.status with busy := false, done := true } }

/-- 41_trie.md R140: `tfree` releases the trie, held or not, and changes nothing else. -/
def Obligations.TfreeReleasesTheTrie : Prop :=
  ∀ s : State, exec .tfree s = .next { s with
    nodes := [], nodeCount := 0, status := { s.status with trieValid := false, busy := false, done := true } }

/-! ### rank -/

/-- 40_cae.md R100 to R102: `rank` always completes; the tables hold the ranking, `NNZ` and `LAST_NZ` the truncation,
the non-zero counts occupy exactly the ranks below `NNZ`; nothing else changes. -/
def Obligations.RankBuildsTheRanking : Prop :=
  ∀ s : State, ∃ t, exec .rank s = .next t ∧
    IsRanking s.freq t.symOf t.rankOf ∧
    t.nnz.toNat = (nonzeroSymbols s.freq).length ∧
    t.lastNz.toNat = t.nnz.toNat - 1 ∧
    (∀ r : Byte, s.freq.at (t.symOf.at r) ≠ 0 ↔ r.toNat < t.nnz.toNat) ∧
    t.status.rankValid = true ∧
    Completed s t ∧ SameInputs s t ∧ SameCodes s t ∧ SameTrie s t ∧ SameCursor s t ∧
    t.obuf = s.obuf ∧ t.splitD = s.splitD

/-- 40_cae.md R101: "Because `<<` is total, the result is unique". -/
def Obligations.RankingIsUnique : Prop :=
  ∀ (freq : Table Word) (sym rnk sym' rnk' : Table Byte),
    IsRanking freq sym rnk → IsRanking freq sym' rnk' → sym' = sym ∧ rnk' = rnk

/-! ### split and the best-division rule -/

/-- 40_cae.md R105, R106: on a legal interval of a valid ranking `split` completes; the imbalance falls strictly at every
rank up to `SPLIT_D` and fails to fall at the next one, which is still in the interval; nothing else changes. -/
def Obligations.SplitWritesTheBestDivision : Prop :=
  ∀ (s : State) (first last : Nat),
    s.status.rankValid = true → RankTablesOk s → first < last → last < s.nnz.toNat →
    ∃ (t : State) (d : Byte), exec (.split first last) s = .next t ∧
      t = { s with splitD := d, status := { s.status with busy := false, done := true } } ∧
      first ≤ d.toNat ∧ d.toNat < last ∧
      (∀ r, first ≤ r → r < d.toNat →
        imbalanceAt (rankFreq s.freq s.symOf) first last (r + 1) <
          imbalanceAt (rankFreq s.freq s.symOf) first last r) ∧
      imbalanceAt (rankFreq s.freq s.symOf) first last d.toNat ≤
        imbalanceAt (rankFreq s.freq s.symOf) first last (d.toNat + 1)

/-- 40_cae.md R105: the sequence check comes first, then the operand check; both faults come before any effect. -/
def Obligations.SplitFaultsInOrder : Prop :=
  ∀ (s : State) (first last : Nat),
    (s.status.rankValid = false →
      ∃ t, exec (.split first last) s = .next t ∧ Faulted t 0x0406 s.cmd ∧ Untouched s t) ∧
    (s.status.rankValid = true → ¬ (first < last ∧ last < s.nnz.toNat) →
      ∃ t, exec (.split first last) s = .next t ∧ Faulted t 0x0306 s.cmd ∧ Untouched s t)

/-- 40_cae.md R107 (b): the split index is the smallest rank of the interval at which the imbalance over the whole
interval is minimal. -/
def Obligations.BestDivisionIsTheEarliestMinimum : Prop :=
  ∀ (F : Nat → Nat) (first last : Nat), first < last → PositiveOn F first last →
    first ≤ bestDivision F first last ∧ bestDivision F first last < last ∧
    ∀ r, first ≤ r → r ≤ last →
      imbalanceAt F first last (bestDivision F first last) ≤ imbalanceAt F first last r ∧
      (r < bestDivision F first last →
        imbalanceAt F first last (bestDivision F first last) < imbalanceAt F first last r)

/-- 40_cae.md R108: starting the scan from the imbalance of the empty prefix, `total`, gives the same split. -/
def Obligations.StartingMinimumIsUnobservable : Prop :=
  ∀ (F : Nat → Nat) (first last : Nat), first < last → PositiveOn F first last →
    scanSplit F (intervalSum F first (last - first + 1)) (last - first + 1) first 0
      (some (intervalSum F first (last - first + 1))) first = bestDivision F first last

/-! ### part and assign -/

/-- 40_cae.md R111, R112: a one-rank interval is a leaf with the prefix it was given; any longer one is its left half
with a 0 and its right half with a 1, both cut at the split index; the bound of the recursion is never felt. -/
def Obligations.PartitionFollowsTheRecursion : Prop :=
  ∀ (F : Nat → Nat) (bound first last : Nat) (p : List Bool),
    first ≤ last → last - first ≤ bound → PositiveOn F first last →
    assignLeaves F bound first last p =
      if first = last then [(first, p)]
      else
        assignLeaves F (bestDivision F first last - first) first (bestDivision F first last) (p ++ [false]) ++
        assignLeaves F (last - (bestDivision F first last + 1)) (bestDivision F first last + 1) last (p ++ [true])

/-- 40_cae.md R109, R111, R113 (a), (b), (c), (e), R44: on a valid ranking `part` completes; the code of the symbol at each
rank is the one `Assign(0, NNZ - 1, "")` gives that rank (`assignLeaves` lists them, PartitionFollowsTheRecursion); with
at least two non-zero counts a symbol has a code exactly when its count is not zero, no code is longer than `NNZ - 1`,
the codes are pairwise non-prefixing and in lexicographic order of rank; every stored bit beyond a code is 0; nothing
else changes. -/
def Obligations.PartAssignsPrefixFreeCodes : Prop :=
  ∀ s : State, s.status.rankValid = true → RankTablesOk s →
    ∃ t, exec .part s = .next t ∧
      Completed s t ∧ SameInputs s t ∧ SameRanking s t ∧ SameTrie s t ∧ SameCursor s t ∧
      t.obuf = s.obuf ∧ t.splitD = s.splitD ∧
      (∀ (a : Byte) (k : Nat), (t.clen.at a).toNat ≤ k → (t.cbits.at a).getLsbD k = false) ∧
      (1 ≤ s.nnz.toNat →
        ∀ r p, (r, p) ∈ assignLeaves (rankFreq s.freq s.symOf) (s.nnz.toNat - 1) 0 (s.nnz.toNat - 1) [] →
          t.code (s.symOf.at (BitVec.ofNat 8 r)) = p) ∧
      (2 ≤ s.nnz.toNat →
        PrefixFree t.code ∧
        (∀ a : Byte, t.code a ≠ [] ↔ s.freq.at a ≠ 0) ∧
        (∀ a : Byte, (t.code a).length ≤ s.nnz.toNat - 1) ∧
        (∀ r r' : Byte, r.toNat < r'.toNat → r'.toNat < s.nnz.toNat →
          List.Lex (fun x y => x = false ∧ y = true) (t.code (s.symOf.at r)) (t.code (s.symOf.at r'))))

/-- 40_cae.md R113 (d): the codes are the leaves of a full binary tree, so the sum of `2^(-CLEN)` over the non-empty codes
is exactly 1 (here times 2^255). -/
def Obligations.PartCodesFillTheTree : Prop :=
  ∀ s : State, s.status.rankValid = true → RankTablesOk s → 2 ≤ s.nnz.toNat →
    ∃ t, exec .part s = .next t ∧
      (allBytes.map fun a => if t.code a = [] then 0 else 2 ^ (255 - (t.code a).length)).sum = 2 ^ 255

/-- 40_cae.md R114: with no or one non-zero count, every code is empty. -/
def Obligations.PartOfAtMostOneSymbolIsEmpty : Prop :=
  ∀ s : State, s.status.rankValid = true → s.nnz.toNat ≤ 1 →
    ∃ t, exec .part s = .next t ∧ Completed s t ∧
      ∀ a : Byte, t.clen.at a = 0 ∧ t.cbits.at a = 0 ∧ t.code a = []

/-- 40_cae.md R115: `assign` always completes, and its state is the one `rank` and then `part` would leave. -/
def Obligations.AssignIsRankThenPart : Prop :=
  ∀ s : State, ∃ t u, exec .rank s = .next t ∧ exec .part t = .next u ∧ exec .assign s = .next u ∧
    Completed s u ∧ SameInputs s u ∧ SameTrie s u ∧ SameCursor s u ∧ u.obuf = s.obuf ∧ u.splitD = s.splitD

/-! ### tbuild -/

/-- 41_trie.md R133, R136 (a), R137, 10_state.md R52 (e): on a prefix-free table whose trie fits, `tbuild` completes; every
non-empty code leads to a leaf that holds its symbol, the arena has the shape of a trie and one node for the root and
one for each distinct non-empty prefix; the index of the node a path leads to is the place of the path in the order of
creation, symbols ascending, each code from the root outward, the root 0; nothing else changes. -/
def Obligations.TbuildBuildsTheTrie : Prop :=
  ∀ s : State, s.status.trieValid = false → PrefixFree s.code → nodesNeeded s.code ≤ s.config.nodeMax →
    ∃ t, exec .tbuild s = .next t ∧
      Completed s t ∧ t.status.trieValid = true ∧
      t.nodes.length = nodesNeeded s.code ∧ t.nodeCount.toNat = nodesNeeded s.code ∧
      TrieHolds t.nodes s.code ∧ TrieShape t.nodes ∧
      (∀ n, n < t.nodes.length → (nodeAt t.nodes n).sym.isSome = true →
        ∃ a : Byte, s.code a ≠ [] ∧ followPath t.nodes 0 (s.code a) = some n) ∧
      (∀ n p, followPath t.nodes 0 p = some n ↔ (creationOrder (allBytes.map s.code))[n]? = some p) ∧
      SameInputs s t ∧ SameRanking s t ∧ SameCodes s t ∧ SameCursor s t ∧ t.obuf = s.obuf ∧ t.splitD = s.splitD

/-- 41_trie.md R136 (d) and its converse: with no trie held, `tbuild` completes exactly when the non-empty codes are
pairwise non-prefixing and the trie needs at most `NODE_MAX` nodes. -/
def Obligations.TbuildCompletesExactlyOnFittingPrefixFreeTables : Prop :=
  ∀ s : State, s.status.trieValid = false →
    ((∃ t, exec .tbuild s = .next t ∧ t.status.done = true) ↔
      PrefixFree s.code ∧ nodesNeeded s.code ≤ s.config.nodeMax)

/-- 41_trie.md R134, 60_exceptions.md R203, R206: a table that is not prefix-free, where the arena has room for every
prefix, faults at the first symbol `a` whose code collides with that of a smaller symbol `b` (the codes of the symbols
below `a` do not collide): with `C_PREFIX_THROUGH` and the length of `code(b)` as index where `code(b)` is a proper prefix
of `code(a)`, with `C_PREFIX_END` and the length of `code(a)` where `code(a)` is a prefix of `code(b)` or equals it;
nothing but fault entry's effect. -/
def Obligations.TbuildRefusesPrefixingCodes : Prop :=
  ∀ s : State, s.status.trieValid = false → ¬ PrefixFree s.code → nodesNeeded s.code ≤ s.config.nodeMax →
    ∃ (t : State) (a b : Byte), exec .tbuild s = .next t ∧ Untouched s t ∧
      b.toNat < a.toNat ∧ s.code a ≠ [] ∧ s.code b ≠ [] ∧
      (∀ c c' : Byte, c.toNat < a.toNat → c'.toNat < a.toNat → c ≠ c' → s.code c ≠ [] → s.code c' ≠ [] →
        ¬ s.code c <+: s.code c') ∧
      ((s.code b <+: s.code a ∧ (s.code b).length < (s.code a).length ∧
          Faulted t 0x2004 (insertInfo (s.code b).length a)) ∨
       (s.code a <+: s.code b ∧ Faulted t 0x2104 (insertInfo (s.code a).length a)))

/-- 41_trie.md R131, R137, 60_exceptions.md R202, R203: a prefix-free table whose trie does not fit faults with `C_NODES`,
at the first symbol `a` and code bit `x` for whose node there is no room: the nodes of the codes of the symbols below
`a` and of the first `x` bits of `code(a)`, the root among them, are `NODE_MAX`, and the first `x + 1` bits are the path
of none of them. -/
def Obligations.TbuildFaultsWhenTheArenaIsFull : Prop :=
  ∀ s : State, s.status.trieValid = false → PrefixFree s.code → s.config.nodeMax < nodesNeeded s.code →
    ∃ (t : State) (a : Byte) (x : Nat), exec .tbuild s = .next t ∧ Faulted t 0x1001 (insertInfo x a) ∧
      x < (s.code a).length ∧
      (creationOrder ((allBytes.take a.toNat).map s.code ++ [(s.code a).take x])).length = s.config.nodeMax ∧
      (s.code a).take (x + 1) ∉ creationOrder ((allBytes.take a.toNat).map s.code ++ [(s.code a).take x]) ∧
      Untouched s t

/-- 41_trie.md R135: with every code empty `tbuild` allocates the root and nothing else. -/
def Obligations.TbuildOfAnEmptyTableIsTheRoot : Prop :=
  ∀ s : State, s.status.trieValid = false → (∀ a : Byte, s.clen.at a = 0) →
    exec .tbuild s = .next { s with
      nodes := [{ left := none, right := none, sym := none }], nodeCount := 1,
      status := { s.status with trieValid := true, busy := false, done := true } }

/-- 70_reset_and_hazards.md R239: a trie must be released before the next `tbuild` or `blkdec`; otherwise the command
faults with `C_SEQ_HELD`. -/
def Obligations.HeldTrieBlocksBuilding : Prop :=
  ∀ (s : State) (i : Instr), i = .tbuild ∨ i = .blkdec → s.status.trieValid = true →
    ∃ t, exec i s = .next t ∧ FaultEntered t 0x0606 s.cmd ∧ Untouched s t

/-! ### decode and blkdec -/

/-- 42_decode.md R152 to R154: a stream that holds the codes of a block, through a trie that holds those codes, decodes
to the block: `OBUF` is the block and no other byte of it is specified, `CURSOR` and `BITMASK` name the bit after the
last consumed one; what `PBUF` holds beyond the packed bytes does not matter; nothing else changes. -/
def Obligations.DecodeReturnsThePackedBlock : Prop :=
  ∀ (s : State) (code : Byte → List Bool) (block : List Byte),
    s.status.trieValid = true → TrieHolds s.nodes code → (∀ a ∈ block, code a ≠ []) →
    (packBlock code block).length ≤ s.packedLen.toNat → s.packedLen.toNat ≤ s.config.pbufSize →
    s.expectedLen.toNat = block.length → block.length ≤ s.config.obufSize →
    (∀ k, k < (packBlock code block).length → Memory.read s.pbuf k = (packBlock code block)[k]?) →
    ∃ t, exec .decode s = .next t ∧ Completed s t ∧
      t.outCount = s.expectedLen ∧
      (∀ k, Memory.read t.obuf k = block[k]?) ∧
      t.cursor.toNat = (block.flatMap code).length / 8 ∧
      t.bitmask = (0x80 : Byte) >>> ((block.flatMap code).length % 8) ∧
      t.draws = s.draws ∧
      SameInputs s t ∧ SameRanking s t ∧ SameCodes s t ∧ SameTrie s t ∧ t.splitD = s.splitD

/-- 42_decode.md R150 to R155, 60_exceptions.md R203: a decode through a trie (`ArenaOk` and `TrieOk` are invariants of
every step, StepKeepsTrie) with lengths that fit has followed the packed bits, from the first, along the code of each
emitted symbol to its leaf and then along `rest` to the current node `n`; `OUT_COUNT` counts the symbols, `CURSOR` and
`BITMASK` name the next bit. It ends at the count, with the symbols in `OBUF`; or at the exhaustion of the packed bytes,
at the root or at a node `n` inside a code; or at a bit `b`, the one `CURSOR` and `BITMASK` name, for which `n` has no
child. A bit of a byte the host has not written is any value (R53), so only the bits of written bytes are tied. -/
def Obligations.DecodeEndsAtCountOrMisfit : Prop :=
  ∀ s : State, s.status.trieValid = true → ArenaOk s → TrieOk s →
    s.packedLen.toNat ≤ s.config.pbufSize → s.expectedLen.toNat ≤ s.config.obufSize →
    ∃ (t : State) (emitted : List (Byte × List Bool)) (rest : List Bool) (n : Nat),
      exec .decode s = .next t ∧ SameInputs s t ∧ SameRanking s t ∧ SameCodes s t ∧ t.splitD = s.splitD ∧
      FollowedTo s.nodes emitted rest n ∧ n < s.nodes.length ∧
      t.outCount.toNat = emitted.length ∧
      NextBitIs t (followedBits emitted rest).length ∧
      (∀ k x, k < (followedBits emitted rest).length → Memory.read s.pbuf (k / 8) = some x →
        (followedBits emitted rest)[k]? = some (x.getLsbD (7 - k % 8))) ∧
      ((Completed s t ∧ t.outCount = s.expectedLen ∧ rest = [] ∧ SameTrie s t ∧
          ∀ k, Memory.read t.obuf k = (emitted.map Prod.fst)[k]?) ∨
       (t.outCount.toNat < s.expectedLen.toNat ∧
        ((Faulted t 0x3004 0 ∧ n = 0 ∧ t.cursor.toNat = s.packedLen.toNat ∧ t.bitmask = 0x80) ∨
         (Faulted t 0x3104 (BitVec.ofNat 32 n) ∧ n ≠ 0 ∧ t.cursor.toNat = s.packedLen.toNat ∧ t.bitmask = 0x80) ∨
         (∃ b : Bool, Faulted t 0x3204 ((BitVec.ofNat 32 b.toNat <<< 16) ||| BitVec.ofNat 32 n) ∧
            (nodeAt s.nodes n).child b = none ∧ t.cursor.toNat < s.packedLen.toNat ∧
            ∀ x, Memory.read s.pbuf t.cursor.toNat = some x → b = (x &&& t.bitmask != 0)))))

/-- 42_decode.md R151: the two lengths are checked against the buffer capacities, the packed length first, before
anything else is done; a length equal to its capacity is legal. -/
def Obligations.DecodeChecksItsLengths : Prop :=
  ∀ (s : State) (i : Instr),
    (i = .decode ∧ s.status.trieValid = true) ∨ (i = .blkdec ∧ s.status.trieValid = false) →
    (s.config.pbufSize < s.packedLen.toNat →
      ∃ t, exec i s = .next t ∧ FaultEntered t 0x1201 s.packedLen ∧ Untouched s t) ∧
    (s.packedLen.toNat ≤ s.config.pbufSize → s.config.obufSize < s.expectedLen.toNat →
      ∃ t, exec i s = .next t ∧ FaultEntered t 0x1101 s.expectedLen ∧ Untouched s t) ∧
    (s.packedLen.toNat ≤ s.config.pbufSize → s.expectedLen.toNat ≤ s.config.obufSize →
      s.latchLengths = .ok (s.packedLen, s.expectedLen))

/-- 42_decode.md R150: without a trie `decode` faults with `C_SEQ_NOTRIE`. -/
def Obligations.DecodeWithoutTrieFaults : Prop :=
  ∀ s : State, s.status.trieValid = false →
    ∃ t, exec .decode s = .next t ∧ Faulted t 0x0506 s.cmd ∧ Untouched s t

/-- 42_decode.md R156 (a), (b): `EXPECTED_LEN` = 0 completes at once; a root-only trie with `EXPECTED_LEN` >= 1 faults,
exhausted where there is no packed byte, for want of a child otherwise. -/
def Obligations.DegenerateDecodes : Prop :=
  ∀ s : State, s.status.trieValid = true → s.packedLen.toNat ≤ s.config.pbufSize →
    (s.expectedLen = 0 →
      exec .decode s = .next { s with
        outCount := 0, cursor := 0, bitmask := 0x80, obuf := [],
        status := { s.status with busy := false, done := true } }) ∧
    (s.nodes = [{ left := none, right := none, sym := none }] →
      1 ≤ s.expectedLen.toNat → s.expectedLen.toNat ≤ s.config.obufSize →
      ∃ t, exec .decode s = .next t ∧ t.outCount = 0 ∧ t.cursor = 0 ∧ t.bitmask = 0x80 ∧
        (s.packedLen = 0 → Faulted t 0x3004 0) ∧
        (s.packedLen ≠ 0 → Faulted t 0x3204 0 ∨ Faulted t 0x3204 0x00010000))

/-- 42_decode.md R160: `blkdec` on a prefix-free table that fits and the packed stream of a block decodes the block and
leaves no trie. -/
def Obligations.BlkdecReturnsThePackedBlock : Prop :=
  ∀ (s : State) (block : List Byte),
    s.status.trieValid = false → PrefixFree s.code → nodesNeeded s.code ≤ s.config.nodeMax →
    (∀ a ∈ block, s.code a ≠ []) →
    (packBlock s.code block).length ≤ s.packedLen.toNat → s.packedLen.toNat ≤ s.config.pbufSize →
    s.expectedLen.toNat = block.length → block.length ≤ s.config.obufSize →
    (∀ k, k < (packBlock s.code block).length → Memory.read s.pbuf k = (packBlock s.code block)[k]?) →
    ∃ t, exec .blkdec s = .next t ∧ Completed s t ∧
      t.outCount = s.expectedLen ∧
      (∀ k, Memory.read t.obuf k = block[k]?) ∧
      t.cursor.toNat = (block.flatMap s.code).length / 8 ∧
      t.bitmask = (0x80 : Byte) >>> ((block.flatMap s.code).length % 8) ∧
      t.nodes = [] ∧ t.nodeCount = 0 ∧ t.status.trieValid = false ∧ t.draws = s.draws ∧
      SameInputs s t ∧ SameRanking s t ∧ SameCodes s t ∧ t.splitD = s.splitD

/-- 42_decode.md R160, 60_exceptions.md R206: `blkdec` is `tbuild`, `decode`, `tfree` in one command. Where each of
them completes, it leaves the state they leave, one after the other; with legal lengths, the first of `tbuild` and
`decode` to fault is the fault `blkdec` enters, with the same `ERR` and `ERRINFO` and in the same state, but that
`OUT_COUNT`, `CURSOR` and `BITMASK` are where the acceptance of `blkdec` set them if `tbuild` is the one to fault
(10_state.md R35 to R37; the model's reading, log 20, DEDUCED). -/
def Obligations.BlkdecIsBuildDecodeRelease : Prop :=
  (∀ s a b c : State, s.status.trieValid = false →
    exec .tbuild s = .next a → a.status.done = true →
    exec .decode a = .next b → b.status.done = true →
    exec .tfree b = .next c → exec .blkdec s = .next c) ∧
  (∀ s : State, s.status.trieValid = false →
    s.packedLen.toNat ≤ s.config.pbufSize → s.expectedLen.toNat ≤ s.config.obufSize →
    ∃ a, exec .tbuild s = .next a ∧
      (a.status.done = false → a.status.fault = true ∧
        exec .blkdec s = .next { a with outCount := 0, cursor := 0, bitmask := 0x80 }) ∧
      (a.status.done = true → ∃ b, exec .decode a = .next b ∧
        (b.status.done = false → b.status.fault = true ∧ exec .blkdec s = .next b) ∧
        (b.status.done = true → ∃ c, exec .tfree b = .next c ∧ exec .blkdec s = .next c)))

/-- 42_decode.md R161: `blkdec` leaves no trie behind, however it ends. -/
def Obligations.BlkdecLeavesNoTrie : Prop :=
  ∀ s : State, ∃ t, exec .blkdec s = .next t ∧ t.nodes = [] ∧ t.nodeCount = 0 ∧ t.status.trieValid = false

/-- 42_decode.md R157: the round trip. A block with at least two distinct byte values (or none at all), whose histogram
`assign` ranks, packed with the codes it assigns and decoded through the trie `tbuild` or `blkdec` builds from them,
comes back. -/
def Obligations.RoundTripReturnsTheBlock : Prop :=
  ∀ (s : State) (block : List Byte),
    s.status.trieValid = false → 511 ≤ s.config.nodeMax → block.length ≤ s.config.obufSize →
    (block = [] ∨ ∃ a ∈ block, ∃ b ∈ block, a ≠ b) →
    (∀ a : Byte, (s.freq.at a).toNat = block.count a) →
    ∃ u, exec .assign s = .next u ∧ Completed s u ∧
      ∀ v : State,
        v = { u with pbuf := v.pbuf, packedLen := v.packedLen, expectedLen := v.expectedLen } →
        v.packedLen.toNat = (packBlock u.code block).length → v.packedLen.toNat ≤ v.config.pbufSize →
        v.expectedLen.toNat = block.length →
        (∀ k, k < v.packedLen.toNat → Memory.read v.pbuf k = (packBlock u.code block)[k]?) →
        (∃ t, exec .blkdec v = .next t ∧ Completed v t ∧
          ∀ k, k < block.length → Memory.read t.obuf k = block[k]?) ∧
        (∃ w t, exec .tbuild v = .next w ∧ Completed v w ∧ exec .decode w = .next t ∧ Completed w t ∧
          ∀ k, k < block.length → Memory.read t.obuf k = block[k]?)

/-! ### Fault entry and the phase FAULT (60_exceptions.md) -/

/-- 60_exceptions.md R210: what fault entry writes, and what it keeps; the words of `ERR` and the information word. -/
def Obligations.FaultEntryReleasesAndRecords : Prop :=
  ∀ (s : State) (f : FaultReport),
    FaultEntered (s.raise f)
      ((f.cause.code.setWidth 32 <<< 8) ||| f.cause.kind.code.setWidth 32) f.info ∧
    Untouched s (s.raise f) ∧ (s.raise f).status.rankValid = s.status.rankValid ∧
    (s.raise f).status.ovr = s.status.ovr ∧ (s.raise f).cmd = s.cmd

/-- 60_exceptions.md R215: in phase `FAULT` nothing but a reset changes `ERR`, `ERRINFO`, `CMD` or the phase; a
reset puts the SFU in the state of 10_state.md R55 (ResetLeavesTheListedValues). -/
def Obligations.FaultIsTerminal : Prop :=
  ∀ s : State, s.status.busy = false → s.status.fault = true →
    ∃ t, step s = .next t ∧
      ((∃ rest, s.turns = .resetPin :: rest ∧ t = ({ s with turns := rest } : State).hardReset) ∨
       (∃ v rest, s.turns = .hostWrite (portAddr 0x004) v :: rest ∧ v.getLsbD 0 = true ∧
          t = ({ s with turns := rest } : State).softReset) ∨
       (t.status.fault = true ∧ t.status.busy = false ∧ t.err = s.err ∧ t.errInfo = s.errInfo ∧ t.cmd = s.cmd))

/-- 60_exceptions.md R200, R206, R210, 30_encoding.md R86: every command ends, by completion or by one fault entry. -/
def Obligations.EveryCommandCompletesOrFaults : Prop :=
  ∀ (i : Instr) (s : State), s.status.fault = false →
    ∃ t, exec i s = .next t ∧ SameInputs s t ∧
      (Completed s t ∨ ∃ err info, err ∈ ownErrWords i ∧ Faulted t err info)

/-- 20_memory.md R75: a command touches no location outside its row; a fault entry releases the trie besides. -/
def Obligations.CommandsWriteOnlyTheirRow : Prop :=
  ∀ (i : Instr) (s t : State), exec i s = .next t →
    SameInputs s t ∧
    (i ≠ .rank → i ≠ .assign → SameRanking s t) ∧
    (i ≠ .part → i ≠ .assign → SameCodes s t) ∧
    (i ≠ .decode → i ≠ .blkdec → SameCursor s t) ∧
    ((∀ first last, i ≠ .split first last) → t.splitD = s.splitD) ∧
    (i ≠ .tbuild → i ≠ .tfree → i ≠ .blkdec → t.status.done = true → SameTrie s t) ∧
    (i ≠ .decode → i ≠ .blkdec → t.status.done = true → t.obuf = s.obuf)

/-! ### The host port (20_memory.md) -/

/-- 20_memory.md R65: a read changes no state of the SFU; only what the host received, which is what the location reads
as (RegistersReadAsTheyAre and its neighbours), and the draw counter (the model's own fields) move. -/
def Obligations.ReadsHaveNoSideEffect : Prop :=
  ∀ (s : State) (addr : BitVec 28) (rest : List Turn), s.turns = .hostRead addr :: rest →
    step s = .next { s with turns := rest, readData := some (s.hostRead addr).1, draws := (s.hostRead addr).2 } ∧
    s.draws ≤ (s.hostRead addr).2

/-- 20_memory.md R66: while `BUSY` every write but those to `CTRL` and `CMD` is discarded; `ID`, `CTRL`, `CMD` and `STATUS`
read as they are, `STATUS` with `BUSY` = 1; any other register, table, node or buffer offset reads as an unspecified
value, in the model a new draw of 32 bits (logs 4, 10). -/
def Obligations.BusyPortAccess : Prop :=
  ∀ (s : State) (addr : BitVec 28) (v : Word), s.status.busy = true →
    (addr ≠ portAddr 0x004 → addr ≠ portAddr 0x008 → s.hostWrite addr v = s) ∧
    s.hostRead (portAddr 0x000) = (0x53460100, s.draws) ∧
    s.hostRead (portAddr 0x004) = (0, s.draws) ∧
    s.hostRead (portAddr 0x008) = (s.cmd, s.draws) ∧
    s.hostRead (portAddr 0x00C) = (s.status.toWord, s.draws) ∧ s.status.toWord.getLsbD 0 = true ∧
    ((0x010 ≤ 4 * addr.toNat ∧ 4 * addr.toNat < 0x03C) ∨
      (0x400 ≤ 4 * addr.toNat ∧ 4 * addr.toNat < 0x1400) ∨
      (0x2000 ≤ 4 * addr.toNat ∧ 4 * addr.toNat < 0x4000) ∨
      (0x80000 ≤ 4 * addr.toNat ∧ 4 * addr.toNat < 0x80000 + 8 * s.config.nodeMax) ∨
      (0x10000000 ≤ 4 * addr.toNat ∧ 4 * addr.toNat < 0x10000000 + s.config.pbufSize) ∨
      (0x20000000 ≤ 4 * addr.toNat ∧ 4 * addr.toNat < 0x20000000 + s.config.obufSize) →
      s.hostRead addr = (Config.freeWord s.draws, s.draws + 1))

/-- 20_memory.md R68, 10_state.md R39: an unmapped or reserved offset reads 0 and discards writes. For the read while
`BUSY` = 1 this is the model's choice, log 9 (DEDUCED): R66 may be read to make it unspecified then. -/
def Obligations.UnmappedOffsetsAreSilent : Prop :=
  ∀ (s : State) (addr : BitVec 28) (v : Word),
    (0x03C ≤ 4 * addr.toNat ∧ 4 * addr.toNat < 0x400) ∨
    (0x1400 ≤ 4 * addr.toNat ∧ 4 * addr.toNat < 0x2000) ∨
    (0x4000 ≤ 4 * addr.toNat ∧ 4 * addr.toNat < 0x80000) ∨
    (0x80000 + 8 * s.config.nodeMax ≤ 4 * addr.toNat ∧ 4 * addr.toNat < 0x10000000) ∨
    (0x10000000 + s.config.pbufSize ≤ 4 * addr.toNat ∧ 4 * addr.toNat < 0x20000000) ∨
    0x20000000 + s.config.obufSize ≤ 4 * addr.toNat →
    s.hostRead addr = (0, s.draws) ∧ s.hostWrite addr v = s

/-- 10_state.md R22, 20_memory.md R65, R67: while the engine is not busy a write to any other offset than `CTRL` and
`CMD` changes at most the two length registers, `FREQ`, `CLEN`, `CBITS`, `PBUF` and `RANK_VALID`; and `RANK_VALID` only
where it is a write into the `FREQ` region. -/
def Obligations.WritesReachOnlyWritableState : Prop :=
  ∀ (s : State) (addr : BitVec 28) (v : Word), s.status.busy = false →
    addr ≠ portAddr 0x004 → addr ≠ portAddr 0x008 →
    s.hostWrite addr v = { s with
      packedLen := (s.hostWrite addr v).packedLen, expectedLen := (s.hostWrite addr v).expectedLen,
      freq := (s.hostWrite addr v).freq, clen := (s.hostWrite addr v).clen,
      cbits := (s.hostWrite addr v).cbits, pbuf := (s.hostWrite addr v).pbuf,
      status := { s.status with rankValid := (s.hostWrite addr v).status.rankValid } } ∧
    (¬ (0x400 ≤ 4 * addr.toNat ∧ 4 * addr.toNat < 0x800) → (s.hostWrite addr v).status = s.status)

/-- 20_memory.md R61, R65, R70 (a): a write is seen by a read of the same offset (of a `CLEN` entry bits [7:0], 10_state.md
R43), while the engine is not busy. -/
def Obligations.ReadReturnsTheLastWrite : Prop :=
  ∀ (s : State) (addr : BitVec 28) (v : Word), s.status.busy = false →
    (addr = portAddr 0x024 ∨ addr = portAddr 0x028 ∨
      (0x400 ≤ 4 * addr.toNat ∧ 4 * addr.toNat < 0x800) ∨
      (0x2000 ≤ 4 * addr.toNat ∧ 4 * addr.toNat < 0x4000) ∨
      (0x10000000 ≤ 4 * addr.toNat ∧ 4 * addr.toNat < 0x10000000 + s.config.pbufSize) →
      ((s.hostWrite addr v).hostRead addr).1 = v) ∧
    (0x1000 ≤ 4 * addr.toNat ∧ 4 * addr.toNat < 0x1400 →
      ((s.hostWrite addr v).hostRead addr).1 = v &&& 0xFF)

/-- 20_memory.md R65, R70 (a): a write other than to `CTRL` and `CMD` changes what no other offset reads as, but for
`STATUS`, whose `RANK_VALID` a `FREQ` write clears. -/
def Obligations.WritesLeaveOtherOffsetsAlone : Prop :=
  ∀ (s : State) (a b : BitVec 28) (v : Word), s.status.busy = false →
    a ≠ portAddr 0x004 → a ≠ portAddr 0x008 → b ≠ a → b ≠ portAddr 0x00C →
    (s.hostWrite a v).hostRead b = s.hostRead b

/-- 20_memory.md R62: byte `k` of the word written to `PBUF` word `j` is bits [8k+7 : 8k]; every byte of `PBUF` outside
the four stays; each specified byte of `PBUF` or `OBUF` reads in the same place of its word, whatever the other three
bytes are (95_test_vectors.md P2). -/
def Obligations.BufferWordsAreLittleEndian : Prop :=
  (∀ (s : State) (j : Nat) (v : Word), s.status.busy = false → j < s.config.pbufSize / 4 →
    (∀ k, k < 4 → Memory.read (s.hostWrite (portAddr (0x10000000 + 4 * j)) v).pbuf (4 * j + k) =
      some (v.extractLsb' (8 * k) 8)) ∧
    (∀ a, a < 4 * j ∨ 4 * j + 4 ≤ a →
      Memory.read (s.hostWrite (portAddr (0x10000000 + 4 * j)) v).pbuf a = Memory.read s.pbuf a)) ∧
  (∀ (s : State) (j k : Nat) (b : Byte), s.status.busy = false → k < 4 →
    (j < s.config.pbufSize / 4 → Memory.read s.pbuf (4 * j + k) = some b →
      (s.hostRead (portAddr (0x10000000 + 4 * j))).1.extractLsb' (8 * k) 8 = b) ∧
    (j < s.config.obufSize / 4 → Memory.read s.obuf (4 * j + k) = some b →
      (s.hostRead (portAddr (0x20000000 + 4 * j))).1.extractLsb' (8 * k) 8 = b))

/-- 70_reset_and_hazards.md R237, 10_state.md R40: any host write into the `FREQ` region while the engine is not busy
clears `RANK_VALID`; `split` and `part` (40_cae.md R105, R109) then fault with `C_SEQ_RANK` before any effect; only
`rank` and `assign` set it again. -/
def Obligations.FreqWriteMakesRankingStale : Prop :=
  (∀ (s : State) (addr : BitVec 28) (v : Word), s.status.busy = false →
    0x400 ≤ 4 * addr.toNat → 4 * addr.toNat < 0x800 →
    s.hostWrite addr v = { s with
      freq := s.freq.put (BitVec.ofNat 8 ((4 * addr.toNat - 0x400) / 4)) v,
      status := { s.status with rankValid := false } }) ∧
  (∀ (s : State) (i : Instr), s.status.rankValid = false → (i = .part ∨ ∃ f l, i = .split f l) →
    ∃ t, exec i s = .next t ∧ FaultEntered t 0x0406 s.cmd ∧ Untouched s t) ∧
  (∀ s t : State, step s = .next t → s.status.rankValid = false → t.status.rankValid = true →
    s.status.busy = true ∧ (decode s.cmd = .ok .rank ∨ decode s.cmd = .ok .assign))

/-- 70_reset_and_hazards.md R238: a trie is a snapshot: no host write but a soft reset, and neither `part` nor `assign`,
changes it (where `part` does not fault). -/
def Obligations.TrieIsASnapshot : Prop :=
  (∀ (s : State) (addr : BitVec 28) (v : Word), addr ≠ portAddr 0x004 → SameTrie s (s.hostWrite addr v)) ∧
  (∀ s : State, s.status.rankValid = true → ∃ t, exec .part s = .next t ∧ SameTrie s t) ∧
  (∀ s : State, ∃ t, exec .assign s = .next t ∧ SameTrie s t)

/-! ### Words the host reads (10_state.md) -/

/-- 10_state.md R22, R24 to R38, R40 to R43: what each register, and each entry of `FREQ`, `SYMOF`, `RANKOF` and `CLEN`,
reads as while the engine is not busy (20_memory.md R67: in phase `FAULT` too): the value it holds, the bits above its
width 0, nothing drawn; and the bits of `STATUS` (R27). -/
def Obligations.RegistersReadAsTheyAre : Prop :=
  (∀ st : Status,
    st.toWord.getLsbD 0 = st.busy ∧ st.toWord.getLsbD 1 = st.done ∧ st.toWord.getLsbD 2 = st.fault ∧
    st.toWord.getLsbD 3 = st.rankValid ∧ st.toWord.getLsbD 4 = st.trieValid ∧ st.toWord.getLsbD 5 = st.ovr ∧
    st.toWord.extractLsb' 6 26 = 0) ∧
  (∀ s : State, s.status.busy = false →
    s.hostRead (portAddr 0x000) = (0x53460100, s.draws) ∧
    s.hostRead (portAddr 0x004) = (0, s.draws) ∧
    s.hostRead (portAddr 0x008) = (s.cmd, s.draws) ∧
    s.hostRead (portAddr 0x00C) = (s.status.toWord, s.draws) ∧
    s.hostRead (portAddr 0x010) = (s.err, s.draws) ∧
    s.hostRead (portAddr 0x014) = (s.errInfo, s.draws) ∧
    s.hostRead (portAddr 0x018) = (s.nnz.setWidth 32, s.draws) ∧
    s.hostRead (portAddr 0x01C) = (s.lastNz.setWidth 32, s.draws) ∧
    s.hostRead (portAddr 0x020) = (s.splitD.setWidth 32, s.draws) ∧
    s.hostRead (portAddr 0x024) = (s.packedLen, s.draws) ∧
    s.hostRead (portAddr 0x028) = (s.expectedLen, s.draws) ∧
    s.hostRead (portAddr 0x02C) = (s.outCount, s.draws) ∧
    s.hostRead (portAddr 0x030) = (s.cursor.setWidth 32, s.draws) ∧
    s.hostRead (portAddr 0x034) = (s.bitmask.setWidth 32, s.draws) ∧
    s.hostRead (portAddr 0x038) = (s.nodeCount.setWidth 32, s.draws) ∧
    ∀ a : Byte,
      s.hostRead (portAddr (0x400 + 4 * a.toNat)) = (s.freq.at a, s.draws) ∧
      s.hostRead (portAddr (0x800 + 4 * a.toNat)) = ((s.symOf.at a).setWidth 32, s.draws) ∧
      s.hostRead (portAddr (0xC00 + 4 * a.toNat)) = ((s.rankOf.at a).setWidth 32, s.draws) ∧
      s.hostRead (portAddr (0x1000 + 4 * a.toNat)) = ((s.clen.at a).setWidth 32, s.draws))

/-- 10_state.md R46: the fields of the two words of a node, for child indices of 16 bits; and, while the engine is not
busy, the host reads them at `0x80000 + 8*n` and `0x80004 + 8*n` for an allocated node `n`, and an unspecified value
(R53; a draw, log 4) for one that is not. -/
def Obligations.NodeWordsHoldTheirFields : Prop :=
  (∀ x : Node, (∀ c, x.left = some c → c < 65536) → (∀ c, x.right = some c → c < 65536) →
    x.word0.extractLsb' 0 16 = BitVec.ofNat 16 (x.left.getD 0) ∧
    x.word0.extractLsb' 16 16 = BitVec.ofNat 16 (x.right.getD 0) ∧
    x.word1.getLsbD 0 = x.left.isSome ∧ x.word1.getLsbD 1 = x.right.isSome ∧ x.word1.getLsbD 2 = x.sym.isSome ∧
    x.word1.extractLsb' 3 5 = 0 ∧ x.word1.extractLsb' 8 8 = x.sym.getD 0 ∧ x.word1.extractLsb' 16 16 = 0) ∧
  (∀ (s : State) (n : Nat), s.status.busy = false → n < s.config.nodeMax →
    (n < s.nodeCount.toNat →
      s.hostRead (portAddr (0x80000 + 8 * n)) = ((nodeAt s.nodes n).word0, s.draws) ∧
      s.hostRead (portAddr (0x80004 + 8 * n)) = ((nodeAt s.nodes n).word1, s.draws)) ∧
    (s.nodeCount.toNat ≤ n →
      s.hostRead (portAddr (0x80000 + 8 * n)) = (Config.freeWord s.draws, s.draws + 1) ∧
      s.hostRead (portAddr (0x80004 + 8 * n)) = (Config.freeWord s.draws, s.draws + 1)))

/-- 10_state.md R44, R45: code bit `k` of a symbol is bit `k mod 32` of `CBITS` word `k div 32` as the host reads it, and
the code has `CLEN` bits. -/
def Obligations.CodeIsReadFromItsWords : Prop :=
  ∀ (s : State) (a : Byte), s.status.busy = false →
    (s.code a).length = (s.clen.at a).toNat ∧
    ∀ k, k < (s.clen.at a).toNat →
      (s.code a)[k]? =
        some ((s.hostRead (portAddr (0x2000 + 32 * a.toNat + 4 * (k / 32)))).1.getLsbD (k % 32))

/-! ### Reset -/

/-- 10_state.md R55: the values after a hardware reset and after a soft reset, from any state; `PBUF` is unspecified after
the one and kept by the other (`none` stands for "unspecified", R53); `assign` gives the all-empty code table there. -/
def Obligations.ResetLeavesTheListedValues : Prop :=
  ∀ s t : State, t = s.hardReset ∨ t = s.softReset →
    t.status.busy = false ∧ t.status.done = false ∧ t.status.fault = false ∧
    t.status.rankValid = false ∧ t.status.trieValid = false ∧ t.status.ovr = false ∧
    t.hostRead (portAddr 0x000) = (0x53460100, t.draws) ∧ t.hostRead (portAddr 0x004) = (0, t.draws) ∧
    t.cmd = 0 ∧ t.err = 0 ∧ t.errInfo = 0 ∧ t.nnz = 0 ∧ t.lastNz = 0 ∧ t.splitD = 0 ∧
    t.packedLen = 0 ∧ t.expectedLen = 0 ∧ t.outCount = 0 ∧ t.cursor = 0 ∧ t.nodeCount = 0 ∧ t.bitmask = 0x80 ∧
    (∀ a : Byte, t.freq.at a = 0 ∧ t.symOf.at a = 0 ∧ t.rankOf.at a = 0 ∧ t.clen.at a = 0 ∧ t.cbits.at a = 0) ∧
    (∀ k, Memory.read t.obuf k = none) ∧
    (t = s.hardReset → ∀ k, Memory.read t.pbuf k = none) ∧ (t = s.softReset → t.pbuf = s.pbuf) ∧
    (∃ u, exec .assign t = .next u ∧ ∀ a : Byte, u.code a = [])

/-- 70_reset_and_hazards.md R231, 10_state.md R25: a write of 1 to `CTRL` bit 0 is a soft reset in every phase, `BUSY`
included; a write with bit 0 clear does nothing; `CTRL` reads as 0; the reset input is a hardware reset in every phase. -/
def Obligations.ResetsActInEveryPhase : Prop :=
  ∀ (s : State) (v : Word) (rest : List Turn),
    (s.turns = .hostWrite (portAddr 0x004) v :: rest →
      step s = .next (if v.getLsbD 0 then ({ s with turns := rest } : State).softReset
        else { s with turns := rest })) ∧
    (s.turns = .resetPin :: rest → step s = .next ({ s with turns := rest } : State).hardReset) ∧
    s.hostRead (portAddr 0x004) = (0, s.draws)

/-! ### Invariants (10_state.md R52) -/

/-- Every invariant of Safety.lean holds at reset. -/
def Obligations.ResetMeetsTheInvariants : Prop :=
  StatusOk State.reset ∧ BitmaskOk State.reset ∧ RankTablesOk State.reset ∧ ArenaOk State.reset ∧
  TrieOk State.reset ∧ BuffersOk State.reset

/-- 10_state.md R27, R52 (c), (d): every step keeps the phase legal, `ERR` and `ERRINFO` 0 without a fault, `BITMASK`
one-hot. -/
def Obligations.StepKeepsStatusAndBitmask : Prop :=
  ∀ s t : State, step s = .next t → (StatusOk s → StatusOk t) ∧ (BitmaskOk s → BitmaskOk t)

/-- 10_state.md R52 (b): every step keeps the rank tables a true description of `FREQ` while `RANK_VALID` is 1. -/
def Obligations.StepKeepsRankTables : Prop :=
  ∀ s t : State, RankTablesOk s → step s = .next t → RankTablesOk t

/-- 10_state.md R52 (a), (e): every step keeps the arena counted and within `NODE_MAX`, and the trie a trie. -/
def Obligations.StepKeepsTrie : Prop :=
  ∀ s t : State, ArenaOk s → TrieOk s → step s = .next t → ArenaOk t ∧ TrieOk t

/-- 10_state.md R21, R47, R48, 42_decode.md R151: every step keeps both buffers sorted and within their sizes, and
`OUT_COUNT` and `CURSOR` within theirs. -/
def Obligations.StepKeepsBuffers : Prop :=
  ∀ s t : State, BuffersOk s → step s = .next t → BuffersOk t

/-- 00_scope.md R8, 10_state.md R51, 70_reset_and_hazards.md R243 (and the model's logs 1, 4 and 17): every step answers a
next state; none changes the parameters, none takes a draw back, and `OVR`, once set, stays until a reset (R27). -/
def Obligations.EveryStepGoesOn : Prop :=
  ∀ s : State, ∃ t, step s = .next t ∧ t.config = s.config ∧ s.draws ≤ t.draws ∧
    (s.status.ovr = true → t.status.ovr = true ∨
      (∃ rest, s.turns = .resetPin :: rest) ∨
      (∃ v rest, s.turns = .hostWrite (portAddr 0x004) v :: rest ∧ v.getLsbD 0 = true))

/-! ### Host-side reference functions -/

/-- 44_host_reference.md R182: the round trip of the code-table text, for every table of 256 entries. -/
def Obligations.CodeTextRoundTrips : Prop :=
  ∀ codes : List (List Bool), codes.length = 256 → deserializeCodes (serializeCodes codes) = some codes
end

