-- ==== Sys2Proof/Laws/State.lean ====
section
/-! SUPPORT. One law per field of State and update of State: what the field is afterwards. Generated in one form; each is
true by definition. -/

namespace Sys2Proof.Machine

/-! ### Status.accepted -/

@[simp] theorem Status.accepted_busy (st : Status) : st.accepted.busy = true := rfl
@[simp] theorem Status.accepted_done (st : Status) : st.accepted.done = false := rfl
@[simp] theorem Status.accepted_fault (st : Status) : st.accepted.fault = st.fault := rfl
@[simp] theorem Status.accepted_rankValid (st : Status) : st.accepted.rankValid = st.rankValid := rfl
@[simp] theorem Status.accepted_trieValid (st : Status) : st.accepted.trieValid = st.trieValid := rfl
@[simp] theorem Status.accepted_ovr (st : Status) : st.accepted.ovr = st.ovr := rfl

/-! ### Status.completed -/

@[simp] theorem Status.completed_busy (st : Status) : st.completed.busy = false := rfl
@[simp] theorem Status.completed_done (st : Status) : st.completed.done = true := rfl
@[simp] theorem Status.completed_fault (st : Status) : st.completed.fault = st.fault := rfl
@[simp] theorem Status.completed_rankValid (st : Status) : st.completed.rankValid = st.rankValid := rfl
@[simp] theorem Status.completed_trieValid (st : Status) : st.completed.trieValid = st.trieValid := rfl
@[simp] theorem Status.completed_ovr (st : Status) : st.completed.ovr = st.ovr := rfl

/-! ### Status.faulted -/

@[simp] theorem Status.faulted_busy (st : Status) : st.faulted.busy = false := rfl
@[simp] theorem Status.faulted_done (st : Status) : st.faulted.done = false := rfl
@[simp] theorem Status.faulted_fault (st : Status) : st.faulted.fault = true := rfl
@[simp] theorem Status.faulted_rankValid (st : Status) : st.faulted.rankValid = st.rankValid := rfl
@[simp] theorem Status.faulted_trieValid (st : Status) : st.faulted.trieValid = false := rfl
@[simp] theorem Status.faulted_ovr (st : Status) : st.faulted.ovr = st.ovr := rfl

/-! ### Status.overrun -/

@[simp] theorem Status.overrun_busy (st : Status) : st.overrun.busy = st.busy := rfl
@[simp] theorem Status.overrun_done (st : Status) : st.overrun.done = st.done := rfl
@[simp] theorem Status.overrun_fault (st : Status) : st.overrun.fault = st.fault := rfl
@[simp] theorem Status.overrun_rankValid (st : Status) : st.overrun.rankValid = st.rankValid := rfl
@[simp] theorem Status.overrun_trieValid (st : Status) : st.overrun.trieValid = st.trieValid := rfl
@[simp] theorem Status.overrun_ovr (st : Status) : st.overrun.ovr = true := rfl

/-! ### State.accept -/

@[simp] theorem State.accept_config (s : State) (w : Word) : (s.accept w).config = s.config := rfl
@[simp] theorem State.accept_cmd (s : State) (w : Word) : (s.accept w).cmd = w := rfl
@[simp] theorem State.accept_status (s : State) (w : Word) : (s.accept w).status = s.status.accepted := rfl
@[simp] theorem State.accept_err (s : State) (w : Word) : (s.accept w).err = s.err := rfl
@[simp] theorem State.accept_errInfo (s : State) (w : Word) : (s.accept w).errInfo = s.errInfo := rfl
@[simp] theorem State.accept_nnz (s : State) (w : Word) : (s.accept w).nnz = s.nnz := rfl
@[simp] theorem State.accept_lastNz (s : State) (w : Word) : (s.accept w).lastNz = s.lastNz := rfl
@[simp] theorem State.accept_splitD (s : State) (w : Word) : (s.accept w).splitD = s.splitD := rfl
@[simp] theorem State.accept_packedLen (s : State) (w : Word) : (s.accept w).packedLen = s.packedLen := rfl
@[simp] theorem State.accept_expectedLen (s : State) (w : Word) : (s.accept w).expectedLen = s.expectedLen := rfl
@[simp] theorem State.accept_outCount (s : State) (w : Word) : (s.accept w).outCount = s.outCount := rfl
@[simp] theorem State.accept_cursor (s : State) (w : Word) : (s.accept w).cursor = s.cursor := rfl
@[simp] theorem State.accept_bitmask (s : State) (w : Word) : (s.accept w).bitmask = s.bitmask := rfl
@[simp] theorem State.accept_nodeCount (s : State) (w : Word) : (s.accept w).nodeCount = s.nodeCount := rfl
@[simp] theorem State.accept_freq (s : State) (w : Word) : (s.accept w).freq = s.freq := rfl
@[simp] theorem State.accept_symOf (s : State) (w : Word) : (s.accept w).symOf = s.symOf := rfl
@[simp] theorem State.accept_rankOf (s : State) (w : Word) : (s.accept w).rankOf = s.rankOf := rfl
@[simp] theorem State.accept_clen (s : State) (w : Word) : (s.accept w).clen = s.clen := rfl
@[simp] theorem State.accept_cbits (s : State) (w : Word) : (s.accept w).cbits = s.cbits := rfl
@[simp] theorem State.accept_nodes (s : State) (w : Word) : (s.accept w).nodes = s.nodes := rfl
@[simp] theorem State.accept_pbuf (s : State) (w : Word) : (s.accept w).pbuf = s.pbuf := rfl
@[simp] theorem State.accept_obuf (s : State) (w : Word) : (s.accept w).obuf = s.obuf := rfl
@[simp] theorem State.accept_turns (s : State) (w : Word) : (s.accept w).turns = s.turns := rfl
@[simp] theorem State.accept_readData (s : State) (w : Word) : (s.accept w).readData = s.readData := rfl
@[simp] theorem State.accept_draws (s : State) (w : Word) : (s.accept w).draws = s.draws := rfl

/-! ### State.complete -/

@[simp] theorem State.complete_config (s : State) : s.complete.config = s.config := rfl
@[simp] theorem State.complete_cmd (s : State) : s.complete.cmd = s.cmd := rfl
@[simp] theorem State.complete_status (s : State) : s.complete.status = s.status.completed := rfl
@[simp] theorem State.complete_err (s : State) : s.complete.err = s.err := rfl
@[simp] theorem State.complete_errInfo (s : State) : s.complete.errInfo = s.errInfo := rfl
@[simp] theorem State.complete_nnz (s : State) : s.complete.nnz = s.nnz := rfl
@[simp] theorem State.complete_lastNz (s : State) : s.complete.lastNz = s.lastNz := rfl
@[simp] theorem State.complete_splitD (s : State) : s.complete.splitD = s.splitD := rfl
@[simp] theorem State.complete_packedLen (s : State) : s.complete.packedLen = s.packedLen := rfl
@[simp] theorem State.complete_expectedLen (s : State) : s.complete.expectedLen = s.expectedLen := rfl
@[simp] theorem State.complete_outCount (s : State) : s.complete.outCount = s.outCount := rfl
@[simp] theorem State.complete_cursor (s : State) : s.complete.cursor = s.cursor := rfl
@[simp] theorem State.complete_bitmask (s : State) : s.complete.bitmask = s.bitmask := rfl
@[simp] theorem State.complete_nodeCount (s : State) : s.complete.nodeCount = s.nodeCount := rfl
@[simp] theorem State.complete_freq (s : State) : s.complete.freq = s.freq := rfl
@[simp] theorem State.complete_symOf (s : State) : s.complete.symOf = s.symOf := rfl
@[simp] theorem State.complete_rankOf (s : State) : s.complete.rankOf = s.rankOf := rfl
@[simp] theorem State.complete_clen (s : State) : s.complete.clen = s.clen := rfl
@[simp] theorem State.complete_cbits (s : State) : s.complete.cbits = s.cbits := rfl
@[simp] theorem State.complete_nodes (s : State) : s.complete.nodes = s.nodes := rfl
@[simp] theorem State.complete_pbuf (s : State) : s.complete.pbuf = s.pbuf := rfl
@[simp] theorem State.complete_obuf (s : State) : s.complete.obuf = s.obuf := rfl
@[simp] theorem State.complete_turns (s : State) : s.complete.turns = s.turns := rfl
@[simp] theorem State.complete_readData (s : State) : s.complete.readData = s.readData := rfl
@[simp] theorem State.complete_draws (s : State) : s.complete.draws = s.draws := rfl

/-! ### State.raise -/

@[simp] theorem State.raise_config (s : State) (f : FaultReport) : (s.raise f).config = s.config := rfl
@[simp] theorem State.raise_cmd (s : State) (f : FaultReport) : (s.raise f).cmd = s.cmd := rfl
@[simp] theorem State.raise_status (s : State) (f : FaultReport) : (s.raise f).status = s.status.faulted := rfl
@[simp] theorem State.raise_err (s : State) (f : FaultReport) : (s.raise f).err = f.cause.errWord := rfl
@[simp] theorem State.raise_errInfo (s : State) (f : FaultReport) : (s.raise f).errInfo = f.info := rfl
@[simp] theorem State.raise_nnz (s : State) (f : FaultReport) : (s.raise f).nnz = s.nnz := rfl
@[simp] theorem State.raise_lastNz (s : State) (f : FaultReport) : (s.raise f).lastNz = s.lastNz := rfl
@[simp] theorem State.raise_splitD (s : State) (f : FaultReport) : (s.raise f).splitD = s.splitD := rfl
@[simp] theorem State.raise_packedLen (s : State) (f : FaultReport) : (s.raise f).packedLen = s.packedLen := rfl
@[simp] theorem State.raise_expectedLen (s : State) (f : FaultReport) : (s.raise f).expectedLen = s.expectedLen := rfl
@[simp] theorem State.raise_outCount (s : State) (f : FaultReport) : (s.raise f).outCount = s.outCount := rfl
@[simp] theorem State.raise_cursor (s : State) (f : FaultReport) : (s.raise f).cursor = s.cursor := rfl
@[simp] theorem State.raise_bitmask (s : State) (f : FaultReport) : (s.raise f).bitmask = s.bitmask := rfl
@[simp] theorem State.raise_nodeCount (s : State) (f : FaultReport) : (s.raise f).nodeCount = 0 := rfl
@[simp] theorem State.raise_freq (s : State) (f : FaultReport) : (s.raise f).freq = s.freq := rfl
@[simp] theorem State.raise_symOf (s : State) (f : FaultReport) : (s.raise f).symOf = s.symOf := rfl
@[simp] theorem State.raise_rankOf (s : State) (f : FaultReport) : (s.raise f).rankOf = s.rankOf := rfl
@[simp] theorem State.raise_clen (s : State) (f : FaultReport) : (s.raise f).clen = s.clen := rfl
@[simp] theorem State.raise_cbits (s : State) (f : FaultReport) : (s.raise f).cbits = s.cbits := rfl
@[simp] theorem State.raise_nodes (s : State) (f : FaultReport) : (s.raise f).nodes = [] := rfl
@[simp] theorem State.raise_pbuf (s : State) (f : FaultReport) : (s.raise f).pbuf = s.pbuf := rfl
@[simp] theorem State.raise_obuf (s : State) (f : FaultReport) : (s.raise f).obuf = [] := rfl
@[simp] theorem State.raise_turns (s : State) (f : FaultReport) : (s.raise f).turns = s.turns := rfl
@[simp] theorem State.raise_readData (s : State) (f : FaultReport) : (s.raise f).readData = s.readData := rfl
@[simp] theorem State.raise_draws (s : State) (f : FaultReport) : (s.raise f).draws = s.draws := rfl

/-! ### State.storeNodes -/

@[simp] theorem State.storeNodes_config (s : State) (ns : List Node) : (s.storeNodes ns).config = s.config := rfl
@[simp] theorem State.storeNodes_cmd (s : State) (ns : List Node) : (s.storeNodes ns).cmd = s.cmd := rfl
@[simp] theorem State.storeNodes_status (s : State) (ns : List Node) : (s.storeNodes ns).status = s.status := rfl
@[simp] theorem State.storeNodes_err (s : State) (ns : List Node) : (s.storeNodes ns).err = s.err := rfl
@[simp] theorem State.storeNodes_errInfo (s : State) (ns : List Node) : (s.storeNodes ns).errInfo = s.errInfo := rfl
@[simp] theorem State.storeNodes_nnz (s : State) (ns : List Node) : (s.storeNodes ns).nnz = s.nnz := rfl
@[simp] theorem State.storeNodes_lastNz (s : State) (ns : List Node) : (s.storeNodes ns).lastNz = s.lastNz := rfl
@[simp] theorem State.storeNodes_splitD (s : State) (ns : List Node) : (s.storeNodes ns).splitD = s.splitD := rfl
@[simp] theorem State.storeNodes_packedLen (s : State) (ns : List Node) : (s.storeNodes ns).packedLen = s.packedLen := rfl
@[simp] theorem State.storeNodes_expectedLen (s : State) (ns : List Node) : (s.storeNodes ns).expectedLen = s.expectedLen := rfl
@[simp] theorem State.storeNodes_outCount (s : State) (ns : List Node) : (s.storeNodes ns).outCount = s.outCount := rfl
@[simp] theorem State.storeNodes_cursor (s : State) (ns : List Node) : (s.storeNodes ns).cursor = s.cursor := rfl
@[simp] theorem State.storeNodes_bitmask (s : State) (ns : List Node) : (s.storeNodes ns).bitmask = s.bitmask := rfl
@[simp] theorem State.storeNodes_nodeCount (s : State) (ns : List Node) : (s.storeNodes ns).nodeCount = BitVec.ofNat 17 ns.length := rfl
@[simp] theorem State.storeNodes_freq (s : State) (ns : List Node) : (s.storeNodes ns).freq = s.freq := rfl
@[simp] theorem State.storeNodes_symOf (s : State) (ns : List Node) : (s.storeNodes ns).symOf = s.symOf := rfl
@[simp] theorem State.storeNodes_rankOf (s : State) (ns : List Node) : (s.storeNodes ns).rankOf = s.rankOf := rfl
@[simp] theorem State.storeNodes_clen (s : State) (ns : List Node) : (s.storeNodes ns).clen = s.clen := rfl
@[simp] theorem State.storeNodes_cbits (s : State) (ns : List Node) : (s.storeNodes ns).cbits = s.cbits := rfl
@[simp] theorem State.storeNodes_nodes (s : State) (ns : List Node) : (s.storeNodes ns).nodes = ns := rfl
@[simp] theorem State.storeNodes_pbuf (s : State) (ns : List Node) : (s.storeNodes ns).pbuf = s.pbuf := rfl
@[simp] theorem State.storeNodes_obuf (s : State) (ns : List Node) : (s.storeNodes ns).obuf = s.obuf := rfl
@[simp] theorem State.storeNodes_turns (s : State) (ns : List Node) : (s.storeNodes ns).turns = s.turns := rfl
@[simp] theorem State.storeNodes_readData (s : State) (ns : List Node) : (s.storeNodes ns).readData = s.readData := rfl
@[simp] theorem State.storeNodes_draws (s : State) (ns : List Node) : (s.storeNodes ns).draws = s.draws := rfl

/-! ### State.setTrieValid -/

@[simp] theorem State.setTrieValid_config (s : State) (b : Bool) : (s.setTrieValid b).config = s.config := rfl
@[simp] theorem State.setTrieValid_cmd (s : State) (b : Bool) : (s.setTrieValid b).cmd = s.cmd := rfl
@[simp] theorem State.setTrieValid_status (s : State) (b : Bool) : (s.setTrieValid b).status = { s.status with trieValid := b } := rfl
@[simp] theorem State.setTrieValid_err (s : State) (b : Bool) : (s.setTrieValid b).err = s.err := rfl
@[simp] theorem State.setTrieValid_errInfo (s : State) (b : Bool) : (s.setTrieValid b).errInfo = s.errInfo := rfl
@[simp] theorem State.setTrieValid_nnz (s : State) (b : Bool) : (s.setTrieValid b).nnz = s.nnz := rfl
@[simp] theorem State.setTrieValid_lastNz (s : State) (b : Bool) : (s.setTrieValid b).lastNz = s.lastNz := rfl
@[simp] theorem State.setTrieValid_splitD (s : State) (b : Bool) : (s.setTrieValid b).splitD = s.splitD := rfl
@[simp] theorem State.setTrieValid_packedLen (s : State) (b : Bool) : (s.setTrieValid b).packedLen = s.packedLen := rfl
@[simp] theorem State.setTrieValid_expectedLen (s : State) (b : Bool) : (s.setTrieValid b).expectedLen = s.expectedLen := rfl
@[simp] theorem State.setTrieValid_outCount (s : State) (b : Bool) : (s.setTrieValid b).outCount = s.outCount := rfl
@[simp] theorem State.setTrieValid_cursor (s : State) (b : Bool) : (s.setTrieValid b).cursor = s.cursor := rfl
@[simp] theorem State.setTrieValid_bitmask (s : State) (b : Bool) : (s.setTrieValid b).bitmask = s.bitmask := rfl
@[simp] theorem State.setTrieValid_nodeCount (s : State) (b : Bool) : (s.setTrieValid b).nodeCount = s.nodeCount := rfl
@[simp] theorem State.setTrieValid_freq (s : State) (b : Bool) : (s.setTrieValid b).freq = s.freq := rfl
@[simp] theorem State.setTrieValid_symOf (s : State) (b : Bool) : (s.setTrieValid b).symOf = s.symOf := rfl
@[simp] theorem State.setTrieValid_rankOf (s : State) (b : Bool) : (s.setTrieValid b).rankOf = s.rankOf := rfl
@[simp] theorem State.setTrieValid_clen (s : State) (b : Bool) : (s.setTrieValid b).clen = s.clen := rfl
@[simp] theorem State.setTrieValid_cbits (s : State) (b : Bool) : (s.setTrieValid b).cbits = s.cbits := rfl
@[simp] theorem State.setTrieValid_nodes (s : State) (b : Bool) : (s.setTrieValid b).nodes = s.nodes := rfl
@[simp] theorem State.setTrieValid_pbuf (s : State) (b : Bool) : (s.setTrieValid b).pbuf = s.pbuf := rfl
@[simp] theorem State.setTrieValid_obuf (s : State) (b : Bool) : (s.setTrieValid b).obuf = s.obuf := rfl
@[simp] theorem State.setTrieValid_turns (s : State) (b : Bool) : (s.setTrieValid b).turns = s.turns := rfl
@[simp] theorem State.setTrieValid_readData (s : State) (b : Bool) : (s.setTrieValid b).readData = s.readData := rfl
@[simp] theorem State.setTrieValid_draws (s : State) (b : Bool) : (s.setTrieValid b).draws = s.draws := rfl

/-! ### State.releaseNodes -/

@[simp] theorem State.releaseNodes_config (s : State) : s.releaseNodes.config = s.config := rfl
@[simp] theorem State.releaseNodes_cmd (s : State) : s.releaseNodes.cmd = s.cmd := rfl
@[simp] theorem State.releaseNodes_status (s : State) : s.releaseNodes.status = s.status := rfl
@[simp] theorem State.releaseNodes_err (s : State) : s.releaseNodes.err = s.err := rfl
@[simp] theorem State.releaseNodes_errInfo (s : State) : s.releaseNodes.errInfo = s.errInfo := rfl
@[simp] theorem State.releaseNodes_nnz (s : State) : s.releaseNodes.nnz = s.nnz := rfl
@[simp] theorem State.releaseNodes_lastNz (s : State) : s.releaseNodes.lastNz = s.lastNz := rfl
@[simp] theorem State.releaseNodes_splitD (s : State) : s.releaseNodes.splitD = s.splitD := rfl
@[simp] theorem State.releaseNodes_packedLen (s : State) : s.releaseNodes.packedLen = s.packedLen := rfl
@[simp] theorem State.releaseNodes_expectedLen (s : State) : s.releaseNodes.expectedLen = s.expectedLen := rfl
@[simp] theorem State.releaseNodes_outCount (s : State) : s.releaseNodes.outCount = s.outCount := rfl
@[simp] theorem State.releaseNodes_cursor (s : State) : s.releaseNodes.cursor = s.cursor := rfl
@[simp] theorem State.releaseNodes_bitmask (s : State) : s.releaseNodes.bitmask = s.bitmask := rfl
@[simp] theorem State.releaseNodes_nodeCount (s : State) : s.releaseNodes.nodeCount = 0 := rfl
@[simp] theorem State.releaseNodes_freq (s : State) : s.releaseNodes.freq = s.freq := rfl
@[simp] theorem State.releaseNodes_symOf (s : State) : s.releaseNodes.symOf = s.symOf := rfl
@[simp] theorem State.releaseNodes_rankOf (s : State) : s.releaseNodes.rankOf = s.rankOf := rfl
@[simp] theorem State.releaseNodes_clen (s : State) : s.releaseNodes.clen = s.clen := rfl
@[simp] theorem State.releaseNodes_cbits (s : State) : s.releaseNodes.cbits = s.cbits := rfl
@[simp] theorem State.releaseNodes_nodes (s : State) : s.releaseNodes.nodes = [] := rfl
@[simp] theorem State.releaseNodes_pbuf (s : State) : s.releaseNodes.pbuf = s.pbuf := rfl
@[simp] theorem State.releaseNodes_obuf (s : State) : s.releaseNodes.obuf = s.obuf := rfl
@[simp] theorem State.releaseNodes_turns (s : State) : s.releaseNodes.turns = s.turns := rfl
@[simp] theorem State.releaseNodes_readData (s : State) : s.releaseNodes.readData = s.readData := rfl
@[simp] theorem State.releaseNodes_draws (s : State) : s.releaseNodes.draws = s.draws := rfl

/-! ### State.rankEffect -/

@[simp] theorem State.rankEffect_config (s : State) : s.rankEffect.config = s.config := rfl
@[simp] theorem State.rankEffect_cmd (s : State) : s.rankEffect.cmd = s.cmd := rfl
@[simp] theorem State.rankEffect_status (s : State) : s.rankEffect.status = { s.status with rankValid := true } := rfl
@[simp] theorem State.rankEffect_err (s : State) : s.rankEffect.err = s.err := rfl
@[simp] theorem State.rankEffect_errInfo (s : State) : s.rankEffect.errInfo = s.errInfo := rfl
@[simp] theorem State.rankEffect_nnz (s : State) : s.rankEffect.nnz = BitVec.ofNat 9 (countNonzero s.freq) := rfl
@[simp] theorem State.rankEffect_lastNz (s : State) : s.rankEffect.lastNz = BitVec.ofNat 8 (if 1 ≤ countNonzero s.freq then countNonzero s.freq - 1 else 0) := rfl
@[simp] theorem State.rankEffect_splitD (s : State) : s.rankEffect.splitD = s.splitD := rfl
@[simp] theorem State.rankEffect_packedLen (s : State) : s.rankEffect.packedLen = s.packedLen := rfl
@[simp] theorem State.rankEffect_expectedLen (s : State) : s.rankEffect.expectedLen = s.expectedLen := rfl
@[simp] theorem State.rankEffect_outCount (s : State) : s.rankEffect.outCount = s.outCount := rfl
@[simp] theorem State.rankEffect_cursor (s : State) : s.rankEffect.cursor = s.cursor := rfl
@[simp] theorem State.rankEffect_bitmask (s : State) : s.rankEffect.bitmask = s.bitmask := rfl
@[simp] theorem State.rankEffect_nodeCount (s : State) : s.rankEffect.nodeCount = s.nodeCount := rfl
@[simp] theorem State.rankEffect_freq (s : State) : s.rankEffect.freq = s.freq := rfl
@[simp] theorem State.rankEffect_symOf (s : State) : s.rankEffect.symOf = symOfTable s.freq := rfl
@[simp] theorem State.rankEffect_rankOf (s : State) : s.rankEffect.rankOf = rankOfTable s.freq := rfl
@[simp] theorem State.rankEffect_clen (s : State) : s.rankEffect.clen = s.clen := rfl
@[simp] theorem State.rankEffect_cbits (s : State) : s.rankEffect.cbits = s.cbits := rfl
@[simp] theorem State.rankEffect_nodes (s : State) : s.rankEffect.nodes = s.nodes := rfl
@[simp] theorem State.rankEffect_pbuf (s : State) : s.rankEffect.pbuf = s.pbuf := rfl
@[simp] theorem State.rankEffect_obuf (s : State) : s.rankEffect.obuf = s.obuf := rfl
@[simp] theorem State.rankEffect_turns (s : State) : s.rankEffect.turns = s.turns := rfl
@[simp] theorem State.rankEffect_readData (s : State) : s.rankEffect.readData = s.readData := rfl
@[simp] theorem State.rankEffect_draws (s : State) : s.rankEffect.draws = s.draws := rfl

/-! ### State.partEffect -/

@[simp] theorem State.partEffect_config (s : State) : s.partEffect.config = s.config := rfl
@[simp] theorem State.partEffect_cmd (s : State) : s.partEffect.cmd = s.cmd := rfl
@[simp] theorem State.partEffect_status (s : State) : s.partEffect.status = s.status := rfl
@[simp] theorem State.partEffect_err (s : State) : s.partEffect.err = s.err := rfl
@[simp] theorem State.partEffect_errInfo (s : State) : s.partEffect.errInfo = s.errInfo := rfl
@[simp] theorem State.partEffect_nnz (s : State) : s.partEffect.nnz = s.nnz := rfl
@[simp] theorem State.partEffect_lastNz (s : State) : s.partEffect.lastNz = s.lastNz := rfl
@[simp] theorem State.partEffect_splitD (s : State) : s.partEffect.splitD = s.splitD := rfl
@[simp] theorem State.partEffect_packedLen (s : State) : s.partEffect.packedLen = s.packedLen := rfl
@[simp] theorem State.partEffect_expectedLen (s : State) : s.partEffect.expectedLen = s.expectedLen := rfl
@[simp] theorem State.partEffect_outCount (s : State) : s.partEffect.outCount = s.outCount := rfl
@[simp] theorem State.partEffect_cursor (s : State) : s.partEffect.cursor = s.cursor := rfl
@[simp] theorem State.partEffect_bitmask (s : State) : s.partEffect.bitmask = s.bitmask := rfl
@[simp] theorem State.partEffect_nodeCount (s : State) : s.partEffect.nodeCount = s.nodeCount := rfl
@[simp] theorem State.partEffect_freq (s : State) : s.partEffect.freq = s.freq := rfl
@[simp] theorem State.partEffect_symOf (s : State) : s.partEffect.symOf = s.symOf := rfl
@[simp] theorem State.partEffect_rankOf (s : State) : s.partEffect.rankOf = s.rankOf := rfl
@[simp] theorem State.partEffect_clen (s : State) : s.partEffect.clen = (partition (rankFreq s.freq s.symOf) s.symOf s.nnz.toNat).clen := rfl
@[simp] theorem State.partEffect_cbits (s : State) : s.partEffect.cbits = (partition (rankFreq s.freq s.symOf) s.symOf s.nnz.toNat).cbits := rfl
@[simp] theorem State.partEffect_nodes (s : State) : s.partEffect.nodes = s.nodes := rfl
@[simp] theorem State.partEffect_pbuf (s : State) : s.partEffect.pbuf = s.pbuf := rfl
@[simp] theorem State.partEffect_obuf (s : State) : s.partEffect.obuf = s.obuf := rfl
@[simp] theorem State.partEffect_turns (s : State) : s.partEffect.turns = s.turns := rfl
@[simp] theorem State.partEffect_readData (s : State) : s.partEffect.readData = s.readData := rfl
@[simp] theorem State.partEffect_draws (s : State) : s.partEffect.draws = s.draws := rfl

/-! ### State.withWalk -/

@[simp] theorem State.withWalk_config (s : State) (k : Walk) : (s.withWalk k).config = s.config := rfl
@[simp] theorem State.withWalk_cmd (s : State) (k : Walk) : (s.withWalk k).cmd = s.cmd := rfl
@[simp] theorem State.withWalk_status (s : State) (k : Walk) : (s.withWalk k).status = s.status := rfl
@[simp] theorem State.withWalk_err (s : State) (k : Walk) : (s.withWalk k).err = s.err := rfl
@[simp] theorem State.withWalk_errInfo (s : State) (k : Walk) : (s.withWalk k).errInfo = s.errInfo := rfl
@[simp] theorem State.withWalk_nnz (s : State) (k : Walk) : (s.withWalk k).nnz = s.nnz := rfl
@[simp] theorem State.withWalk_lastNz (s : State) (k : Walk) : (s.withWalk k).lastNz = s.lastNz := rfl
@[simp] theorem State.withWalk_splitD (s : State) (k : Walk) : (s.withWalk k).splitD = s.splitD := rfl
@[simp] theorem State.withWalk_packedLen (s : State) (k : Walk) : (s.withWalk k).packedLen = s.packedLen := rfl
@[simp] theorem State.withWalk_expectedLen (s : State) (k : Walk) : (s.withWalk k).expectedLen = s.expectedLen := rfl
@[simp] theorem State.withWalk_outCount (s : State) (k : Walk) : (s.withWalk k).outCount = k.outCount := rfl
@[simp] theorem State.withWalk_cursor (s : State) (k : Walk) : (s.withWalk k).cursor = k.cursor := rfl
@[simp] theorem State.withWalk_bitmask (s : State) (k : Walk) : (s.withWalk k).bitmask = k.bitmask := rfl
@[simp] theorem State.withWalk_nodeCount (s : State) (k : Walk) : (s.withWalk k).nodeCount = s.nodeCount := rfl
@[simp] theorem State.withWalk_freq (s : State) (k : Walk) : (s.withWalk k).freq = s.freq := rfl
@[simp] theorem State.withWalk_symOf (s : State) (k : Walk) : (s.withWalk k).symOf = s.symOf := rfl
@[simp] theorem State.withWalk_rankOf (s : State) (k : Walk) : (s.withWalk k).rankOf = s.rankOf := rfl
@[simp] theorem State.withWalk_clen (s : State) (k : Walk) : (s.withWalk k).clen = s.clen := rfl
@[simp] theorem State.withWalk_cbits (s : State) (k : Walk) : (s.withWalk k).cbits = s.cbits := rfl
@[simp] theorem State.withWalk_nodes (s : State) (k : Walk) : (s.withWalk k).nodes = s.nodes := rfl
@[simp] theorem State.withWalk_pbuf (s : State) (k : Walk) : (s.withWalk k).pbuf = s.pbuf := rfl
@[simp] theorem State.withWalk_obuf (s : State) (k : Walk) : (s.withWalk k).obuf = k.obuf := rfl
@[simp] theorem State.withWalk_turns (s : State) (k : Walk) : (s.withWalk k).turns = s.turns := rfl
@[simp] theorem State.withWalk_readData (s : State) (k : Walk) : (s.withWalk k).readData = s.readData := rfl
@[simp] theorem State.withWalk_draws (s : State) (k : Walk) : (s.withWalk k).draws = k.draws := rfl

/-! ### State.performRead -/

@[simp] theorem State.performRead_config (s : State) (addr : BitVec 28) : (s.performRead addr).config = s.config := rfl
@[simp] theorem State.performRead_cmd (s : State) (addr : BitVec 28) : (s.performRead addr).cmd = s.cmd := rfl
@[simp] theorem State.performRead_status (s : State) (addr : BitVec 28) : (s.performRead addr).status = s.status := rfl
@[simp] theorem State.performRead_err (s : State) (addr : BitVec 28) : (s.performRead addr).err = s.err := rfl
@[simp] theorem State.performRead_errInfo (s : State) (addr : BitVec 28) : (s.performRead addr).errInfo = s.errInfo := rfl
@[simp] theorem State.performRead_nnz (s : State) (addr : BitVec 28) : (s.performRead addr).nnz = s.nnz := rfl
@[simp] theorem State.performRead_lastNz (s : State) (addr : BitVec 28) : (s.performRead addr).lastNz = s.lastNz := rfl
@[simp] theorem State.performRead_splitD (s : State) (addr : BitVec 28) : (s.performRead addr).splitD = s.splitD := rfl
@[simp] theorem State.performRead_packedLen (s : State) (addr : BitVec 28) : (s.performRead addr).packedLen = s.packedLen := rfl
@[simp] theorem State.performRead_expectedLen (s : State) (addr : BitVec 28) : (s.performRead addr).expectedLen = s.expectedLen := rfl
@[simp] theorem State.performRead_outCount (s : State) (addr : BitVec 28) : (s.performRead addr).outCount = s.outCount := rfl
@[simp] theorem State.performRead_cursor (s : State) (addr : BitVec 28) : (s.performRead addr).cursor = s.cursor := rfl
@[simp] theorem State.performRead_bitmask (s : State) (addr : BitVec 28) : (s.performRead addr).bitmask = s.bitmask := rfl
@[simp] theorem State.performRead_nodeCount (s : State) (addr : BitVec 28) : (s.performRead addr).nodeCount = s.nodeCount := rfl
@[simp] theorem State.performRead_freq (s : State) (addr : BitVec 28) : (s.performRead addr).freq = s.freq := rfl
@[simp] theorem State.performRead_symOf (s : State) (addr : BitVec 28) : (s.performRead addr).symOf = s.symOf := rfl
@[simp] theorem State.performRead_rankOf (s : State) (addr : BitVec 28) : (s.performRead addr).rankOf = s.rankOf := rfl
@[simp] theorem State.performRead_clen (s : State) (addr : BitVec 28) : (s.performRead addr).clen = s.clen := rfl
@[simp] theorem State.performRead_cbits (s : State) (addr : BitVec 28) : (s.performRead addr).cbits = s.cbits := rfl
@[simp] theorem State.performRead_nodes (s : State) (addr : BitVec 28) : (s.performRead addr).nodes = s.nodes := rfl
@[simp] theorem State.performRead_pbuf (s : State) (addr : BitVec 28) : (s.performRead addr).pbuf = s.pbuf := rfl
@[simp] theorem State.performRead_obuf (s : State) (addr : BitVec 28) : (s.performRead addr).obuf = s.obuf := rfl
@[simp] theorem State.performRead_turns (s : State) (addr : BitVec 28) : (s.performRead addr).turns = s.turns := rfl
@[simp] theorem State.performRead_readData (s : State) (addr : BitVec 28) : (s.performRead addr).readData = some (s.hostRead addr).1 := rfl
@[simp] theorem State.performRead_draws (s : State) (addr : BitVec 28) : (s.performRead addr).draws = (s.hostRead addr).2 := rfl

/-! ### State.hardReset -/

@[simp] theorem State.hardReset_config (s : State) : s.hardReset.config = s.config := rfl
@[simp] theorem State.hardReset_cmd (s : State) : s.hardReset.cmd = State.reset.cmd := rfl
@[simp] theorem State.hardReset_status (s : State) : s.hardReset.status = State.reset.status := rfl
@[simp] theorem State.hardReset_err (s : State) : s.hardReset.err = State.reset.err := rfl
@[simp] theorem State.hardReset_errInfo (s : State) : s.hardReset.errInfo = State.reset.errInfo := rfl
@[simp] theorem State.hardReset_nnz (s : State) : s.hardReset.nnz = State.reset.nnz := rfl
@[simp] theorem State.hardReset_lastNz (s : State) : s.hardReset.lastNz = State.reset.lastNz := rfl
@[simp] theorem State.hardReset_splitD (s : State) : s.hardReset.splitD = State.reset.splitD := rfl
@[simp] theorem State.hardReset_packedLen (s : State) : s.hardReset.packedLen = State.reset.packedLen := rfl
@[simp] theorem State.hardReset_expectedLen (s : State) : s.hardReset.expectedLen = State.reset.expectedLen := rfl
@[simp] theorem State.hardReset_outCount (s : State) : s.hardReset.outCount = State.reset.outCount := rfl
@[simp] theorem State.hardReset_cursor (s : State) : s.hardReset.cursor = State.reset.cursor := rfl
@[simp] theorem State.hardReset_bitmask (s : State) : s.hardReset.bitmask = State.reset.bitmask := rfl
@[simp] theorem State.hardReset_nodeCount (s : State) : s.hardReset.nodeCount = State.reset.nodeCount := rfl
@[simp] theorem State.hardReset_freq (s : State) : s.hardReset.freq = State.reset.freq := rfl
@[simp] theorem State.hardReset_symOf (s : State) : s.hardReset.symOf = State.reset.symOf := rfl
@[simp] theorem State.hardReset_rankOf (s : State) : s.hardReset.rankOf = State.reset.rankOf := rfl
@[simp] theorem State.hardReset_clen (s : State) : s.hardReset.clen = State.reset.clen := rfl
@[simp] theorem State.hardReset_cbits (s : State) : s.hardReset.cbits = State.reset.cbits := rfl
@[simp] theorem State.hardReset_nodes (s : State) : s.hardReset.nodes = State.reset.nodes := rfl
@[simp] theorem State.hardReset_pbuf (s : State) : s.hardReset.pbuf = State.reset.pbuf := rfl
@[simp] theorem State.hardReset_obuf (s : State) : s.hardReset.obuf = State.reset.obuf := rfl
@[simp] theorem State.hardReset_turns (s : State) : s.hardReset.turns = s.turns := rfl
@[simp] theorem State.hardReset_readData (s : State) : s.hardReset.readData = s.readData := rfl
@[simp] theorem State.hardReset_draws (s : State) : s.hardReset.draws = s.draws := rfl

/-! ### State.softReset -/

@[simp] theorem State.softReset_config (s : State) : s.softReset.config = s.config := rfl
@[simp] theorem State.softReset_cmd (s : State) : s.softReset.cmd = State.reset.cmd := rfl
@[simp] theorem State.softReset_status (s : State) : s.softReset.status = State.reset.status := rfl
@[simp] theorem State.softReset_err (s : State) : s.softReset.err = State.reset.err := rfl
@[simp] theorem State.softReset_errInfo (s : State) : s.softReset.errInfo = State.reset.errInfo := rfl
@[simp] theorem State.softReset_nnz (s : State) : s.softReset.nnz = State.reset.nnz := rfl
@[simp] theorem State.softReset_lastNz (s : State) : s.softReset.lastNz = State.reset.lastNz := rfl
@[simp] theorem State.softReset_splitD (s : State) : s.softReset.splitD = State.reset.splitD := rfl
@[simp] theorem State.softReset_packedLen (s : State) : s.softReset.packedLen = State.reset.packedLen := rfl
@[simp] theorem State.softReset_expectedLen (s : State) : s.softReset.expectedLen = State.reset.expectedLen := rfl
@[simp] theorem State.softReset_outCount (s : State) : s.softReset.outCount = State.reset.outCount := rfl
@[simp] theorem State.softReset_cursor (s : State) : s.softReset.cursor = State.reset.cursor := rfl
@[simp] theorem State.softReset_bitmask (s : State) : s.softReset.bitmask = State.reset.bitmask := rfl
@[simp] theorem State.softReset_nodeCount (s : State) : s.softReset.nodeCount = State.reset.nodeCount := rfl
@[simp] theorem State.softReset_freq (s : State) : s.softReset.freq = State.reset.freq := rfl
@[simp] theorem State.softReset_symOf (s : State) : s.softReset.symOf = State.reset.symOf := rfl
@[simp] theorem State.softReset_rankOf (s : State) : s.softReset.rankOf = State.reset.rankOf := rfl
@[simp] theorem State.softReset_clen (s : State) : s.softReset.clen = State.reset.clen := rfl
@[simp] theorem State.softReset_cbits (s : State) : s.softReset.cbits = State.reset.cbits := rfl
@[simp] theorem State.softReset_nodes (s : State) : s.softReset.nodes = State.reset.nodes := rfl
@[simp] theorem State.softReset_pbuf (s : State) : s.softReset.pbuf = s.pbuf := rfl
@[simp] theorem State.softReset_obuf (s : State) : s.softReset.obuf = State.reset.obuf := rfl
@[simp] theorem State.softReset_turns (s : State) : s.softReset.turns = s.turns := rfl
@[simp] theorem State.softReset_readData (s : State) : s.softReset.readData = s.readData := rfl
@[simp] theorem State.softReset_draws (s : State) : s.softReset.draws = s.draws := rfl

/-! ### State.startDecode -/

@[simp] theorem State.startDecode_config (s : State) : s.startDecode.config = s.config := rfl
@[simp] theorem State.startDecode_cmd (s : State) : s.startDecode.cmd = s.cmd := rfl
@[simp] theorem State.startDecode_status (s : State) : s.startDecode.status = s.status := rfl
@[simp] theorem State.startDecode_err (s : State) : s.startDecode.err = s.err := rfl
@[simp] theorem State.startDecode_errInfo (s : State) : s.startDecode.errInfo = s.errInfo := rfl
@[simp] theorem State.startDecode_nnz (s : State) : s.startDecode.nnz = s.nnz := rfl
@[simp] theorem State.startDecode_lastNz (s : State) : s.startDecode.lastNz = s.lastNz := rfl
@[simp] theorem State.startDecode_splitD (s : State) : s.startDecode.splitD = s.splitD := rfl
@[simp] theorem State.startDecode_packedLen (s : State) : s.startDecode.packedLen = s.packedLen := rfl
@[simp] theorem State.startDecode_expectedLen (s : State) : s.startDecode.expectedLen = s.expectedLen := rfl
@[simp] theorem State.startDecode_outCount (s : State) : s.startDecode.outCount = 0 := rfl
@[simp] theorem State.startDecode_cursor (s : State) : s.startDecode.cursor = 0 := rfl
@[simp] theorem State.startDecode_bitmask (s : State) : s.startDecode.bitmask = 0x80 := rfl
@[simp] theorem State.startDecode_nodeCount (s : State) : s.startDecode.nodeCount = s.nodeCount := rfl
@[simp] theorem State.startDecode_freq (s : State) : s.startDecode.freq = s.freq := rfl
@[simp] theorem State.startDecode_symOf (s : State) : s.startDecode.symOf = s.symOf := rfl
@[simp] theorem State.startDecode_rankOf (s : State) : s.startDecode.rankOf = s.rankOf := rfl
@[simp] theorem State.startDecode_clen (s : State) : s.startDecode.clen = s.clen := rfl
@[simp] theorem State.startDecode_cbits (s : State) : s.startDecode.cbits = s.cbits := rfl
@[simp] theorem State.startDecode_nodes (s : State) : s.startDecode.nodes = s.nodes := rfl
@[simp] theorem State.startDecode_pbuf (s : State) : s.startDecode.pbuf = s.pbuf := rfl
@[simp] theorem State.startDecode_obuf (s : State) : s.startDecode.obuf = s.obuf := rfl
@[simp] theorem State.startDecode_turns (s : State) : s.startDecode.turns = s.turns := rfl
@[simp] theorem State.startDecode_readData (s : State) : s.startDecode.readData = s.readData := rfl
@[simp] theorem State.startDecode_draws (s : State) : s.startDecode.draws = s.draws := rfl

end Sys2Proof.Machine
end

