-- ==== Sys2Proof/Laws/Exec.lean ====
section
/-! SUPPORT. What each meaning answers, by the case its checks decide: later proofs cite these and unfold no meaning. -/

namespace Sys2Proof.Machine

@[simp] theorem exec_nop (s : State) : exec .nop s = .next s.complete := rfl

@[simp] theorem exec_rank (s : State) : exec .rank s = .next s.rankEffect.complete := rfl

@[simp] theorem exec_assign (s : State) : exec .assign s = .next s.rankEffect.partEffect.complete := rfl

@[simp] theorem exec_tfree (s : State) : exec .tfree s = .next (s.releaseNodes.setTrieValid false).complete := rfl

theorem splittable_iff (s : State) (first last : Nat) :
    s.splittable first last = true ↔ first < last ∧ last < s.nnz.toNat := by
  simp [State.splittable]

theorem exec_split_stale {s : State} (h : s.status.rankValid = false) (first last : Nat) :
    exec (.split first last) s = .next (s.raise { cause := .seqRank, info := s.cmd }) := by
  simp [exec, execSplit, h]

theorem exec_split_operand {s : State} (h : s.status.rankValid = true) {first last : Nat}
    (h2 : ¬ (first < last ∧ last < s.nnz.toNat)) :
    exec (.split first last) s = .next (s.raise { cause := .operand, info := s.cmd }) := by
  have : s.splittable first last = false := by
    rw [← splittable_iff] at h2
    simpa using h2
  simp [exec, execSplit, h, this]

theorem exec_split_ok {s : State} (h : s.status.rankValid = true) {first last : Nat}
    (h1 : first < last) (h2 : last < s.nnz.toNat) :
    exec (.split first last) s = .next (State.complete
      { s with splitD := BitVec.ofNat 8 (bestDivision (rankFreq s.freq s.symOf) first last) }) := by
  have : s.splittable first last = true := (splittable_iff s first last).2 ⟨h1, h2⟩
  simp [exec, execSplit, h, this]

theorem exec_part_stale {s : State} (h : s.status.rankValid = false) :
    exec .part s = .next (s.raise { cause := .seqRank, info := s.cmd }) := by
  simp [exec, execPart, h]

theorem exec_part_ok {s : State} (h : s.status.rankValid = true) : exec .part s = .next s.partEffect.complete := by
  simp [exec, execPart, h]

theorem exec_tbuild_held {s : State} (h : s.status.trieValid = true) :
    exec .tbuild s = .next (s.raise { cause := .seqHeld, info := s.cmd }) := by
  simp [exec, execTbuild, h]

theorem exec_tbuild_fault {s : State} (h : s.status.trieValid = false) {f : FaultReport}
    (hb : buildTrie s.config.nodeMax s.code = .error f) : exec .tbuild s = .next (s.raise f) := by
  simp [exec, execTbuild, h, hb]

theorem exec_tbuild_ok {s : State} (h : s.status.trieValid = false) {ns : List Node}
    (hb : buildTrie s.config.nodeMax s.code = .ok ns) :
    exec .tbuild s = .next ((s.storeNodes ns).setTrieValid true).complete := by
  simp [exec, execTbuild, h, hb]

/-- The three ways the lengths are latched. -/
theorem latchLengths_cases (s : State) :
    (s.config.pbufSize < s.packedLen.toNat ∧ s.latchLengths = .error { cause := .pbuf, info := s.packedLen }) ∨
    (s.packedLen.toNat ≤ s.config.pbufSize ∧ s.config.obufSize < s.expectedLen.toNat ∧
      s.latchLengths = .error { cause := .obuf, info := s.expectedLen }) ∨
    (s.packedLen.toNat ≤ s.config.pbufSize ∧ s.expectedLen.toNat ≤ s.config.obufSize ∧
      s.latchLengths = .ok (s.packedLen, s.expectedLen)) := by
  unfold State.latchLengths
  by_cases h1 : s.config.pbufSize < s.packedLen.toNat
  · simp [h1]
  · by_cases h2 : s.config.obufSize < s.expectedLen.toNat
    · simp [h1, h2]; omega
    · simp [h1, h2]; omega

theorem latchLengths_ok {s : State} (h1 : s.packedLen.toNat ≤ s.config.pbufSize)
    (h2 : s.expectedLen.toNat ≤ s.config.obufSize) : s.latchLengths = .ok (s.packedLen, s.expectedLen) := by
  simp [State.latchLengths, Nat.not_lt.2 h1, Nat.not_lt.2 h2]

theorem exec_decode_noTrie {s : State} (h : s.status.trieValid = false) :
    exec .decode s = .next (s.raise { cause := .seqNoTrie, info := s.cmd }) := by
  simp [exec, execDecode, h]

theorem exec_decode_lengths {s : State} (h : s.status.trieValid = true) {f : FaultReport}
    (hl : s.latchLengths = .error f) : exec .decode s = .next (s.raise f) := by
  simp [exec, execDecode, h, hl]

theorem exec_decode_misfit {s : State} (h : s.status.trieValid = true) {pl el : Word}
    (hl : s.latchLengths = .ok (pl, el)) {k : Walk} {f : FaultReport} (hd : s.decodeBlock pl el = (k, some f)) :
    exec .decode s = .next ((s.withWalk k).raise f) := by
  simp [exec, execDecode, h, hl, hd]

theorem exec_decode_ok {s : State} (h : s.status.trieValid = true) {pl el : Word}
    (hl : s.latchLengths = .ok (pl, el)) {k : Walk} (hd : s.decodeBlock pl el = (k, none)) :
    exec .decode s = .next (s.withWalk k).complete := by
  simp [exec, execDecode, h, hl, hd]

theorem exec_blkdec_held {s : State} (h : s.status.trieValid = true) :
    exec .blkdec s = .next (s.raise { cause := .seqHeld, info := s.cmd }) := by
  simp [exec, execBlkdec, h]

theorem exec_blkdec_lengths {s : State} (h : s.status.trieValid = false) {f : FaultReport}
    (hl : s.latchLengths = .error f) : exec .blkdec s = .next (s.raise f) := by
  simp [exec, execBlkdec, h, hl]

theorem exec_blkdec_build {s : State} (h : s.status.trieValid = false) {p : Word × Word}
    (hl : s.latchLengths = .ok p) {f : FaultReport} (hb : buildTrie s.config.nodeMax s.code = .error f) :
    exec .blkdec s = .next (s.startDecode.raise f) := by
  simp [exec, execBlkdec, h, hl, hb]

theorem exec_blkdec_misfit {s : State} (h : s.status.trieValid = false) {pl el : Word}
    (hl : s.latchLengths = .ok (pl, el)) {ns : List Node} (hb : buildTrie s.config.nodeMax s.code = .ok ns)
    {k : Walk} {f : FaultReport} (hd : (s.storeNodes ns).decodeBlock pl el = (k, some f)) :
    exec .blkdec s = .next (((s.storeNodes ns).withWalk k).raise f) := by
  simp [exec, execBlkdec, h, hl, hb, hd]

theorem exec_blkdec_ok {s : State} (h : s.status.trieValid = false) {pl el : Word}
    (hl : s.latchLengths = .ok (pl, el)) {ns : List Node} (hb : buildTrie s.config.nodeMax s.code = .ok ns)
    {k : Walk} (hd : (s.storeNodes ns).decodeBlock pl el = (k, none)) :
    exec .blkdec s = .next (((s.storeNodes ns).withWalk k).releaseNodes).complete := by
  simp [exec, execBlkdec, h, hl, hb, hd]

/-! ### What one step can do -/

/-- An engine's turn: nothing, a command's meaning, or the fault of a word that is no command. -/
theorem engineTurn_cases (s : State) :
    (s.status.busy = false ∧ engineTurn s = .next s) ∨
    (s.status.busy = true ∧ ∃ i, decode s.cmd = .ok i ∧ engineTurn s = exec i s) ∨
    (s.status.busy = true ∧ ∃ e, decode s.cmd = .error e ∧
      engineTurn s = .next (s.raise { cause := wordErrorCause e, info := s.cmd })) := by
  unfold engineTurn runCommand
  cases hb : s.status.busy
  · simp
  · cases hd : decode s.cmd with
    | ok i => simp
    | error e => simp

/-- One step: whose turn it is, and what that turn does. -/
theorem step_cases (s : State) :
    (s.turns = [] ∧ step s = engineTurn s) ∨
    (∃ rest, s.turns = .engine :: rest ∧ step s = engineTurn { s with turns := rest }) ∨
    (∃ a rest, s.turns = .hostRead a :: rest ∧ step s = .next (State.performRead { s with turns := rest } a)) ∨
    (∃ a v rest, s.turns = .hostWrite a v :: rest ∧
      step s = .next (State.hostWrite { s with turns := rest } a v)) ∨
    (∃ rest, s.turns = .resetPin :: rest ∧ step s = .next (State.hardReset { s with turns := rest })) := by
  unfold step
  cases h : s.turns with
  | nil => simp
  | cons t rest => cases t <;> simp

end Sys2Proof.Machine
end

