-- ==== Sys2Proof/Laws/Table.lean ====
section
/-! SUPPORT. Laws of the 256-entry tables: what an entry reads after each way of making a table. -/

namespace Sys2Proof.Machine

theorem allBytes_length : allBytes.length = 256 := by simp [allBytes]

theorem allBytes_getElem (k : Nat) (h : k < allBytes.length) : allBytes[k] = BitVec.ofNat 8 k := by
  simp [allBytes]

theorem mem_allBytes (a : Byte) : a ∈ allBytes := by
  refine List.mem_map.2 ⟨a.toNat, List.mem_range.2 a.isLt, ?_⟩
  simp

theorem allBytes_nodup : allBytes.Nodup := by
  refine List.Nodup.map_on ?_ List.nodup_range
  intro x hx y hy h
  simpa [Nat.mod_eq_of_lt (List.mem_range.1 hx), Nat.mod_eq_of_lt (List.mem_range.1 hy)] using
    congrArg BitVec.toNat h

@[simp] theorem Table.at_ofFn {α : Type} (f : Byte → α) (i : Byte) : (Table.ofFn f).at i = f i := by
  simp [Table.at, Table.ofFn, allBytes]

@[simp] theorem Table.at_const {α : Type} (v : α) (i : Byte) : (Table.const v).at i = v := by
  simp [Table.at, Table.const]

@[simp] theorem Table.at_put_same {α : Type} (t : Table α) (i : Byte) (v : α) : (t.put i v).at i = v := by
  simp [Table.at, Table.put]

theorem Table.at_put_other {α : Type} (t : Table α) (i j : Byte) (v : α) (h : j ≠ i) :
    (t.put i v).at j = t.at j := by
  have : i.toNat ≠ j.toNat := fun e => h (BitVec.eq_of_toNat_eq e.symm)
  simp [Table.at, Table.put, this]

theorem Table.at_put {α : Type} (t : Table α) (i j : Byte) (v : α) :
    (t.put i v).at j = if j = i then v else t.at j := by
  split
  · next h => subst h; simp
  · next h => exact t.at_put_other i j v h

theorem Table.ext_at {α : Type} {t u : Table α} (h : ∀ i : Byte, t.at i = u.at i) : t = u := by
  apply Vector.ext
  intro k hk
  have := h (BitVec.ofNat 8 k)
  simpa [Table.at, Nat.mod_eq_of_lt hk] using this

/-- The entries of a table, in order, are its values at all bytes. -/
theorem Table.toList_eq {α : Type} (t : Table α) : t.toList = allBytes.map t.at := by
  apply List.ext_getElem
  · simp [allBytes]
  · intro k h1 h2
    have hk : k < 256 := by simpa using h1
    simp [allBytes, Table.at, Nat.mod_eq_of_lt hk]

end Sys2Proof.Machine
end

