-- ==== Sys2Proof/Laws/CodeAssign.lean ====
section
/-! SUPPORT. The code assignment engine (40_cae.md): the ranking is sorted, the scan of a split, the partition of an
interval, and the table a list of leaves makes. -/

namespace Sys2Proof.Machine

/-! ### The ranking (40_cae.md R101, R102) -/

theorem precedes_iff (a b : Word × Byte) :
    precedes a b = true ↔ b.1.toNat < a.1.toNat ∨ (a.1 = b.1 ∧ a.2.toNat < b.2.toNat) := by
  simp [precedes]

theorem before_iff_precedes (freq : Table Word) (a b : Byte) :
    Before freq a b ↔ precedes (freq.at a, a) (freq.at b, b) = true := by
  rw [precedes_iff]
  rfl

theorem before_trans {freq : Table Word} {a b c : Byte} (h1 : Before freq a b) (h2 : Before freq b c) :
    Before freq a c := by
  simp only [Before, BitVec.toNat_eq] at *
  omega

theorem before_total (freq : Table Word) {a b : Byte} (h : a ≠ b) : Before freq a b ∨ Before freq b a := by
  have : a.toNat ≠ b.toNat := fun e => h (BitVec.eq_of_toNat_eq e)
  simp only [Before, BitVec.toNat_eq]
  omega

theorem before_irrefl (freq : Table Word) (a : Byte) : ¬ Before freq a a := by
  simp only [Before]
  omega

theorem countedSymbols_eq (freq : Table Word) : countedSymbols freq = allBytes.map fun a => (freq.at a, a) := by
  rw [countedSymbols, Table.toList_eq]
  generalize allBytes = l
  induction l with
  | nil => rfl
  | cons a l ih => simp [ih]

theorem insertRanked_perm (x : Word × Byte) (l : List (Word × Byte)) : (insertRanked x l).Perm (x :: l) := by
  induction l with
  | nil => exact .refl _
  | cons y l ih =>
    simp only [insertRanked]
    split
    · exact .refl _
    · exact (ih.cons y).trans (.swap x y l)

theorem sortRanked_perm (l : List (Word × Byte)) : (sortRanked l).Perm l := by
  induction l with
  | nil => exact .refl _
  | cons x l ih => exact (insertRanked_perm x _).trans (ih.cons x)

/-- The pair of a symbol with its count. -/
def counted (freq : Table Word) (a : Byte) : Word × Byte := (freq.at a, a)

theorem insertRanked_map (freq : Table Word) (a : Byte) {l : List Byte} (ha : a ∉ l) (h : l.Pairwise (Before freq)) :
    ∃ l' : List Byte, insertRanked (counted freq a) (l.map (counted freq)) = l'.map (counted freq) ∧ l'.Pairwise (Before freq) ∧
      l'.Perm (a :: l) := by
  induction l with
  | nil => exact ⟨[a], rfl, by simp, .refl _⟩
  | cons b l ih =>
    obtain ⟨hb, hl⟩ := List.pairwise_cons.1 h
    simp only [List.map_cons, insertRanked]
    have hab : a ≠ b := fun e => ha (e ▸ List.mem_cons_self ..)
    split
    · next hp =>
      replace hp : Before freq a b := (before_iff_precedes freq a b).2 hp
      refine ⟨a :: b :: l, rfl, List.pairwise_cons.2 ⟨fun c hc => ?_, h⟩, .refl _⟩
      rcases List.mem_cons.1 hc with rfl | hc
      · exact hp
      · exact before_trans hp (hb c hc)
    · next hp =>
      have hba : Before freq b a :=
        (before_total freq hab).resolve_left fun x => hp ((before_iff_precedes freq a b).1 x)
      obtain ⟨l', e, h1, h2⟩ := ih (fun x => ha (List.mem_cons_of_mem _ x)) hl
      refine ⟨b :: l', by rw [e]; rfl, List.pairwise_cons.2 ⟨fun c hc => ?_, h1⟩, (h2.cons b).trans (.swap a b l)⟩
      rcases List.mem_cons.1 (h2.mem_iff.1 hc) with rfl | hc
      · exact hba
      · exact hb c hc

theorem sortRanked_map (freq : Table Word) {l : List Byte} (h : l.Nodup) :
    ∃ l' : List Byte, sortRanked (l.map (counted freq)) = l'.map (counted freq) ∧ l'.Pairwise (Before freq) ∧ l'.Perm l := by
  induction l with
  | nil => exact ⟨[], rfl, .nil, .refl _⟩
  | cons a l ih =>
    obtain ⟨ha, hl⟩ := List.nodup_cons.1 h
    obtain ⟨l', e, h1, h2⟩ := ih hl
    obtain ⟨l'', e', h1', h2'⟩ := insertRanked_map freq a (fun x => ha (h2.mem_iff.1 x)) h1
    exact ⟨l'', by rw [List.map_cons, sortRanked, e, e'], h1', h2'.trans (h2.cons a)⟩

/-- The list of the ranking: in the order `<<`, every symbol once (R101). -/
theorem rankList_sorted (freq : Table Word) : (rankList freq).Pairwise (Before freq) ∧ (rankList freq).Perm allBytes := by
  obtain ⟨l', e, h1, h2⟩ := sortRanked_map freq allBytes_nodup
  have : rankList freq = l' := by
    rw [rankList, countedSymbols_eq]
    change (sortRanked (allBytes.map (counted freq))).map Prod.snd = l'
    rw [e, List.map_map]
    simp [Function.comp_def, counted]
  rw [this]
  exact ⟨h1, h2⟩

theorem rankList_length (freq : Table Word) : (rankList freq).length = 256 :=
  (rankList_sorted freq).2.length_eq.trans allBytes_length

theorem rankList_nodup (freq : Table Word) : (rankList freq).Nodup :=
  (rankList_sorted freq).2.nodup_iff.2 allBytes_nodup

theorem symOfTable_at (freq : Table Word) (r : Byte) :
    (rankList freq)[r.toNat]? = some ((symOfTable freq).at r) := by
  have h : r.toNat < (rankList freq).length := by rw [rankList_length]; exact r.isLt
  simp [symOfTable, h]

theorem rankOfTable_at (freq : Table Word) (a : Byte) :
    ((rankOfTable freq).at a).toNat = (rankList freq).idxOf a := by
  have hm : a ∈ rankList freq := (rankList_sorted freq).2.mem_iff.2 (mem_allBytes a)
  have h := List.idxOf_lt_length_of_mem hm
  rw [rankList_length] at h
  simp only [rankOfTable, Table.at_ofFn, BitVec.toNat_ofNat]
  exact Nat.mod_eq_of_lt h

/-- The tables `rank` writes are a ranking (R101). -/
theorem isRanking_tables (freq : Table Word) : IsRanking freq (symOfTable freq) (rankOfTable freq) := by
  obtain ⟨hs, hp⟩ := rankList_sorted freq
  have hnd := rankList_nodup freq
  refine ⟨fun r r' h => ?_, fun r => ?_, fun a => ?_⟩
  · obtain ⟨h1, e1⟩ := List.getElem?_eq_some_iff.1 (symOfTable_at freq r)
    obtain ⟨h2, e2⟩ := List.getElem?_eq_some_iff.1 (symOfTable_at freq r')
    rw [← e1, ← e2]
    exact List.pairwise_iff_getElem.1 hs _ _ h1 h2 h
  · obtain ⟨h1, e1⟩ := List.getElem?_eq_some_iff.1 (symOfTable_at freq r)
    apply BitVec.eq_of_toNat_eq
    rw [rankOfTable_at, ← e1]
    exact hnd.idxOf_getElem _ h1
  · have hm : a ∈ rankList freq := hp.mem_iff.2 (mem_allBytes a)
    have h := List.idxOf_lt_length_of_mem hm
    have := symOfTable_at freq ((rankOfTable freq).at a)
    rw [rankOfTable_at, List.getElem?_eq_getElem h, List.getElem_idxOf h] at this
    exact (Option.some.inj this).symm

theorem countNonzero_eq (freq : Table Word) : countNonzero freq = (nonzeroSymbols freq).length := by
  have key : ∀ l : List Byte, (l.map freq.at).countP (fun f => decide (0 < f.toNat)) =
      (l.filter fun a => decide (freq.at a ≠ 0)).length := by
    intro l
    rw [List.countP_map, ← List.countP_eq_length_filter]
    congr 1
    funext a
    simp only [Function.comp_apply, decide_eq_decide, ne_eq, BitVec.toNat_eq]
    simp [Nat.pos_iff_ne_zero]
  rw [countNonzero, Table.toList_eq]
  exact key allBytes

theorem countNonzero_le (freq : Table Word) : countNonzero freq ≤ 256 := by
  rw [countNonzero_eq, ← allBytes_length]
  exact List.length_filter_le _ _

/-- In a list where the entries with a property come first, they are the first ones. -/
theorem countP_prefix {α : Type} (q : α → Bool) {l : List α} (h : l.Pairwise fun a b => q b = true → q a = true)
    {r : Nat} (hr : r < l.length) : q l[r] = true ↔ r < l.countP q := by
  induction l generalizing r with
  | nil => simp at hr
  | cons a l ih =>
    obtain ⟨ha, hl⟩ := List.pairwise_cons.1 h
    by_cases hq : q a = true
    · rw [List.countP_cons_of_pos hq]
      cases r with
      | zero => simp [hq]
      | succ r => simpa using ih hl (by simpa using hr)
    · have h0 : l.countP q = 0 := List.countP_eq_zero.2 fun b hb hqb => hq (ha b hb hqb)
      rw [List.countP_cons_of_neg hq, h0]
      cases r with
      | zero => simp [hq]
      | succ r =>
        simp only [List.getElem_cons_succ, Nat.not_lt_zero, iff_false]
        exact fun hqb => hq (ha _ (List.getElem_mem _) hqb)

/-- The non-zero counts hold exactly the ranks below their number (R102). -/
theorem symOfTable_nonzero (freq : Table Word) (r : Byte) :
    freq.at ((symOfTable freq).at r) ≠ 0 ↔ r.toNat < countNonzero freq := by
  obtain ⟨hs, hp⟩ := rankList_sorted freq
  obtain ⟨h1, e1⟩ := List.getElem?_eq_some_iff.1 (symOfTable_at freq r)
  have hc : (rankList freq).countP (fun a => decide (freq.at a ≠ 0)) = countNonzero freq := by
    rw [countNonzero_eq, nonzeroSymbols, ← List.countP_eq_length_filter, hp.countP_eq]
  have := countP_prefix (fun a => decide (freq.at a ≠ 0)) (l := rankList freq) (hs.imp fun {a b} hab hb => by
    simp only [decide_eq_true_eq, ne_eq, BitVec.toNat_eq] at hb ⊢
    simp only [Before, BitVec.toNat_eq] at hab
    have : (0 : Word).toNat = 0 := rfl
    omega) h1
  rw [e1, hc] at this
  simpa using this

/-! ### The scan of a split (40_cae.md R106, R107) -/

theorem intervalSum_succ (F : Nat → Nat) (r n : Nat) : intervalSum F r (n + 1) = intervalSum F r n + F (r + n) := by
  induction n generalizing r with
  | zero => simp [intervalSum]
  | succ n ih =>
    have h1 : intervalSum F r (n + 1 + 1) = F r + intervalSum F (r + 1) (n + 1) := rfl
    have h2 : intervalSum F r (n + 1) = F r + intervalSum F (r + 1) n := rfl
    rw [h1, ih (r + 1), h2, show r + 1 + n = r + (n + 1) by omega, Nat.add_assoc]

/-- The running sum after rank `r` of an interval that starts at `first`. -/
def sumTo (F : Nat → Nat) (first r : Nat) : Nat := intervalSum F first (r - first + 1)

theorem sumTo_succ (F : Nat → Nat) {first r : Nat} (h : first ≤ r) :
    sumTo F first (r + 1) = sumTo F first r + F (r + 1) := by
  rw [sumTo, show r + 1 - first + 1 = (r - first + 1) + 1 by omega, intervalSum_succ, sumTo]
  congr 2
  omega

theorem imbalanceAt_eq (F : Nat → Nat) (first last r : Nat) :
    imbalanceAt F first last r = imbalance (sumTo F first r) (sumTo F first last) := rfl

/-- The scan once a minimum is held: it takes ranks while the imbalance falls, and stops at the first that does not. -/
theorem scanSplit_some (F : Nat → Nat) (first last : Nat) (count r : Nat) (hr : first < r) (hl : r + count = last + 1) :
    let d := scanSplit F (sumTo F first last) count r (sumTo F first (r - 1)) (some (imbalanceAt F first last (r - 1)))
      (r - 1)
    r - 1 ≤ d ∧ d ≤ last ∧
    (∀ x, r - 1 ≤ x → x < d → imbalanceAt F first last (x + 1) < imbalanceAt F first last x) ∧
    (d < last → imbalanceAt F first last d ≤ imbalanceAt F first last (d + 1)) := by
  induction count generalizing r with
  | zero =>
    simp only [scanSplit]
    exact ⟨Nat.le_refl _, by omega, fun x h1 h2 => by omega, fun h => by omega⟩
  | succ count ih =>
    have hsum : sumTo F first (r - 1) + F r = sumTo F first r := by
      have := sumTo_succ F (first := first) (r := r - 1) (by omega)
      rw [show r - 1 + 1 = r by omega] at this
      exact this.symm
    simp only [scanSplit, hsum, ← imbalanceAt_eq, improves, decide_eq_true_eq]
    split
    · next himp =>
      obtain ⟨h1, h2, h3, h4⟩ := ih (r + 1) (by omega) (by omega)
      simp only [Nat.add_sub_cancel] at h1 h2 h3 h4
      refine ⟨by omega, h2, fun x hx hxd => ?_, h4⟩
      by_cases hxr : x = r - 1
      · subst hxr
        rw [show r - 1 + 1 = r by omega]
        exact himp
      · exact h3 x (by omega) hxd
    · next himp =>
      refine ⟨Nat.le_refl _, by omega, fun x h1 h2 => by omega, fun _ => ?_⟩
      rw [show r - 1 + 1 = r by omega]
      omega

/-- Where the scan of an interval ends: the imbalance falls up to it and not at the next rank. -/
theorem bestDivision_scan (F : Nat → Nat) {first last : Nat} (h : first ≤ last) :
    first ≤ bestDivision F first last ∧ bestDivision F first last ≤ last ∧
    (∀ x, first ≤ x → x < bestDivision F first last →
      imbalanceAt F first last (x + 1) < imbalanceAt F first last x) ∧
    (bestDivision F first last < last →
      imbalanceAt F first last (bestDivision F first last) ≤
        imbalanceAt F first last (bestDivision F first last + 1)) := by
  have h0 : sumTo F first first = 0 + F first := by simp [sumTo, intervalSum]
  have := scanSplit_some F first last (last - first) (first + 1) (by omega) (by omega)
  simp only [Nat.add_sub_cancel] at this
  have e : bestDivision F first last = scanSplit F (sumTo F first last) (last - first) (first + 1)
      (sumTo F first first) (some (imbalanceAt F first last first)) first := by
    simp only [bestDivision, scanSplit, improves, if_true]
    rw [← h0]
    rfl
  rw [e]
  exact this

theorem sumTo_strict (F : Nat → Nat) {first last : Nat} (hF : PositiveOn F first last) {r r' : Nat} (h1 : first ≤ r)
    (h2 : r < r') (h3 : r' ≤ last) : sumTo F first r < sumTo F first r' := by
  induction r' with
  | zero => omega
  | succ r' ih =>
    rw [sumTo_succ F (by omega)]
    have := hF (r' + 1) (by omega) h3
    by_cases e : r = r'
    · subst e; omega
    · have := ih (by omega) (by omega)
      omega

/-- Both halves of a split are non-empty (R107 (a)). -/
theorem bestDivision_lt (F : Nat → Nat) {first last : Nat} (h : first < last) (hF : PositiveOn F first last) :
    bestDivision F first last < last := by
  obtain ⟨h1, h2, h3, _⟩ := bestDivision_scan F (Nat.le_of_lt h)
  by_contra hc
  have e : bestDivision F first last = last := by omega
  have := h3 (last - 1) (by omega) (by omega)
  rw [show last - 1 + 1 = last by omega, imbalanceAt_eq, imbalanceAt_eq] at this
  have hs := sumTo_strict F hF (r := last - 1) (r' := last) (by omega) (by omega) (Nat.le_refl _)
  simp only [imbalance] at this
  split at this <;> split at this <;> omega

/-- Past the first rank that reaches half the total the imbalance rises, before it it falls. -/
theorem imbalanceAt_mono (F : Nat → Nat) {first last : Nat} (hF : PositiveOn F first last) {r r' : Nat}
    (h1 : first ≤ r) (h2 : r < r') (h3 : r' ≤ last) :
    (sumTo F first last ≤ 2 * sumTo F first r → imbalanceAt F first last r < imbalanceAt F first last r') ∧
    (2 * sumTo F first r' < sumTo F first last → imbalanceAt F first last r' < imbalanceAt F first last r) := by
  have hs := sumTo_strict F hF h1 h2 h3
  simp only [imbalanceAt_eq, imbalance]
  constructor <;> intro h <;> split <;> split <;> omega

/-! ### The partition of an interval (40_cae.md R111 to R113) -/

/-- The bound is not felt: more of it changes nothing. -/
theorem assignLeaves_bound (F : Nat → Nat) (bound : Nat) {first last : Nat} (h : first ≤ last)
    (hb : last - first ≤ bound) (hF : PositiveOn F first last) (p : List Bool) :
    assignLeaves F bound first last p = assignLeaves F (last - first) first last p := by
  induction bound using Nat.strongRecOn generalizing first last p with
  | ind bound ih =>
    by_cases hlt : first < last
    · obtain ⟨n, rfl⟩ : ∃ n, bound = n + 1 := ⟨bound - 1, by omega⟩
      obtain ⟨m, hm⟩ : ∃ m, last - first = m + 1 := ⟨last - first - 1, by omega⟩
      have hd1 := (bestDivision_scan F h).1
      have hd2 := bestDivision_lt F hlt hF
      have hFl : PositiveOn F first (bestDivision F first last) := fun r h1 h2 => hF r h1 (by omega)
      have hFr : PositiveOn F (bestDivision F first last + 1) last := fun r h1 h2 => hF r (by omega) h2
      rw [hm]
      simp only [assignLeaves, if_neg (Nat.not_le.2 hlt)]
      rw [ih n (by omega) hd1 (by omega) hFl, ih n (by omega) (by omega) (by omega) hFr]
      by_cases hmn : m = n
      · subst hmn
        rw [ih m (by omega) hd1 (by omega) hFl, ih m (by omega) (by omega) (by omega) hFr]
      · rw [ih m (by omega) hd1 (by omega) hFl, ih m (by omega) (by omega) (by omega) hFr]
    · have e : first = last := by omega
      subst e
      rw [Nat.sub_self]
      cases bound with
      | zero => rfl
      | succ n => simp [assignLeaves]

theorem assignLeaves_one (F : Nat → Nat) (bound first : Nat) (p : List Bool) :
    assignLeaves F bound first first p = [(first, p)] := by
  cases bound <;> simp [assignLeaves]

theorem assignLeaves_two (F : Nat → Nat) {first last : Nat} (h : first < last) (hF : PositiveOn F first last)
    (p : List Bool) :
    assignLeaves F (last - first) first last p =
      assignLeaves F (bestDivision F first last - first) first (bestDivision F first last) (p ++ [false]) ++
      assignLeaves F (last - (bestDivision F first last + 1)) (bestDivision F first last + 1) last (p ++ [true]) := by
  obtain ⟨m, hm⟩ : ∃ m, last - first = m + 1 := ⟨last - first - 1, by omega⟩
  have hd1 := (bestDivision_scan F (Nat.le_of_lt h)).1
  have hd2 := bestDivision_lt F h hF
  rw [hm]
  simp only [assignLeaves, if_neg (Nat.not_le.2 h)]
  rw [assignLeaves_bound F m hd1 (by omega) fun r h1 h2 => hF r h1 (by omega),
    assignLeaves_bound F m (by omega) (by omega) fun r h1 h2 => hF r (by omega) h2]

/-- Two codes that part at some bit, the first to the left. -/
def Parts (p q : List Bool) : Prop := ∃ c u v : List Bool, p = c ++ false :: u ∧ q = c ++ true :: v

theorem Parts.cons {p q : List Bool} (h : Parts p q) (b : Bool) : Parts (b :: p) (b :: q) := by
  obtain ⟨c, u, v, rfl, rfl⟩ := h
  exact ⟨b :: c, u, v, rfl, rfl⟩

theorem Parts.not_prefix {p q : List Bool} (h : Parts p q) : ¬ p <+: q ∧ ¬ q <+: p := by
  obtain ⟨c, u, v, rfl, rfl⟩ := h
  constructor <;> intro hp <;> rw [List.prefix_append_right_inj] at hp <;> simp at hp

theorem Parts.lex {p q : List Bool} (h : Parts p q) : List.Lex (fun x y => x = false ∧ y = true) p q := by
  obtain ⟨c, u, v, rfl, rfl⟩ := h
  induction c with
  | nil => exact List.Lex.rel ⟨rfl, rfl⟩
  | cons b c ih => exact List.Lex.cons ih

/-- The leaves of an interval: its ranks in order, the codes parted in that order, none longer than the interval is
wide, none empty where it has two ranks, and filling the tree. -/
theorem assignLeaves_spec (F : Nat → Nat) (n : Nat) {first last : Nat} (h : first ≤ last) (hn : last - first = n)
    (hF : PositiveOn F first last) :
    ∃ qs : List (Nat × List Bool),
      (∀ p, assignLeaves F (last - first) first last p = qs.map fun x => (x.1, p ++ x.2)) ∧
      qs.map Prod.fst = List.range' first (last - first + 1) ∧
      (∀ x ∈ qs, x.2.length ≤ last - first) ∧
      (first < last → ∀ x ∈ qs, x.2 ≠ []) ∧
      qs.Pairwise (fun x y => Parts x.2 y.2) ∧
      ∀ N, last - first ≤ N → (qs.map fun x => 2 ^ (N - x.2.length)).sum = 2 ^ N := by
  induction n using Nat.strongRecOn generalizing first last with
  | ind n ih =>
    by_cases hlt : first < last
    · have hd1 := (bestDivision_scan F h).1
      have hd2 := bestDivision_lt F hlt hF
      obtain ⟨ql, a1, a2, a3, a4, a5, a6⟩ := ih (bestDivision F first last - first) (by omega) hd1 rfl
        fun r h1 h2 => hF r h1 (by omega)
      obtain ⟨qr, b1, b2, b3, b4, b5, b6⟩ := ih (last - (bestDivision F first last + 1)) (by omega)
        (first := bestDivision F first last + 1) (by omega) rfl fun r h1 h2 => hF r (by omega) h2
      refine ⟨ql.map (fun x => (x.1, false :: x.2)) ++ qr.map (fun x => (x.1, true :: x.2)), ?_, ?_, ?_, ?_, ?_, ?_⟩
      · intro p
        rw [assignLeaves_two F hlt hF, a1, b1, List.map_append, List.map_map, List.map_map]
        simp [Function.comp_def]
      · rw [List.map_append, List.map_map, List.map_map]
        change ql.map Prod.fst ++ qr.map Prod.fst = _
        rw [a2, b2]
        have := List.range'_append (s := first) (m := bestDivision F first last - first + 1)
          (n := last - (bestDivision F first last + 1) + 1) (step := 1)
        rw [show first + 1 * (bestDivision F first last - first + 1) = bestDivision F first last + 1 by omega] at this
        rw [this]
        congr 1
        omega
      · intro x hx
        rcases List.mem_append.1 hx with hx | hx
        · obtain ⟨y, hy, rfl⟩ := List.mem_map.1 hx
          have := a3 y hy
          simp only [List.length_cons]
          omega
        · obtain ⟨y, hy, rfl⟩ := List.mem_map.1 hx
          have := b3 y hy
          simp only [List.length_cons]
          omega
      · intro _ x hx
        rcases List.mem_append.1 hx with hx | hx <;> obtain ⟨y, hy, rfl⟩ := List.mem_map.1 hx <;> simp
      · rw [List.pairwise_append]
        refine ⟨?_, ?_, ?_⟩
        · exact List.pairwise_map.2 (a5.imp fun h => h.cons false)
        · exact List.pairwise_map.2 (b5.imp fun h => h.cons true)
        · intro x hx y hy
          obtain ⟨x', _, rfl⟩ := List.mem_map.1 hx
          obtain ⟨y', _, rfl⟩ := List.mem_map.1 hy
          exact ⟨[], _, _, rfl, rfl⟩
      · intro N hN
        obtain ⟨M, rfl⟩ : ∃ M, N = M + 1 := ⟨N - 1, by omega⟩
        rw [List.map_append, List.sum_append, List.map_map, List.map_map]
        have e : ∀ qs : List (Nat × List Bool), ∀ b : Bool,
            (qs.map ((fun x : Nat × List Bool => 2 ^ (M + 1 - x.2.length)) ∘ fun x => (x.1, b :: x.2))).sum =
              (qs.map fun x => 2 ^ (M - x.2.length)).sum := by
          intro qs b
          simp [Function.comp_def]
        rw [e, e, a6 M (by omega), b6 M (by omega), Nat.pow_succ]
        omega
    · have e : first = last := by omega
      subst e
      refine ⟨[(first, [])], fun p => by simp [assignLeaves_one], by simp, by simp, fun h => absurd h hlt, by simp,
        fun N _ => by simp⟩

/-! ### The table a list of leaves makes (40_cae.md R109, R111) -/

theorem packBits_testBit (p : List Bool) (k : Nat) : (packBits p).testBit k = p.getD k false := by
  induction p generalizing k with
  | nil => simp [packBits]
  | cons b p ih =>
    have hb : b.toNat < 2 := by cases b <;> decide
    cases k with
    | zero =>
      simp only [packBits, Nat.testBit_zero]
      cases b <;> simp
    | succ k =>
      have e : (packBits (b :: p)) / 2 = packBits p := by
        simp only [packBits]
        omega
      rw [Nat.testBit_succ, e, ih]
      simp

/-- The code that `setCode` stores is read back. -/
theorem codeString_packed {p : List Bool} (h : p.length ≤ 255) :
    codeString (BitVec.ofNat 8 p.length) (BitVec.ofNat 256 (packBits p)) = p := by
  have hl : (BitVec.ofNat 8 p.length).toNat = p.length := by
    rw [BitVec.toNat_ofNat, Nat.mod_eq_of_lt (by omega)]
  apply List.ext_getElem
  · simp [codeString, Nat.mod_eq_of_lt (show p.length < 256 by omega)]
  · intro k h1 h2
    simp only [codeString, List.getElem_map, List.getElem_range, BitVec.getLsbD_ofNat, packBits_testBit]
    simp [h2, show k < 256 by omega]

/-- Beyond the code the stored bits are 0. -/
theorem packed_beyond {p : List Bool} {k : Nat} (h : p.length ≤ k) :
    (BitVec.ofNat 256 (packBits p)).getLsbD k = false := by
  simp [BitVec.getLsbD_ofNat, packBits_testBit, h]

/-- The table that a list of (symbol, code) pairs makes from the blank one. -/
def tableOf (l : List (Byte × List Bool)) (t : CodeTable) : CodeTable := l.foldl (fun t x => t.setCode x.1 x.2) t

theorem tableOf_other (l : List (Byte × List Bool)) (t : CodeTable) {a : Byte} (h : ∀ x ∈ l, x.1 ≠ a) :
    (tableOf l t).clen.at a = t.clen.at a ∧ (tableOf l t).cbits.at a = t.cbits.at a := by
  induction l generalizing t with
  | nil => exact ⟨rfl, rfl⟩
  | cons x l ih =>
    have hx := h x (by simp)
    obtain ⟨h1, h2⟩ := ih (t.setCode x.1 x.2) fun y hy => h y (by simp [hy])
    refine ⟨h1.trans ?_, h2.trans ?_⟩ <;> exact Table.at_put_other _ _ _ _ (Ne.symm hx)

theorem tableOf_mem {l : List (Byte × List Bool)} (t : CodeTable) (hnd : (l.map Prod.fst).Nodup) {x : Byte × List Bool}
    (hx : x ∈ l) :
    (tableOf l t).clen.at x.1 = BitVec.ofNat 8 x.2.length ∧
    (tableOf l t).cbits.at x.1 = BitVec.ofNat 256 (packBits x.2) := by
  induction l generalizing t with
  | nil => simp at hx
  | cons y l ih =>
    rw [List.map_cons, List.nodup_cons] at hnd
    rcases List.mem_cons.1 hx with rfl | hx
    · obtain ⟨h1, h2⟩ := tableOf_other l (t.setCode x.1 x.2) (a := x.1) fun z hz e =>
        hnd.1 (List.mem_map.2 ⟨z, hz, e⟩)
      refine ⟨h1.trans ?_, h2.trans ?_⟩ <;> exact Table.at_put_same _ _ _
    · exact ih _ hnd.2 hx

theorem partition_eq (F : Nat → Nat) (symOf : Table Byte) (nnz : Nat) :
    partition F symOf nnz =
      tableOf ((codeLeaves F nnz).map fun x => (symOf.at (BitVec.ofNat 8 x.1), x.2)) CodeTable.blank := by
  rw [partition, tableOf, List.foldl_map]


/-! ### The codes `part` gives (40_cae.md R113) -/

/-- On a valid ranking the ranks below `NNZ` have a count of at least 1. -/
theorem rankFreq_positive {s : State} (hr : s.status.rankValid = true) (h : RankTablesOk s) {first last : Nat}
    (hl : last < s.nnz.toNat) : PositiveOn (rankFreq s.freq s.symOf) first last := by
  intro r _ h2
  obtain ⟨_, h3, _, h4⟩ := h hr
  have hle : s.nnz.toNat ≤ 256 := by
    rw [h3, ← countNonzero_eq]
    exact countNonzero_le _
  have h5 := (h4 (BitVec.ofNat 8 r)).2 (by rw [BitVec.toNat_ofNat, Nat.mod_eq_of_lt (by omega)]; omega)
  unfold rankFreq
  by_contra h0
  exact h5 (BitVec.eq_of_toNat_eq (by simp; omega))

theorem nnz_le {s : State} (hr : s.status.rankValid = true) (h : RankTablesOk s) : s.nnz.toNat ≤ 256 := by
  rw [(h hr).2.1, ← countNonzero_eq]
  exact countNonzero_le _

/-- A list of (symbol, code) pairs is what `part` writes. -/
structure CodesOf (s : State) (l : List (Byte × List Bool)) : Prop where
  /-- each symbol once -/
  nodup : (l.map Prod.fst).Nodup
  /-- the table is the blank one with these codes -/
  table : partition (rankFreq s.freq s.symOf) s.symOf s.nnz.toNat = tableOf l CodeTable.blank
  /-- the leaves of the recursion (R111) -/
  leaves : l = (codeLeaves (rankFreq s.freq s.symOf) s.nnz.toNat).map fun x => (s.symOf.at (BitVec.ofNat 8 x.1), x.2)
  /-- R113 (c) -/
  short : ∀ x ∈ l, x.2.length ≤ s.nnz.toNat - 1
  /-- R113 (a) -/
  symbols : ∀ a, a ∈ l.map Prod.fst ↔ s.freq.at a ≠ 0
  nonempty : 2 ≤ s.nnz.toNat → ∀ x ∈ l, x.2 ≠ []
  /-- R113 (b), (e) -/
  parts : l.Pairwise fun x y => Parts x.2 y.2
  /-- in order of rank -/
  ranks : l.map Prod.fst = (List.range s.nnz.toNat).map fun r => s.symOf.at (BitVec.ofNat 8 r)
  /-- R113 (d) -/
  fills : (l.map fun x => 2 ^ (255 - x.2.length)).sum = 2 ^ 255
  /-- the trie of these codes: two nodes for each symbol after the first (41_trie.md R137) -/
  prefixes : ∃ P : List (List Bool), P.length = 2 * (s.nnz.toNat - 1) ∧
    ∀ x ∈ l, ∀ u, u ≠ [] → u <+: x.2 → u ∈ P

/-- The non-empty prefixes of the leaves of an interval, two for each rank after the first. -/
theorem assignLeaves_prefixes (F : Nat → Nat) (n : Nat) {first last : Nat} (h : first ≤ last) (hn : last - first = n)
    (hF : PositiveOn F first last) :
    ∃ P : List (List Bool), P.length = 2 * (last - first) ∧
      ∀ p, ∀ x ∈ assignLeaves F (last - first) first last p, ∃ q, x.2 = p ++ q ∧ ∀ u, u ≠ [] → u <+: q → u ∈ P := by
  induction n using Nat.strongRecOn generalizing first last with
  | ind n ih =>
    by_cases hlt : first < last
    · have hd1 := (bestDivision_scan F h).1
      have hd2 := bestDivision_lt F hlt hF
      obtain ⟨Pl, a1, a2⟩ := ih (bestDivision F first last - first) (by omega) hd1 rfl
        fun r h1 h2 => hF r h1 (by omega)
      obtain ⟨Pr, b1, b2⟩ := ih (last - (bestDivision F first last + 1)) (by omega)
        (first := bestDivision F first last + 1) (by omega) rfl fun r h1 h2 => hF r (by omega) h2
      refine ⟨[false] :: Pl.map (false :: ·) ++ [true] :: Pr.map (true :: ·), ?_, ?_⟩
      · simp only [List.length_append, List.length_cons, List.length_map, a1, b1]
        omega
      · intro p x hx
        rw [assignLeaves_two F hlt hF] at hx
        rcases List.mem_append.1 hx with hx | hx
        · obtain ⟨q, e, hq⟩ := a2 _ x hx
          refine ⟨false :: q, by simpa using e, ?_⟩
          intro u hu hp
          cases u with
          | nil => exact absurd rfl hu
          | cons b u =>
            obtain ⟨rfl, hp'⟩ := List.cons_prefix_cons.1 hp
            cases u with
            | nil => simp
            | cons b' u => simp [hq _ (by simp) hp']
        · obtain ⟨q, e, hq⟩ := b2 _ x hx
          refine ⟨true :: q, by simpa using e, ?_⟩
          intro u hu hp
          cases u with
          | nil => exact absurd rfl hu
          | cons b u =>
            obtain ⟨rfl, hp'⟩ := List.cons_prefix_cons.1 hp
            cases u with
            | nil => simp
            | cons b' u => simp [hq _ (by simp) hp']
    · have e : first = last := by omega
      subst e
      refine ⟨[], by simp, fun p x hx => ⟨[], ?_, fun u hu hp => absurd (List.prefix_nil.1 hp) hu⟩⟩
      rw [assignLeaves_one] at hx
      simp only [List.mem_singleton] at hx
      simp [hx]

theorem codesOf_exists {s : State} (hr : s.status.rankValid = true) (hok : RankTablesOk s) (h1 : 1 ≤ s.nnz.toNat) :
    ∃ l, CodesOf s l := by
  obtain ⟨hR, _, _, h4⟩ := hok hr
  have hle := nnz_le hr hok
  have hp := rankFreq_positive hr hok (first := 0) (last := s.nnz.toNat - 1) (by omega)
  obtain ⟨qs, a1, a2, a3, a4, a5, a6⟩ := assignLeaves_spec _ _ (Nat.zero_le _) rfl hp
  obtain ⟨P, p1, p2⟩ := assignLeaves_prefixes _ _ (Nat.zero_le _) rfl hp
  have hfst : (qs.map fun x => (s.symOf.at (BitVec.ofNat 8 x.1), x.2)).map Prod.fst =
      (List.range s.nnz.toNat).map fun r => s.symOf.at (BitVec.ofNat 8 r) := by
    have e : s.nnz.toNat - 1 - 0 + 1 = s.nnz.toNat := by omega
    rw [List.map_map, List.range_eq_range', ← e, ← a2, List.map_map]
    rfl
  have hnil := a1 []
  simp only [List.nil_append, Nat.sub_zero, Prod.mk.eta, List.map_id'] at hnil
  refine ⟨qs.map fun x => (s.symOf.at (BitVec.ofNat 8 x.1), x.2), ?_, ?_, ?_, ?_, ?_, ?_, ?_, hfst, ?_, P, by omega, ?_⟩
  · rw [hfst]
    refine List.Nodup.map_on ?_ List.nodup_range
    intro x hx y hy e
    have e1 := congrArg s.rankOf.at e
    rw [hR.2.1, hR.2.1] at e1
    have e2 := congrArg BitVec.toNat e1
    rw [List.mem_range] at hx hy
    simpa [Nat.mod_eq_of_lt (show x < 256 by omega), Nat.mod_eq_of_lt (show y < 256 by omega)] using e2
  · rw [partition_eq, codeLeaves, if_pos h1, hnil]
  · rw [codeLeaves, if_pos h1, hnil]
  · intro x hx
    obtain ⟨y, hy, rfl⟩ := List.mem_map.1 hx
    have := a3 y hy
    simpa using this
  · intro a
    rw [hfst, List.mem_map]
    constructor
    · rintro ⟨r, hr', rfl⟩
      rw [List.mem_range] at hr'
      exact (h4 _).2 (by rw [BitVec.toNat_ofNat, Nat.mod_eq_of_lt (by omega)]; omega)
    · intro h
      have := (h4 (s.rankOf.at a)).1 (by rwa [hR.2.2])
      exact ⟨(s.rankOf.at a).toNat, List.mem_range.2 this, by simp [hR.2.2]⟩
  · intro h2 x hx
    obtain ⟨y, hy, rfl⟩ := List.mem_map.1 hx
    exact a4 (by omega) y hy
  · exact List.pairwise_map.2 a5
  · rw [List.map_map]
    exact a6 255 (by omega)
  · intro x hx u hu hpre
    obtain ⟨y, hy, rfl⟩ := List.mem_map.1 hx
    have hy' : y ∈ assignLeaves (rankFreq s.freq s.symOf) (s.nnz.toNat - 1 - 0) 0 (s.nnz.toNat - 1) [] := by
      rw [Nat.sub_zero, hnil]
      exact hy
    obtain ⟨q, e, hq⟩ := p2 [] y hy'
    refine hq u hu ?_
    rw [List.nil_append] at e
    exact e ▸ hpre

/-- A listed symbol has its code. -/
theorem CodesOf.code {s : State} {l : List (Byte × List Bool)} (h : CodesOf s l) (hle : s.nnz.toNat ≤ 256)
    {x : Byte × List Bool} (hx : x ∈ l) : s.partEffect.code x.1 = x.2 := by
  obtain ⟨h1, h2⟩ := tableOf_mem CodeTable.blank h.nodup hx
  show codeString ((partition _ _ _).clen.at x.1) ((partition _ _ _).cbits.at x.1) = _
  have := h.short x hx
  rw [h.table, h1, h2, codeString_packed (by omega)]

/-- Any other symbol has none. -/
theorem CodesOf.no_code {s : State} {l : List (Byte × List Bool)} (h : CodesOf s l) {a : Byte}
    (ha : a ∉ l.map Prod.fst) :
    s.partEffect.clen.at a = 0 ∧ s.partEffect.cbits.at a = 0 ∧ s.partEffect.code a = [] := by
  obtain ⟨h1, h2⟩ := tableOf_other l CodeTable.blank (a := a) fun x hx e => ha (List.mem_map.2 ⟨x, hx, e⟩)
  have h1' : s.partEffect.clen.at a = 0 := by
    show (partition _ _ _).clen.at a = 0
    rw [h.table, h1]
    simp [CodeTable.blank]
  have h2' : s.partEffect.cbits.at a = 0 := by
    show (partition _ _ _).cbits.at a = 0
    rw [h.table, h2]
    simp [CodeTable.blank]
  refine ⟨h1', h2', ?_⟩
  rw [State.code, codeString, h1']
  rfl

/-- Two different entries of a list related pairwise are related one way or the other. -/
theorem pairwise_either {α : Type} {R : α → α → Prop} {l : List α} (h : l.Pairwise R) {x y : α} (hx : x ∈ l)
    (hy : y ∈ l) (hne : x ≠ y) : R x y ∨ R y x := by
  induction h with
  | nil => simp at hx
  | cons h1 _ ih =>
    rcases List.mem_cons.1 hx with e | hx' <;> rcases List.mem_cons.1 hy with e' | hy'
    · exact absurd (e.trans e'.symm) hne
    · exact .inl (e ▸ h1 _ hy')
    · exact .inr (e' ▸ h1 _ hx')
    · exact ih hx' hy'


/-- With no non-zero count every code is empty (40_cae.md R114 (a)). -/
theorem partEffect_of_none {s : State} (h : s.nnz.toNat = 0) :
    s.partEffect = { s with clen := Table.const 0, cbits := Table.const 0 } := by
  simp [State.partEffect, partition, codeLeaves, h, CodeTable.blank]

/-- What `rank` leaves describes `FREQ`. -/
theorem rankEffect_describes (s : State) :
    s.rankEffect.nnz.toNat = (nonzeroSymbols s.freq).length ∧
    s.rankEffect.lastNz.toNat = s.rankEffect.nnz.toNat - 1 ∧
    ∀ r : Byte, s.freq.at (s.rankEffect.symOf.at r) ≠ 0 ↔ r.toNat < s.rankEffect.nnz.toNat := by
  have hle := countNonzero_le s.freq
  have e : s.rankEffect.nnz.toNat = countNonzero s.freq := by
    show (BitVec.ofNat 9 (countNonzero s.freq)).toNat = _
    rw [BitVec.toNat_ofNat, Nat.mod_eq_of_lt (by omega)]
  refine ⟨by rw [e, countNonzero_eq], ?_, fun r => by rw [e]; exact symOfTable_nonzero s.freq r⟩
  rw [e]
  show (BitVec.ofNat 8 (if 1 ≤ countNonzero s.freq then countNonzero s.freq - 1 else 0)).toNat = _
  rw [BitVec.toNat_ofNat]
  split <;> omega

end Sys2Proof.Machine
end

