-- ==== Sys2Proof/Laws/Memory.lean ====
section
/-! SUPPORT. Laws of the byte buffers: read after write, the canonical form, the range of the indices. -/

namespace Sys2Proof.Machine

@[simp] theorem Memory.read_nil (a : Nat) : Memory.read [] a = none := rfl

theorem Memory.read_cons (c : Host.Cell) (m : Memory) (a : Nat) :
    Memory.read (c :: m) a = if a = c.1 then some c.2 else Memory.read m a := rfl

/-- An index below every listed one reads as unspecified. -/
theorem Memory.read_none_of_lt {m : Memory} {a : Nat} (h : ∀ c ∈ m, a < c.1) : Memory.read m a = none := by
  induction m with
  | nil => rfl
  | cons c m ih =>
    have hc := h c (by simp)
    rw [Memory.read_cons, if_neg (by omega), ih fun d hd => h d (by simp [hd])]

@[simp] theorem Memory.read_write_same (m : Memory) (a : Nat) (b : Byte) :
    Memory.read (Memory.write m a b) a = some b := by
  induction m with
  | nil => simp [Memory.write, Memory.read]
  | cons c m ih =>
    obtain ⟨k, v⟩ := c
    simp only [Memory.write]
    split
    · simp [Memory.read]
    · split
      · simp [Memory.read]
      · next h => simp [Memory.read, h, ih]

theorem Memory.read_write_other (m : Memory) (a x : Nat) (b : Byte) (h : x ≠ a) :
    Memory.read (Memory.write m a b) x = Memory.read m x := by
  induction m with
  | nil => simp [Memory.write, Memory.read, h]
  | cons c m ih =>
    obtain ⟨k, v⟩ := c
    simp only [Memory.write]
    split
    · simp [Memory.read, h]
    · split
      · next h2 => subst h2; simp [Memory.read, h]
      · simp [Memory.read, ih]

theorem Memory.read_write (m : Memory) (a x : Nat) (b : Byte) :
    Memory.read (Memory.write m a b) x = if x = a then some b else Memory.read m x := by
  split
  · next h => subst h; simp
  · next h => exact m.read_write_other a x b h

/-- A write lists no index but the old ones and its own. -/
theorem Memory.mem_write {m : Memory} {a : Nat} {b : Byte} {c : Host.Cell} (h : c ∈ Memory.write m a b) :
    c = (a, b) ∨ c ∈ m := by
  induction m with
  | nil => simpa [Memory.write] using h
  | cons d m ih =>
    obtain ⟨k, v⟩ := d
    simp only [Memory.write] at h
    split at h
    · simpa using h
    · split at h
      · rcases List.mem_cons.1 h with h | h
        · exact .inl h
        · exact .inr (List.mem_cons_of_mem _ h)
      · rcases List.mem_cons.1 h with h | h
        · exact .inr (h ▸ List.mem_cons_self ..)
        · rcases ih h with h | h
          · exact .inl h
          · exact .inr (List.mem_cons_of_mem _ h)

/-- A write keeps the canonical form. -/
theorem Memory.write_wf {m : Memory} (h : Memory.wf m) (a : Nat) (b : Byte) : Memory.wf (Memory.write m a b) := by
  induction m with
  | nil => simp [Memory.write, Memory.wf]
  | cons c m ih =>
    obtain ⟨k, v⟩ := c
    obtain ⟨hk, hm⟩ := List.pairwise_cons.1 h
    simp only [Memory.write]
    split
    · next hlt =>
      refine List.pairwise_cons.2 ⟨fun d hd => ?_, h⟩
      rcases List.mem_cons.1 hd with hd | hd
      · subst hd; exact hlt
      · exact Nat.lt_trans hlt (hk d hd)
    · split
      · next _ he => subst he; exact List.pairwise_cons.2 ⟨hk, hm⟩
      · next hlt hne =>
        refine List.pairwise_cons.2 ⟨fun d hd => ?_, ih hm⟩
        rcases Memory.mem_write hd with hd | hd
        · subst hd
          show k < a
          omega
        · exact hk d hd

theorem Memory.writeWord_wf {m : Memory} (h : Memory.wf m) (j : Nat) (v : Word) :
    Memory.wf (Memory.writeWord m j v) :=
  Memory.write_wf (Memory.write_wf (Memory.write_wf (Memory.write_wf h _ _) _ _) _ _) _ _

/-- A word write lists only old indices and its own four. -/
theorem Memory.mem_writeWord {m : Memory} {j : Nat} {v : Word} {c : Host.Cell}
    (h : c ∈ Memory.writeWord m j v) : (4 * j ≤ c.1 ∧ c.1 < 4 * j + 4) ∨ c ∈ m := by
  unfold Memory.writeWord at h
  rcases Memory.mem_write h with h | h
  · subst h; exact .inl ⟨by simp, by simp⟩
  rcases Memory.mem_write h with h | h
  · subst h; exact .inl ⟨by simp, by simp⟩
  rcases Memory.mem_write h with h | h
  · subst h; exact .inl ⟨by simp, by simp⟩
  rcases Memory.mem_write h with h | h
  · subst h; exact .inl ⟨by simp, by simp⟩
  · exact .inr h

/-- The empty buffer of State.reset has the canonical form. -/
theorem Memory.reset_wf : Memory.wf State.reset.pbuf ∧ Memory.wf State.reset.obuf := by
  simp [State.reset, Memory.wf]

/-- A read of a buffer byte draws at most once, and only where the byte has no specified value. -/
theorem byteOrFree_cases (m : Memory) (a d : Nat) :
    (∃ b, Memory.read m a = some b ∧ byteOrFree m a d = (b, d)) ∨
    (Memory.read m a = none ∧ byteOrFree m a d = (Config.freeByte d, d + 1)) := by
  unfold byteOrFree
  cases Memory.read m a <;> simp

/-! ### The capacities of 00_scope.md R8 -/

theorem pbufSize_le (c : Config) : c.pbufSize ≤ 2 ^ 28 := by
  have := c.pbufWordsPred.isLt
  simp only [Config.pbufSize]
  omega

theorem obufSize_le (c : Config) : c.obufSize ≤ 2 ^ 28 := by
  have := c.obufWordsPred.isLt
  simp only [Config.obufSize]
  omega

theorem nodeMax_pos (c : Config) : 1 ≤ c.nodeMax := by simp [Config.nodeMax]

theorem nodeMax_le (c : Config) : c.nodeMax ≤ 65536 := by
  have := c.nodeMaxPred.isLt
  simp only [Config.nodeMax]
  omega

/-! ### Words of a buffer (20_memory.md R62) -/

/-- The four bytes a word write stores. -/
theorem Memory.read_writeWord (m : Memory) (j : Nat) (v : Word) {k : Nat} (hk : k < 4) :
    Memory.read (Memory.writeWord m j v) (4 * j + k) = some (byteOfWord v k) := by
  simp only [Memory.writeWord, Memory.read_write]
  interval_cases k <;> simp

/-- Every other byte stays. -/
theorem Memory.read_writeWord_other (m : Memory) (j : Nat) (v : Word) {a : Nat} (h : a < 4 * j ∨ 4 * j + 4 ≤ a) :
    Memory.read (Memory.writeWord m j v) a = Memory.read m a := by
  simp (disch := omega) only [Memory.writeWord, Memory.read_write, if_neg]

/-- The word of four specified bytes; nothing is drawn. -/
theorem wordOrFree_of_read (m : Memory) (j d : Nat) (b : Nat → Byte)
    (h : ∀ k, k < 4 → Memory.read m (4 * j + k) = some (b k)) :
    wordOrFree m j d = (wordOfBytes (b 0) (b 1) (b 2) (b 3), d) := by
  have h0 := h 0 (by decide)
  have h1 := h 1 (by decide)
  have h2 := h 2 (by decide)
  have h3 := h 3 (by decide)
  simp only [Nat.add_zero] at h0
  simp [wordOrFree, byteOrFree, h0, h1, h2, h3]

/-- A word depends on its four bytes alone. -/
theorem wordOrFree_congr (m m' : Memory) (j d : Nat)
    (h : ∀ k, k < 4 → Memory.read m (4 * j + k) = Memory.read m' (4 * j + k)) :
    wordOrFree m j d = wordOrFree m' j d := by
  have h0 := h 0 (by decide)
  have h1 := h 1 (by decide)
  have h2 := h 2 (by decide)
  have h3 := h 3 (by decide)
  simp only [Nat.add_zero] at h0
  simp [wordOrFree, byteOrFree, h0, h1, h2, h3]

theorem wordOfBytes_byteOfWord (v : Word) :
    wordOfBytes (byteOfWord v 0) (byteOfWord v 1) (byteOfWord v 2) (byteOfWord v 3) = v := by
  apply BitVec.eq_of_getLsbD_eq
  intro i hi
  simp only [wordOfBytes, byteOfWord]
  interval_cases i <;> simp

theorem byteOfWord_wordOfBytes (b : Nat → Byte) {k : Nat} (hk : k < 4) :
    byteOfWord (wordOfBytes (b 0) (b 1) (b 2) (b 3)) k = b k := by
  apply BitVec.eq_of_getLsbD_eq
  intro i hi
  simp only [byteOfWord, wordOfBytes]
  interval_cases k <;> interval_cases i <;> simp

/-- Reading draws, and never takes a draw back. -/
theorem byteOrFree_of_read {m : Memory} {a : Nat} {b : Byte} (h : Memory.read m a = some b) (d : Nat) :
    (byteOrFree m a d).1 = b := by
  simp [byteOrFree, h]

/-- A specified byte of a word read shows in its place, whatever the other three are (20_memory.md R62, 10_state.md R53). -/
theorem byteOfWord_wordOrFree {m : Memory} {j k : Nat} {b : Byte} (hk : k < 4) (h : Memory.read m (4 * j + k) = some b)
    (d : Nat) : byteOfWord (wordOrFree m j d).1 k = b := by
  have e (b0 b1 b2 b3 : Byte) := byteOfWord_wordOfBytes (fun i => [b0, b1, b2, b3].getD i 0) hk
  simp only [wordOrFree]
  refine (e _ _ _ _).trans ?_
  interval_cases k <;> exact byteOrFree_of_read h _

theorem byteOrFree_draws (m : Memory) (a d : Nat) : d ≤ (byteOrFree m a d).2 := by
  rcases byteOrFree_cases m a d with ⟨b, _, e⟩ | ⟨_, e⟩ <;> rw [e]
  exact Nat.le_succ d

theorem wordOrFree_draws (m : Memory) (j d : Nat) : d ≤ (wordOrFree m j d).2 := by
  unfold wordOrFree
  exact Nat.le_trans (byteOrFree_draws m (4 * j) d) (Nat.le_trans (byteOrFree_draws _ _ _)
    (Nat.le_trans (byteOrFree_draws _ _ _) (byteOrFree_draws _ _ _)))

end Sys2Proof.Machine
end

