-- ==== Sys2Proof/Laws/Decoder.lean ====
section
/-! SUPPORT. The decode loop (42_decode.md R152): one equation per way an iteration goes, where the cursor stands, when
the loop ends, what it keeps, and how it runs along one code of a trie. -/

namespace Sys2Proof.Machine

/-! ### Where the cursor stands -/

/-- The next unread bit is bit `p` of the packed stream (42_decode.md R154). -/
def Walk.At (k : Walk) (p : Nat) : Prop := k.cursor.toNat = p / 8 ∧ k.bitmask = (0x80 : Byte) >>> (p % 8)

theorem Walk.at_start (d : Nat) : (Walk.start d).At 0 := ⟨rfl, rfl⟩

theorem Walk.at_nextBit {k : Walk} {p : Nat} (h : k.At p) (hp : p + 1 < 2 ^ 32) : k.nextBit.At (p + 1) := by
  obtain ⟨hc, hm⟩ := h
  have h8 : p % 8 < 8 := Nat.mod_lt _ (by decide)
  by_cases h7 : p % 8 = 7
  · have e : k.nextBit = { k with cursor := k.cursor + 1, bitmask := 0x80 } := by
      rw [Walk.nextBit, hm, h7]; rfl
    rw [e]
    refine ⟨?_, ?_⟩
    · simp only [BitVec.toNat_add, hc]
      rw [Nat.mod_eq_of_lt (by simp; omega)]
      simp
      omega
    · rw [show (p + 1) % 8 = 0 by omega]; rfl
  · have hne : ¬ ((0x80 : Byte) >>> (p % 8)) >>> 1 = 0 := by
      generalize p % 8 = r at *
      interval_cases r <;> first | decide | omega
    have e : k.nextBit = { k with bitmask := k.bitmask >>> 1 } := by
      rw [Walk.nextBit, hm, if_neg hne]
    rw [e]
    refine ⟨?_, ?_⟩
    · simp only [hc]; omega
    · simp only [hm]
      rw [show (p + 1) % 8 = p % 8 + 1 by omega, BitVec.shiftRight_add]

@[simp] theorem Walk.nextBit_node (k : Walk) : k.nextBit.node = k.node := by
  unfold Walk.nextBit; split <;> rfl
@[simp] theorem Walk.nextBit_outCount (k : Walk) : k.nextBit.outCount = k.outCount := by
  unfold Walk.nextBit; split <;> rfl
@[simp] theorem Walk.nextBit_obuf (k : Walk) : k.nextBit.obuf = k.obuf := by
  unfold Walk.nextBit; split <;> rfl
@[simp] theorem Walk.nextBit_draws (k : Walk) : k.nextBit.draws = k.draws := by
  unfold Walk.nextBit; split <;> rfl

theorem Walk.enter_leaf {nodes : List Node} {c : Nat} (h : (nodeAt nodes c).isLeaf = true) (k : Walk) :
    k.enter nodes c = { k with
      obuf := Memory.write k.obuf k.outCount.toNat ((nodeAt nodes c).sym.getD 0), outCount := k.outCount + 1,
      node := 0 } := by
  simp [Walk.enter, h]

theorem Walk.enter_inner {nodes : List Node} {c : Nat} (h : (nodeAt nodes c).isLeaf = false) (k : Walk) :
    k.enter nodes c = { k with node := c } := by
  simp [Walk.enter, h]

@[simp] theorem Walk.enter_cursor (nodes : List Node) (c : Nat) (k : Walk) :
    (k.enter nodes c).cursor = k.cursor := by
  unfold Walk.enter; split <;> rfl
@[simp] theorem Walk.enter_bitmask (nodes : List Node) (c : Nat) (k : Walk) :
    (k.enter nodes c).bitmask = k.bitmask := by
  unfold Walk.enter; split <;> rfl
@[simp] theorem Walk.enter_draws (nodes : List Node) (c : Nat) (k : Walk) :
    (k.enter nodes c).draws = k.draws := by
  unfold Walk.enter; split <;> rfl

theorem Walk.at_enter {nodes : List Node} {c p : Nat} {k : Walk} (h : k.At p) : (k.enter nodes c).At p := by
  simpa [Walk.At] using h

/-- One whole iteration moves one bit on. -/
theorem Walk.at_iteration {nodes : List Node} {c p d : Nat} {k : Walk} (h : k.At p) (hp : p + 1 < 2 ^ 32) :
    (({ k with draws := d } : Walk).enter nodes c).nextBit.At (p + 1) :=
  Walk.at_nextBit (Walk.at_enter (k := { k with draws := d }) h) hp

/-! ### One iteration -/

section
variable {nodes : List Node} {pbuf : Memory} {pl el : Word} {k : Walk}

/-- The count is reached: the loop ends. -/
theorem decodeLoop_count (h : el.toNat ≤ k.outCount.toNat) (bound : Nat) :
    decodeLoop nodes pbuf pl el bound k = (k, none) := by
  cases bound with
  | zero => rfl
  | succ n => rw [decodeLoop, if_neg (by omega)]

/-- No packed bit is left. -/
theorem decodeLoop_exhausted (h : k.outCount.toNat < el.toNat) (hc : pl.toNat ≤ k.cursor.toNat) (bound : Nat) :
    decodeLoop nodes pbuf pl el (bound + 1) k = (k, some (exhausted k.node)) := by
  rw [decodeLoop, if_pos h, if_pos hc]

/-- The bit read leads to an absent child. -/
theorem decodeLoop_noChild (h : k.outCount.toNat < el.toNat) (hc : k.cursor.toNat < pl.toNat) {b : Bool} {d : Nat}
    (hb : packedBit pbuf k.cursor.toNat k.bitmask k.draws = (b, d)) (hn : (nodeAt nodes k.node).child b = none)
    (bound : Nat) :
    decodeLoop nodes pbuf pl el (bound + 1) k = ({ k with draws := d }, some (missingChild k.node b)) := by
  rw [decodeLoop, if_pos h, if_neg (by omega)]
  simp [hb, hn]

/-- The bit read leads to a child: one iteration. -/
theorem decodeLoop_step (h : k.outCount.toNat < el.toNat) (hc : k.cursor.toNat < pl.toNat) {b : Bool} {d c : Nat}
    (hb : packedBit pbuf k.cursor.toNat k.bitmask k.draws = (b, d)) (hn : (nodeAt nodes k.node).child b = some c)
    (bound : Nat) :
    decodeLoop nodes pbuf pl el (bound + 1) k =
      decodeLoop nodes pbuf pl el bound (({ k with draws := d } : Walk).enter nodes c).nextBit := by
  rw [decodeLoop, if_pos h, if_neg (by omega)]
  simp [hb, hn]

/-! ### The whole loop -/

/-- What an iteration keeps, the loop keeps; and the ways the loop ends. -/
theorem decodeLoop_induct (P : Walk → Prop)
    (step : ∀ (k : Walk) (b : Bool) (d c : Nat), P k → k.outCount.toNat < el.toNat → k.cursor.toNat < pl.toNat →
      packedBit pbuf k.cursor.toNat k.bitmask k.draws = (b, d) → (nodeAt nodes k.node).child b = some c →
      P (({ k with draws := d } : Walk).enter nodes c).nextBit)
    (bound : Nat) (k : Walk) (hk : P k) :
    (∃ k', decodeLoop nodes pbuf pl el bound k = (k', none) ∧ P k') ∨
    (∃ k', decodeLoop nodes pbuf pl el bound k = (k', some (exhausted k'.node)) ∧ P k' ∧
      k'.outCount.toNat < el.toNat ∧ pl.toNat ≤ k'.cursor.toNat) ∨
    (∃ k' b d, decodeLoop nodes pbuf pl el bound k = ({ k' with draws := d }, some (missingChild k'.node b)) ∧ P k' ∧
      k'.outCount.toNat < el.toNat ∧ k'.cursor.toNat < pl.toNat ∧
      packedBit pbuf k'.cursor.toNat k'.bitmask k'.draws = (b, d) ∧ (nodeAt nodes k'.node).child b = none) := by
  induction bound generalizing k with
  | zero => exact .inl ⟨k, rfl, hk⟩
  | succ n ih =>
    by_cases h : k.outCount.toNat < el.toNat
    · by_cases hc : pl.toNat ≤ k.cursor.toNat
      · exact .inr (.inl ⟨k, decodeLoop_exhausted h hc n, hk, h, hc⟩)
      · replace hc := Nat.lt_of_not_le hc
        rcases hb : packedBit pbuf k.cursor.toNat k.bitmask k.draws with ⟨b, d⟩
        cases hn : (nodeAt nodes k.node).child b with
        | none => exact .inr (.inr ⟨k, b, d, decodeLoop_noChild h hc hb hn n, hk, h, hc, hb, hn⟩)
        | some c => rw [decodeLoop_step h hc hb hn]; exact ih _ (step k b d c hk h hc hb hn)
    · exact .inl ⟨k, decodeLoop_count (Nat.le_of_not_lt h) _, hk⟩

/-- The bound is never what ends the loop: without a fault the count is reached. -/
theorem decodeLoop_reaches_count (hpl : pl.toNat < 2 ^ 28 + 1) (bound p : Nat) (k : Walk) (hk : k.At p)
    (hb : 8 * pl.toNat < bound + p) (hp : p ≤ 8 * pl.toNat) {k' : Walk}
    (h : decodeLoop nodes pbuf pl el bound k = (k', none)) : el.toNat ≤ k'.outCount.toNat := by
  induction bound generalizing k p with
  | zero => omega
  | succ n ih =>
    by_cases h1 : k.outCount.toNat < el.toNat
    · by_cases hc : pl.toNat ≤ k.cursor.toNat
      · rw [decodeLoop_exhausted h1 hc] at h; cases h
      · replace hc := Nat.lt_of_not_le hc
        rcases hbit : packedBit pbuf k.cursor.toNat k.bitmask k.draws with ⟨b, d⟩
        cases hn : (nodeAt nodes k.node).child b with
        | none => rw [decodeLoop_noChild h1 hc hbit hn] at h; cases h
        | some c =>
          rw [decodeLoop_step h1 hc hbit hn] at h
          have := hk.1
          exact ih (p + 1) _ (Walk.at_iteration hk (by omega)) (by omega) (by omega) h
    · rw [decodeLoop_count (Nat.le_of_not_lt h1)] at h
      cases h
      exact Nat.le_of_not_lt h1

end

/-! ### Reading the packed stream -/

/-- Bit `q` of the packed stream is held and is `b` (20_memory.md R63). -/
def StreamBit (pbuf : Memory) (q : Nat) (b : Bool) : Prop :=
  ∃ x, Memory.read pbuf (q / 8) = some x ∧ x.getLsbD (7 - q % 8) = b

theorem and_mask_ne_zero (x : Byte) (r : Nat) (hr : r < 8) : (x &&& ((0x80 : Byte) >>> r) != 0) = x.getLsbD (7 - r) := by
  have key : ∀ x : Byte, ∀ r : Fin 8, (x &&& ((0x80 : Byte) >>> r.val) != 0) = x.getLsbD (7 - r.val) := by
    decide +kernel
  exact key x ⟨r, hr⟩

theorem packedBit_of_streamBit {pbuf : Memory} {k : Walk} {p : Nat} {b : Bool} (hk : k.At p)
    (hs : StreamBit pbuf p b) : packedBit pbuf k.cursor.toNat k.bitmask k.draws = (b, k.draws) := by
  obtain ⟨x, hx, hb⟩ := hs
  obtain ⟨hc, hm⟩ := hk
  simp only [packedBit, byteOrFree, hc, hx, hm]
  rw [and_mask_ne_zero x _ (Nat.mod_lt _ (by decide)), hb]

/-- Running along one code: from node `k.node` the stream's next bits lead to a leaf, which is emitted. -/
theorem decodeLoop_code {nodes : List Node} {pbuf : Memory} {pl el : Word} (hpl : pl.toNat < 2 ^ 28 + 1)
    (bits : List Bool) (bound p n : Nat) (k : Walk) (hne : bits ≠ []) (hk : k.At p)
    (hcount : k.outCount.toNat < el.toNat) (hfit : p + bits.length ≤ 8 * pl.toNat)
    (hs : ∀ j (hj : j < bits.length), StreamBit pbuf (p + j) bits[j])
    (hpath : followPath nodes k.node bits = some n) (hleaf : (nodeAt nodes n).isLeaf = true) :
    ∃ k', decodeLoop nodes pbuf pl el (bound + bits.length) k = decodeLoop nodes pbuf pl el bound k' ∧
      k'.node = 0 ∧ k'.outCount = k.outCount + 1 ∧
      k'.obuf = Memory.write k.obuf k.outCount.toNat ((nodeAt nodes n).sym.getD 0) ∧
      k'.draws = k.draws ∧ k'.At (p + bits.length) := by
  induction bits generalizing k p with
  | nil => exact absurd rfl hne
  | cons b rest ih =>
    simp only [List.length_cons] at hfit ⊢
    have hbit := packedBit_of_streamBit hk (hs 0 (by simp))
    simp only [List.getElem_cons_zero] at hbit
    have hc : k.cursor.toNat < pl.toNat := by have := hk.1; omega
    rw [followPath] at hpath
    cases hch : (nodeAt nodes k.node).child b with
    | none => simp [hch] at hpath
    | some c =>
      simp only [hch] at hpath
      have hat := Walk.at_iteration (nodes := nodes) (c := c) (d := k.draws) hk (by omega)
      rw [← Nat.add_assoc, decodeLoop_step hcount hc hbit hch]
      cases rest with
      | nil =>
        simp only [followPath, Option.some.injEq] at hpath
        subst hpath
        refine ⟨_, rfl, ?_⟩
        rw [Walk.enter_leaf hleaf] at hat ⊢
        exact ⟨by simp, by simp, by simp, by simp, hat⟩
      | cons b' rest' =>
        have hinner : (nodeAt nodes c).isLeaf = false := by
          rw [followPath] at hpath
          cases hc' : (nodeAt nodes c).child b' with
          | none => simp [hc'] at hpath
          | some c' =>
            cases b' <;> simp_all [Node.child, Node.isLeaf]
        have hx := Walk.enter_inner hinner ({ k with draws := k.draws } : Walk)
        obtain ⟨k', he, h1, h2, h3, h4, h5⟩ := ih (p + 1) (({ k with draws := k.draws } : Walk).enter nodes c).nextBit
          (by simp) hat (by simpa [hx] using hcount) (by simp only [List.length_cons] at hfit ⊢; omega)
          (fun j hj => by
            have := hs (j + 1) (by simpa using hj)
            rw [show p + 1 + j = p + (j + 1) by omega]
            simpa using this)
          (by simpa [hx] using hpath)
        refine ⟨k', he, h1, ?_, ?_, ?_, ?_⟩
        · simpa [hx] using h2
        · simpa [hx] using h3
        · simpa using h4
        · rw [show p + ((b' :: rest').length + 1) = p + 1 + (b' :: rest').length by omega]; exact h5

/-! ### Paths -/

/-- A path goes one bit on where the node it reaches has that child. -/
theorem followPath_snoc {nodes : List Node} {n m c : Nat} {bits : List Bool} {b : Bool}
    (h : followPath nodes n bits = some m) (hc : (nodeAt nodes m).child b = some c) :
    followPath nodes n (bits ++ [b]) = some c := by
  induction bits generalizing n with
  | nil =>
    simp only [followPath, Option.some.injEq] at h
    simp [followPath, h, hc]
  | cons x bits ih =>
    rw [List.cons_append, followPath]
    rw [followPath] at h
    cases hx : (nodeAt nodes n).child x with
    | none => simp [hx] at h
    | some d =>
      simp only [hx] at h ⊢
      exact ih h

/-- In a trie a child leaf is a node with its symbol and nothing else (10_state.md R52 (e)). -/
theorem TrieShape.leaf {nodes : List Node} (h : TrieShape nodes) {n c : Nat} (hn : n < nodes.length)
    (hc : IsChild nodes n c) (hl : (nodeAt nodes c).isLeaf = true) :
    ∃ a, nodeAt nodes c = { left := none, right := none, sym := some a } := by
  obtain ⟨h1, h2⟩ := h.1 n c hn hc
  obtain ⟨a, ha⟩ := Option.isSome_iff_exists.1 (h.2.2.1 c (by omega) h2 hl)
  refine ⟨a, ?_⟩
  generalize nodeAt nodes c = x at *
  obtain ⟨l, r, y⟩ := x
  simp_all [Node.isLeaf]

end Sys2Proof.Machine
end

