-- ==== Sys2Proof/Laws/Port.lean ====
section
/-! SUPPORT. The host port: where the offsets of the register page and the regions lie, and what a write can do. -/

namespace Sys2Proof.Machine

theorem portOffset_portAddr {off : Nat} (h4 : off % 4 = 0) (h : off < 2 ^ 30) : portOffset (portAddr off) = off := by
  simp only [portOffset, portAddr, BitVec.toNat_ofNat]
  rw [Nat.mod_eq_of_lt (by omega)]
  omega

theorem portOffset_inj {a b : BitVec 28} (h : portOffset a = portOffset b) : a = b := by
  apply BitVec.eq_of_toNat_eq
  simp only [portOffset] at h
  omega

theorem portOffset_mod (a : BitVec 28) : portOffset a % 4 = 0 := by simp [portOffset]

theorem portOffset_lt (a : BitVec 28) : portOffset a < 2 ^ 30 := by
  have := a.isLt
  simp only [portOffset]
  omega

/-- Below 0x400 lies the register page. -/
theorem locate_register (c : Config) {off : Nat} (h : off < 0x400) : locate c off = registerAt off := by
  rw [locate, if_pos h]

/-- Above the register page lies no register: every location there is a table entry, a buffer word or unmapped. -/
theorem locate_region (c : Config) {off : Nat} (h : ¬ off < 0x400) :
    (∃ a, locate c off = .freq a) ∨ (∃ a, locate c off = .symOf a) ∨ (∃ a, locate c off = .rankOf a) ∨
    (∃ a, locate c off = .clen a) ∨ (∃ a w, locate c off = .cbits a w) ∨
    (∃ n b, locate c off = .node n b) ∨
    (∃ j, locate c off = .pbuf j ∧ 0x10000000 ≤ off ∧ off < 0x10000000 + c.pbufSize ∧ j = (off - 0x10000000) / 4) ∨
    (∃ j, locate c off = .obuf j ∧ 0x20000000 ≤ off ∧ off < 0x20000000 + c.obufSize ∧ j = (off - 0x20000000) / 4) ∨
    locate c off = .unmapped := by
  rw [locate, if_neg h]
  by_cases h1 : off < 0x800
  · rw [if_pos h1]; exact .inl ⟨_, rfl⟩
  rw [if_neg h1]
  by_cases h2 : off < 0xC00
  · rw [if_pos h2]; exact .inr (.inl ⟨_, rfl⟩)
  rw [if_neg h2]
  by_cases h3 : off < 0x1000
  · rw [if_pos h3]; exact .inr (.inr (.inl ⟨_, rfl⟩))
  rw [if_neg h3]
  by_cases h4 : off < 0x1400
  · rw [if_pos h4]; exact .inr (.inr (.inr (.inl ⟨_, rfl⟩)))
  rw [if_neg h4]
  by_cases h5 : off < 0x2000
  · rw [if_pos h5]; simp
  rw [if_neg h5]
  by_cases h6 : off < 0x4000
  · rw [if_pos h6]; exact .inr (.inr (.inr (.inr (.inl ⟨_, _, rfl⟩))))
  rw [if_neg h6]
  by_cases h7 : off < 0x80000
  · rw [if_pos h7]; simp
  rw [if_neg h7]
  by_cases h8 : off < 0x80000 + 8 * c.nodeMax
  · rw [if_pos h8]; exact .inr (.inr (.inr (.inr (.inr (.inl ⟨_, _, rfl⟩)))))
  rw [if_neg h8]
  by_cases h9 : off < 0x10000000
  · rw [if_pos h9]; simp
  rw [if_neg h9]
  by_cases h10 : off < 0x10000000 + c.pbufSize
  · rw [if_pos h10]
    exact .inr (.inr (.inr (.inr (.inr (.inr (.inl ⟨_, rfl, by omega, h10, rfl⟩))))))
  rw [if_neg h10]
  by_cases h11 : off < 0x20000000
  · rw [if_pos h11]; simp
  rw [if_neg h11]
  by_cases h12 : off < 0x20000000 + c.obufSize
  · rw [if_pos h12]
    exact .inr (.inr (.inr (.inr (.inr (.inr (.inr (.inl ⟨_, rfl, by omega, h12, rfl⟩)))))))
  rw [if_neg h12]; simp

/-- Which offset of the page each register has, and nothing else on the page. -/
theorem registerAt_cases (off : Nat) :
    (off = 0x000 ∧ registerAt off = .id) ∨ (off = 0x004 ∧ registerAt off = .ctrl) ∨
    (off = 0x008 ∧ registerAt off = .cmd) ∨ (off = 0x00C ∧ registerAt off = .status) ∨
    (off = 0x010 ∧ registerAt off = .err) ∨ (off = 0x014 ∧ registerAt off = .errInfo) ∨
    (off = 0x018 ∧ registerAt off = .nnz) ∨ (off = 0x01C ∧ registerAt off = .lastNz) ∨
    (off = 0x020 ∧ registerAt off = .splitD) ∨ (off = 0x024 ∧ registerAt off = .packedLen) ∨
    (off = 0x028 ∧ registerAt off = .expectedLen) ∨ (off = 0x02C ∧ registerAt off = .outCount) ∨
    (off = 0x030 ∧ registerAt off = .cursor) ∨ (off = 0x034 ∧ registerAt off = .bitmask) ∨
    (off = 0x038 ∧ registerAt off = .nodeCount) ∨
    (off ∉ [0x000, 0x004, 0x008, 0x00C, 0x010, 0x014, 0x018, 0x01C, 0x020, 0x024, 0x028, 0x02C, 0x030, 0x034, 0x038] ∧
      registerAt off = .unmapped) := by
  by_cases h : off ∈ [0x000, 0x004, 0x008, 0x00C, 0x010, 0x014, 0x018, 0x01C, 0x020, 0x024, 0x028, 0x02C, 0x030,
      0x034, 0x038]
  · have h' := h
    simp only [List.mem_cons, List.not_mem_nil, or_false] at h'
    rcases h' with rfl | rfl | rfl | rfl | rfl | rfl | rfl | rfl | rfl | rfl | rfl | rfl | rfl | rfl | rfl <;> decide
  · iterate 15 refine Or.inr ?_
    refine ⟨h, ?_⟩
    simp only [List.mem_cons, List.not_mem_nil, or_false, not_or] at h
    simp [registerAt, h]

/-- Only offset 4 is `CTRL`. -/
theorem locate_eq_ctrl_iff (c : Config) (off : Nat) : locate c off = .ctrl ↔ off = 0x004 := by
  by_cases h : off < 0x400
  · rw [locate_register c h]
    rcases registerAt_cases off with h | h | h | h | h | h | h | h | h | h | h | h | h | h | h | ⟨h, e⟩
    case' inr.inr.inr.inr.inr.inr.inr.inr.inr.inr.inr.inr.inr.inr.inr =>
      rw [e]; simp only [reduceCtorEq, false_iff]; rintro rfl; simp at h
    all_goals obtain ⟨rfl, e⟩ := h; simp [e]
  · have h' : off ≠ 0x004 := by omega
    rcases locate_region c h with ⟨_, e⟩ | ⟨_, e⟩ | ⟨_, e⟩ | ⟨_, e⟩ | ⟨_, _, e⟩ | ⟨_, _, e⟩ | ⟨_, e, _⟩ | ⟨_, e, _⟩ | e <;>
      simp [e, h']

/-- Only offset 8 is `CMD`. -/
theorem locate_eq_cmd_iff (c : Config) (off : Nat) : locate c off = .cmd ↔ off = 0x008 := by
  by_cases h : off < 0x400
  · rw [locate_register c h]
    rcases registerAt_cases off with h | h | h | h | h | h | h | h | h | h | h | h | h | h | h | ⟨h, e⟩
    case' inr.inr.inr.inr.inr.inr.inr.inr.inr.inr.inr.inr.inr.inr.inr =>
      rw [e]; simp only [reduceCtorEq, false_iff]; rintro rfl; simp at h
    all_goals obtain ⟨rfl, e⟩ := h; simp [e]
  · have h' : off ≠ 0x008 := by omega
    rcases locate_region c h with ⟨_, e⟩ | ⟨_, e⟩ | ⟨_, e⟩ | ⟨_, e⟩ | ⟨_, _, e⟩ | ⟨_, _, e⟩ | ⟨_, e, _⟩ | ⟨_, e, _⟩ | e <;>
      simp [e, h']

theorem hostWrite_ctrl (s : State) (v : Word) : s.hostWrite (portAddr 0x004) v = s.writeCtrl v := by
  simp [State.hostWrite, portOffset, portAddr, locate, registerAt]

theorem hostWrite_cmd (s : State) (v : Word) : s.hostWrite (portAddr 0x008) v = s.writeCmd v := by
  simp [State.hostWrite, portOffset, portAddr, locate, registerAt]

theorem hostWrite_busy {s : State} (hb : s.status.busy = true) {a : BitVec 28} (h4 : a ≠ portAddr 0x004)
    (h8 : a ≠ portAddr 0x008) (v : Word) : s.hostWrite a v = s := by
  have e4 : portOffset a ≠ 0x004 := fun e => h4 (portOffset_inj (by rw [e]; rfl))
  have e8 : portOffset a ≠ 0x008 := fun e => h8 (portOffset_inj (by rw [e]; rfl))
  simp [State.hostWrite, locate_eq_ctrl_iff, locate_eq_cmd_iff, e4, e8, hb]

theorem hostWrite_loc {s : State} (hb : s.status.busy = false) {a : BitVec 28} (h4 : a ≠ portAddr 0x004)
    (h8 : a ≠ portAddr 0x008) (v : Word) : s.hostWrite a v = s.writeLoc v (locate s.config (portOffset a)) := by
  have e4 : portOffset a ≠ 0x004 := fun e => h4 (portOffset_inj (by rw [e]; rfl))
  have e8 : portOffset a ≠ 0x008 := fun e => h8 (portOffset_inj (by rw [e]; rfl))
  simp [State.hostWrite, locate_eq_ctrl_iff, locate_eq_cmd_iff, e4, e8, hb]

/-- What a write to `CMD` does, by phase. -/
theorem writeCmd_cases (s : State) (v : Word) :
    (s.status.busy = true ∧ s.writeCmd v = { s with status := s.status.overrun }) ∨
    (s.status.busy = false ∧ s.status.fault = true ∧ s.writeCmd v = s) ∨
    (s.status.busy = false ∧ s.status.fault = false ∧ s.writeCmd v = s.accept v) := by
  unfold State.writeCmd Status.phase
  cases s.status.busy <;> cases s.status.fault <;> simp

/-- Every host write: a soft reset, an effect on `CMD`'s side, nothing, or a store to a location. -/
theorem hostWrite_cases (s : State) (a : BitVec 28) (v : Word) :
    (a = portAddr 0x004 ∧ v.getLsbD 0 = true ∧ s.hostWrite a v = s.softReset) ∨
    (a = portAddr 0x008 ∧ s.hostWrite a v = s.writeCmd v) ∨
    s.hostWrite a v = s ∨
    (s.status.busy = false ∧ a ≠ portAddr 0x004 ∧ a ≠ portAddr 0x008 ∧
      s.hostWrite a v = s.writeLoc v (locate s.config (portOffset a))) := by
  by_cases h4 : a = portAddr 0x004
  · subst h4
    rw [hostWrite_ctrl, State.writeCtrl]
    cases hv : v.getLsbD 0 <;> simp
  · by_cases h8 : a = portAddr 0x008
    · subst h8
      exact .inr (.inl ⟨rfl, hostWrite_cmd s v⟩)
    · cases hb : s.status.busy
      · exact .inr (.inr (.inr ⟨rfl, h4, h8, hostWrite_loc hb h4 h8 v⟩))
      · exact .inr (.inr (.inl (hostWrite_busy hb h4 h8 v)))

/-- A store changes at most the two length registers, `FREQ`, `CLEN`, `CBITS`, `PBUF` and `RANK_VALID`. -/
theorem writeLoc_frame (s : State) (v : Word) (l : Loc) :
    s.writeLoc v l = { s with
      packedLen := (s.writeLoc v l).packedLen, expectedLen := (s.writeLoc v l).expectedLen,
      freq := (s.writeLoc v l).freq, clen := (s.writeLoc v l).clen,
      cbits := (s.writeLoc v l).cbits, pbuf := (s.writeLoc v l).pbuf,
      status := { s.status with rankValid := (s.writeLoc v l).status.rankValid } } := by
  cases l <;> rfl

/-- Only a store into `FREQ` touches the flags (20_memory.md R65). -/
theorem writeLoc_status (s : State) (v : Word) {l : Loc} (h : ∀ a, l ≠ .freq a) : (s.writeLoc v l).status = s.status := by
  cases l
  case freq a => exact absurd rfl (h a)
  all_goals rfl

/-- A `PBUF` word the map gives lies inside the buffer. -/
theorem locate_pbuf_bound {c : Config} {off j : Nat} (h : locate c off = .pbuf j) (h4 : off % 4 = 0) :
    4 * j + 4 ≤ c.pbufSize := by
  by_cases hr : off < 0x400
  · rw [locate_register c hr] at h
    rcases registerAt_cases off with e | e | e | e | e | e | e | e | e | e | e | e | e | e | e | e <;>
      rw [e.2] at h <;> cases h
  · rcases locate_region c hr with ⟨_, e⟩ | ⟨_, e⟩ | ⟨_, e⟩ | ⟨_, e⟩ | ⟨_, _, e⟩ | ⟨_, _, e⟩ | ⟨_, e, h1, h2, h3⟩ |
      ⟨_, e, _⟩ | e <;> rw [e] at h <;> cases h
    simp only [Config.pbufSize] at *
    omega

/-- A busy engine shows `ID`, `CTRL`, `CMD`, `STATUS` and zeroes, and nothing else it holds. -/
theorem readLocBusy_cases (s : State) (l : Loc) :
    (s.readLocBusy l = s.readLoc l ∧ (s.readLoc l).2 = s.draws) ∨
    s.readLocBusy l = (Config.freeWord s.draws, s.draws + 1) := by
  cases l <;> simp [State.readLocBusy, State.readLoc]

/-- A busy engine hides every location but `ID`, `CTRL`, `CMD`, `STATUS` and the unmapped offsets (20_memory.md R66). -/
theorem readLocBusy_hidden (s : State) {l : Loc}
    (h : l ∉ [Loc.id, Loc.ctrl, Loc.cmd, Loc.status, Loc.unmapped]) :
    s.readLocBusy l = (Config.freeWord s.draws, s.draws + 1) := by
  cases l <;> simp at h <;> rfl

/-! ### Each location has one offset -/

/-- The byte offset of a location (20_memory.md R61): the inverse of `locate` where something is mapped. -/
def Loc.offset : Loc → Nat
  | .id => 0x000
  | .ctrl => 0x004
  | .cmd => 0x008
  | .status => 0x00C
  | .err => 0x010
  | .errInfo => 0x014
  | .nnz => 0x018
  | .lastNz => 0x01C
  | .splitD => 0x020
  | .packedLen => 0x024
  | .expectedLen => 0x028
  | .outCount => 0x02C
  | .cursor => 0x030
  | .bitmask => 0x034
  | .nodeCount => 0x038
  | .freq a => 0x400 + 4 * a.toNat
  | .symOf r => 0x800 + 4 * r.toNat
  | .rankOf a => 0xC00 + 4 * a.toNat
  | .clen a => 0x1000 + 4 * a.toNat
  | .cbits a w => 0x2000 + 32 * a.toNat + 4 * w
  | .node n second => 0x80000 + 8 * n + (if second then 4 else 0)
  | .pbuf j => 0x10000000 + 4 * j
  | .obuf j => 0x20000000 + 4 * j
  | .unmapped => 0

theorem entryIndex_toNat {off : Nat} (h : off < 1024) : (entryIndex off).toNat = off / 4 := by
  rw [entryIndex, BitVec.toNat_ofNat, Nat.mod_eq_of_lt (by omega)]

theorem locate_offset (c : Config) {off : Nat} (h4 : off % 4 = 0) (hn : locate c off ≠ .unmapped) :
    (locate c off).offset = off := by
  by_cases h : off < 0x400
  · rw [locate_register c h] at hn ⊢
    rcases registerAt_cases off with e | e | e | e | e | e | e | e | e | e | e | e | e | e | e | e
    case' inr.inr.inr.inr.inr.inr.inr.inr.inr.inr.inr.inr.inr.inr.inr => exact absurd e.2 hn
    all_goals rw [e.2, e.1]; rfl
  revert hn
  rw [locate, if_neg h]
  by_cases h1 : off < 0x800
  · rw [if_pos h1, Loc.offset, entryIndex_toNat (by omega)]
    omega
  rw [if_neg h1]
  by_cases h2 : off < 0xC00
  · rw [if_pos h2, Loc.offset, entryIndex_toNat (by omega)]
    omega
  rw [if_neg h2]
  by_cases h3 : off < 0x1000
  · rw [if_pos h3, Loc.offset, entryIndex_toNat (by omega)]
    omega
  rw [if_neg h3]
  by_cases h4 : off < 0x1400
  · rw [if_pos h4, Loc.offset, entryIndex_toNat (by omega)]
    omega
  rw [if_neg h4]
  by_cases h5 : off < 0x2000
  · rw [if_pos h5]
    exact fun hn => absurd rfl hn
  rw [if_neg h5]
  by_cases h6 : off < 0x4000
  · have : (off - 0x2000) / 32 < 2 ^ 8 := by omega
    rw [if_pos h6, Loc.offset, BitVec.toNat_ofNat, Nat.mod_eq_of_lt this]
    omega
  rw [if_neg h6]
  by_cases h7 : off < 0x80000
  · rw [if_pos h7]
    exact fun hn => absurd rfl hn
  rw [if_neg h7]
  by_cases h8 : off < 0x80000 + 8 * c.nodeMax
  · rw [if_pos h8, Loc.offset]
    intro _
    by_cases h9 : (off - 0x80000) % 8 = 4
    · simp only [h9, decide_true, if_true]
      omega
    · simp only [h9, decide_false, Bool.false_eq_true, if_false]
      omega
  rw [if_neg h8]
  by_cases h9 : off < 0x10000000
  · rw [if_pos h9]
    exact fun hn => absurd rfl hn
  rw [if_neg h9]
  by_cases h10 : off < 0x10000000 + c.pbufSize
  · rw [if_pos h10, Loc.offset]
    omega
  rw [if_neg h10]
  by_cases h11 : off < 0x20000000
  · rw [if_pos h11]
    exact fun hn => absurd rfl hn
  rw [if_neg h11]
  by_cases h12 : off < 0x20000000 + c.obufSize
  · rw [if_pos h12, Loc.offset]
    omega
  rw [if_neg h12]
  exact fun hn => absurd rfl hn

/-- Two addresses at which the same thing is mapped are one address. -/
theorem locate_inj {c : Config} {a b : BitVec 28} (h : locate c (portOffset a) = locate c (portOffset b))
    (hn : locate c (portOffset a) ≠ .unmapped) : a = b := by
  apply portOffset_inj
  rw [← locate_offset c (portOffset_mod a) hn, h, locate_offset c (portOffset_mod b) (h ▸ hn)]

/-- A location is an entry of `FREQ` only in the `FREQ` region. -/
theorem locate_ne_freq (c : Config) {off : Nat} (h4 : off % 4 = 0) (h : ¬ (0x400 ≤ off ∧ off < 0x800)) (a : Byte) :
    locate c off ≠ .freq a := by
  intro e
  have := locate_offset c h4 (by rw [e]; simp)
  have := a.isLt
  rw [e, Loc.offset] at *
  omega

/-! ### Where the writable regions lie -/

theorem locate_freq (c : Config) {off : Nat} (h1 : 0x400 ≤ off) (h2 : off < 0x800) :
    locate c off = .freq (entryIndex (off - 0x400)) := by
  simp (disch := omega) only [locate, if_neg, if_pos]

theorem locate_symOf (c : Config) {off : Nat} (h1 : 0x800 ≤ off) (h2 : off < 0xC00) :
    locate c off = .symOf (entryIndex (off - 0x800)) := by
  simp (disch := omega) only [locate, if_neg, if_pos]

theorem locate_rankOf (c : Config) {off : Nat} (h1 : 0xC00 ≤ off) (h2 : off < 0x1000) :
    locate c off = .rankOf (entryIndex (off - 0xC00)) := by
  simp (disch := omega) only [locate, if_neg, if_pos]

theorem locate_clen (c : Config) {off : Nat} (h1 : 0x1000 ≤ off) (h2 : off < 0x1400) :
    locate c off = .clen (entryIndex (off - 0x1000)) := by
  simp (disch := omega) only [locate, if_neg, if_pos]

theorem locate_cbits (c : Config) {off : Nat} (h1 : 0x2000 ≤ off) (h2 : off < 0x4000) :
    locate c off = .cbits (BitVec.ofNat 8 ((off - 0x2000) / 32)) ((off - 0x2000) % 32 / 4) := by
  simp (disch := omega) only [locate, if_neg, if_pos]

theorem locate_node (c : Config) {off : Nat} (h1 : 0x80000 ≤ off) (h2 : off < 0x80000 + 8 * c.nodeMax) :
    locate c off = .node ((off - 0x80000) / 8) (decide ((off - 0x80000) % 8 = 4)) := by
  simp (disch := omega) only [locate, if_neg, if_pos]

theorem locate_pbuf (c : Config) {off : Nat} (h1 : 0x10000000 ≤ off) (h2 : off < 0x10000000 + c.pbufSize) :
    locate c off = .pbuf ((off - 0x10000000) / 4) := by
  have := nodeMax_le c
  simp (disch := omega) only [locate, if_neg, if_pos]

theorem locate_obuf (c : Config) {off : Nat} (h1 : 0x20000000 ≤ off) (h2 : off < 0x20000000 + c.obufSize) :
    locate c off = .obuf ((off - 0x20000000) / 4) := by
  have := nodeMax_le c
  have := pbufSize_le c
  simp (disch := omega) only [locate, if_neg, if_pos]

/-! ### Reads -/

theorem hostRead_idle {s : State} (hb : s.status.busy = false) (a : BitVec 28) :
    s.hostRead a = s.readLoc (locate s.config (portOffset a)) := by
  simp [State.hostRead, hb]

theorem hostRead_busy {s : State} (hb : s.status.busy = true) (a : BitVec 28) :
    s.hostRead a = s.readLocBusy (locate s.config (portOffset a)) := by
  simp [State.hostRead, hb]

/-- A read never takes a draw back. -/
theorem hostRead_draws (s : State) (a : BitVec 28) : s.draws ≤ (s.hostRead a).2 := by
  have idle : ∀ l, s.draws ≤ (s.readLoc l).2 := by
    intro l
    cases l
    case node =>
      simp only [State.readLoc]
      split
      · exact Nat.le_refl _
      · exact Nat.le_succ _
    case pbuf => exact wordOrFree_draws _ _ _
    case obuf => exact wordOrFree_draws _ _ _
    all_goals exact Nat.le_refl _
  cases hb : s.status.busy
  · rw [hostRead_idle hb]
    exact idle _
  · rw [hostRead_busy hb]
    rcases readLocBusy_cases s (locate s.config (portOffset a)) with ⟨e, _⟩ | e <;> rw [e]
    · exact idle _
    · exact Nat.le_succ _

/-! ### The words of a `CBITS` entry -/

theorem getLsbD_wordMask (k : Nat) : ((BitVec.allOnes 32).setWidth 256).getLsbD k = decide (k < 32) := by
  rw [BitVec.getLsbD_setWidth, BitVec.getLsbD_allOnes]
  by_cases h : k < 32
  · simp [h, show k < 256 by omega]
  · simp [h]

/-- Bit by bit: the 32 bits of word `w` are the new word's, every other bit stays. -/
theorem getLsbD_setCbitsWord (x : BitVec 256) (w : Nat) (v : Word) {k : Nat} (hk : k < 256) :
    (setCbitsWord x w v).getLsbD k =
      if 32 * w ≤ k ∧ k < 32 * w + 32 then v.getLsbD (k - 32 * w) else x.getLsbD k := by
  rw [setCbitsWord, BitVec.getLsbD_or, BitVec.getLsbD_and, BitVec.getLsbD_not, BitVec.getLsbD_shiftLeft,
    BitVec.getLsbD_shiftLeft, getLsbD_wordMask, BitVec.getLsbD_setWidth]
  by_cases h1 : k < 32 * w
  · rw [if_neg (by omega)]
    simp [h1, hk]
  · by_cases h2 : k < 32 * w + 32
    · rw [if_pos (by omega)]
      simp [h1, hk, show k - 32 * w < 32 by omega, show k - 32 * w < 256 by omega]
    · rw [if_neg (by omega)]
      have : v.getLsbD (k - 32 * w) = false := BitVec.getLsbD_of_ge v _ (by omega)
      simp [h1, hk, this, show ¬ k - 32 * w < 32 by omega]

/-- The word written reads back. -/
theorem cbitsWord_set_same (x : BitVec 256) {w : Nat} (hw : w < 8) (v : Word) :
    cbitsWord (setCbitsWord x w v) w = v := by
  apply BitVec.eq_of_getLsbD_eq
  intro i hi
  rw [cbitsWord, BitVec.getLsbD_extractLsb', getLsbD_setCbitsWord _ _ _ (by omega), if_pos (by omega)]
  simp [hi]

/-- Every other word of the entry stays. -/
theorem cbitsWord_set_other (x : BitVec 256) {w w' : Nat} (h : w' ≠ w) (hw : w' < 8) (v : Word) :
    cbitsWord (setCbitsWord x w v) w' = cbitsWord x w' := by
  apply BitVec.eq_of_getLsbD_eq
  intro i hi
  rw [cbitsWord, cbitsWord, BitVec.getLsbD_extractLsb', BitVec.getLsbD_extractLsb',
    getLsbD_setCbitsWord _ _ _ (by omega), if_neg (by omega)]

end Sys2Proof.Machine
end

