-- ==== Sys2Proof/Laws/Trie.lean ====
section
/-! SUPPORT. Inserting codes into the arena (41_trie.md R131): one equation per way a step of the walk goes, and which
faults it can end in. -/

namespace Sys2Proof.Machine

/-! ### Nodes -/

theorem nodeAt_set_same (ns : List Node) {n : Nat} (h : n < ns.length) (x : Node) : nodeAt (ns.set n x) n = x := by
  simp [nodeAt, h]

theorem nodeAt_set_other (ns : List Node) {n m : Nat} (h : m ≠ n) (x : Node) :
    nodeAt (ns.set n x) m = nodeAt ns m := by
  simp [nodeAt, Ne.symm h]

theorem nodeAt_append_left (ns ms : List Node) {n : Nat} (h : n < ns.length) : nodeAt (ns ++ ms) n = nodeAt ns n := by
  simp [nodeAt, List.getElem?_append_left h]

theorem nodeAt_append_new (ns : List Node) (x : Node) : nodeAt (ns ++ [x]) ns.length = x := by
  simp [nodeAt]

theorem nodeAt_beyond (ns : List Node) {n : Nat} (h : ns.length ≤ n) : nodeAt ns n = Node.empty := by
  simp [nodeAt, h]

@[simp] theorem Node.child_setChild_same (x : Node) (b : Bool) (c : Nat) : (x.setChild b c).child b = some c := by
  cases b <;> rfl

theorem Node.child_setChild_other (x : Node) {b b' : Bool} (h : b' ≠ b) (c : Nat) :
    (x.setChild b c).child b' = x.child b' := by
  cases b <;> cases b' <;> first | rfl | exact absurd rfl h

@[simp] theorem Node.setChild_sym (x : Node) (b : Bool) (c : Nat) : (x.setChild b c).sym = x.sym := by
  cases b <;> rfl

@[simp] theorem Node.empty_child (b : Bool) : Node.empty.child b = none := by cases b <;> rfl

@[simp] theorem Node.empty_sym : Node.empty.sym = none := rfl

theorem Node.isLeaf_iff (x : Node) : x.isLeaf = true ↔ ∀ b, x.child b = none := by
  constructor
  · intro h b
    simp only [Node.isLeaf, Bool.and_eq_true, Option.isNone_iff_eq_none] at h
    cases b
    · exact h.1
    · exact h.2
  · intro h
    simp only [Node.isLeaf, Bool.and_eq_true, Option.isNone_iff_eq_none]
    exact ⟨h false, h true⟩

/-! ### One step of the walk -/

section
variable {nodeMax : Nat} {a : Byte} {n i : Nat} {ns : List Node}

/-- The end of a code on a node that is not bare. -/
theorem insertCode_end_taken (h : ¬ ((∀ b, (nodeAt ns n).child b = none) ∧ (nodeAt ns n).sym = none)) :
    insertCode nodeMax a [] i n ns = .error { cause := .prefixEnd, info := insertInfo i a } := by
  have : ((nodeAt ns n).left.isSome || (nodeAt ns n).right.isSome || (nodeAt ns n).sym.isSome) = true := by
    by_contra hc
    simp only [Bool.not_eq_true, Bool.or_eq_false_iff, Option.isSome_eq_false_iff, Option.isNone_iff_eq_none] at hc
    exact h ⟨fun b => by cases b <;> simp [Node.child, hc.1], hc.2⟩
  simp only [insertCode, this, if_true]

/-- The end of a code on a bare node: the leaf is attached. -/
theorem insertCode_end (h : ∀ b, (nodeAt ns n).child b = none) (hs : (nodeAt ns n).sym = none) :
    insertCode nodeMax a [] i n ns = .ok (ns.set n { left := none, right := none, sym := some a }) := by
  have hl : (nodeAt ns n).left = none := h false
  have hr : (nodeAt ns n).right = none := h true
  simp only [insertCode, hl, hr, hs]
  rfl

variable {b : Bool} {bits : List Bool}

/-- A code that passes through a node that holds a symbol. -/
theorem insertCode_through (h : (nodeAt ns n).sym ≠ none) :
    insertCode nodeMax a (b :: bits) i n ns = .error { cause := .prefixThrough, info := insertInfo i a } := by
  have : (nodeAt ns n).sym.isSome = true := Option.isSome_iff_ne_none.2 h
  simp only [insertCode, this, if_true]

/-- The child is there. -/
theorem insertCode_walk (h : (nodeAt ns n).sym = none) {c : Nat} (hc : (nodeAt ns n).child b = some c) :
    insertCode nodeMax a (b :: bits) i n ns = insertCode nodeMax a bits (i + 1) c ns := by
  simp [insertCode, h, hc]

/-- The child is absent and the arena is full. -/
theorem insertCode_full (h : (nodeAt ns n).sym = none) (hc : (nodeAt ns n).child b = none)
    (hf : ns.length = nodeMax) :
    insertCode nodeMax a (b :: bits) i n ns = .error { cause := .nodes, info := insertInfo i a } := by
  simp [insertCode, h, hc, hf]

/-- The child is absent and is created. -/
theorem insertCode_create (h : (nodeAt ns n).sym = none) (hc : (nodeAt ns n).child b = none)
    (hf : ns.length ≠ nodeMax) :
    insertCode nodeMax a (b :: bits) i n ns =
      insertCode nodeMax a bits (i + 1) ns.length
        (ns.set n ((nodeAt ns n).setChild b ns.length) ++ [Node.empty]) := by
  simp [insertCode, h, hc, hf]

end

/-! ### What the build answers -/

/-- The faults of an insertion: one of three causes, with the index and the symbol as information. -/
theorem insertCode_error {nodeMax : Nat} {a : Byte} {bits : List Bool} {i n : Nat} {ns : List Node} {f : FaultReport}
    (h : insertCode nodeMax a bits i n ns = .error f) :
    ∃ x, i ≤ x ∧ x ≤ i + bits.length ∧ f.info = insertInfo x a ∧
      ((f.cause = .prefixEnd ∧ x = i + bits.length) ∨
       ((f.cause = .prefixThrough ∨ f.cause = .nodes) ∧ x < i + bits.length)) := by
  induction bits generalizing i n ns with
  | nil =>
    simp only [insertCode] at h
    split at h
    · cases h
      exact ⟨i, by simp⟩
    · cases h
  | cons b bits ih =>
    simp only [insertCode] at h
    split at h
    · cases h
      exact ⟨i, by simp⟩
    · split at h
      · obtain ⟨x, h1, h2, h3, h4⟩ := ih h
        refine ⟨x, by omega, by simp; omega, h3, ?_⟩
        simpa [Nat.add_assoc, Nat.add_comm 1] using h4
      · split at h
        · cases h
          exact ⟨i, by simp⟩
        · obtain ⟨x, h1, h2, h3, h4⟩ := ih h
          refine ⟨x, by omega, by simp; omega, h3, ?_⟩
          simpa [Nat.add_assoc, Nat.add_comm 1] using h4

theorem insertSymbols_error {nodeMax : Nat} {code : Byte → List Bool} {l : List Byte} {ns : List Node}
    {f : FaultReport} (h : insertSymbols nodeMax code l ns = .error f) :
    ∃ a ∈ l, ∃ x, code a ≠ [] ∧ x ≤ (code a).length ∧ f.info = insertInfo x a ∧
      (f.cause = .prefixEnd ∨ (f.cause = .prefixThrough ∧ x < (code a).length) ∨
        (f.cause = .nodes ∧ x < (code a).length)) := by
  induction l generalizing ns with
  | nil => simp [insertSymbols] at h
  | cons a l ih =>
    simp only [insertSymbols] at h
    cases hs : insertSymbol nodeMax code a ns with
    | error g =>
      rw [hs] at h
      cases h
      unfold insertSymbol at hs
      split at hs
      · cases hs
      · next he =>
        obtain ⟨x, h1, h2, h3, h4⟩ := insertCode_error hs
        refine ⟨a, by simp, x, by simpa using he, by omega, h3, ?_⟩
        rcases h4 with h4 | ⟨h4 | h4, h5⟩
        · exact .inl h4.1
        · exact .inr (.inl ⟨h4, by omega⟩)
        · exact .inr (.inr ⟨h4, by omega⟩)
    | ok ns' =>
      rw [hs] at h
      obtain ⟨a', ha', rest⟩ := ih h
      exact ⟨a', List.mem_cons_of_mem _ ha', rest⟩

/-- The faults of `BuildTrie` (60_exceptions.md R203). -/
theorem buildTrie_error {nodeMax : Nat} {code : Byte → List Bool} {f : FaultReport}
    (h : buildTrie nodeMax code = .error f) :
    ∃ a x, code a ≠ [] ∧ x ≤ (code a).length ∧ f.info = insertInfo x a ∧
      (f.cause = .prefixEnd ∨ (f.cause = .prefixThrough ∧ x < (code a).length) ∨
        (f.cause = .nodes ∧ x < (code a).length)) := by
  obtain ⟨a, _, x, rest⟩ := insertSymbols_error h
  exact ⟨a, x, rest⟩

/-! ### The order of creation (41_trie.md R133) -/

/-- One entry more at the end: it is kept where it is new. -/
theorem eraseDups_concat (l : List (List Bool)) (x : List Bool) :
    (l ++ [x]).eraseDups = if x ∈ l then l.eraseDups else l.eraseDups ++ [x] := by
  rw [List.eraseDups_append]
  by_cases h : x ∈ l <;> simp [List.removeAll, h, List.eraseDups_cons]

theorem nodup_eraseDups (l : List (List Bool)) : l.eraseDups.Nodup := by
  induction l using List.reverseRecOn with
  | nil => simp
  | append_singleton l x ih =>
    rw [eraseDups_concat]
    split
    · exact ih
    · next h => exact List.nodup_append.2 ⟨ih, by simp, by rintro y hy _ hz rfl; simp_all⟩

theorem mem_creationOrder {codes : List (List Bool)} {p : List Bool} :
    p ∈ creationOrder codes ↔ p = [] ∨ ∃ c ∈ codes, p <+: c := by
  simp [creationOrder]

theorem creationOrder_nodup (codes : List (List Bool)) : (creationOrder codes).Nodup := nodup_eraseDups _

/-- An empty code makes no node. -/
theorem creationOrder_empty (codes : List (List Bool)) : creationOrder (codes ++ [[]]) = creationOrder codes := by
  have h : ([] : List Bool) ∈ [] :: codes.flatMap List.inits := by simp
  simp only [creationOrder, List.flatMap_append, List.flatMap_singleton]
  exact (eraseDups_concat _ _).trans (if_pos h)

/-- One bit more of the code being inserted makes one node more, unless its path has one. -/
theorem creationOrder_bit (codes : List (List Bool)) (p : List Bool) (b : Bool) :
    creationOrder (codes ++ [p ++ [b]]) =
      if p ++ [b] ∈ creationOrder (codes ++ [p]) then creationOrder (codes ++ [p])
      else creationOrder (codes ++ [p]) ++ [p ++ [b]] := by
  have h : (p ++ [b]).inits = p.inits ++ [p ++ [b]] := by simp
  simp only [creationOrder, List.flatMap_append, List.flatMap_singleton, h, List.mem_eraseDups]
  rw [← List.append_assoc, ← List.cons_append, eraseDups_concat]

/-! ### The arena named by paths -/

theorem getElem?_concat {α : Type} (l : List α) (x y : α) (c : Nat) :
    (l ++ [x])[c]? = some y ↔ l[c]? = some y ∨ (c = l.length ∧ y = x) := by
  rcases Nat.lt_trichotomy c l.length with h | h | h
  · rw [List.getElem?_append_left h]
    exact ⟨.inl, fun e => e.elim id fun e => absurd e.1 (by omega)⟩
  · subst h
    simp [eq_comm]
  · rw [List.getElem?_eq_none (by simp; omega), List.getElem?_eq_none (by omega)]
    simp only [reduceCtorEq, false_or, false_iff, not_and]
    omega

theorem index_unique {α : Type} {l : List α} (h : l.Nodup) {i j : Nat} {x : α} (hi : l[i]? = some x)
    (hj : l[j]? = some x) : i = j := by
  obtain ⟨hi', ei⟩ := List.getElem?_eq_some_iff.1 hi
  obtain ⟨hj', ej⟩ := List.getElem?_eq_some_iff.1 hj
  exact (h.getElem_inj_iff (hi := hi') (hj := hj')).1 (ei.trans ej.symm)

/-- `ps` gives each node of the arena `ns` its path from the root, and the symbols of `done` with a non-empty code are
attached at their codes (41_trie.md R131, R136). -/
structure Paths (code : Byte → List Bool) (done : List Byte) (ns : List Node) (ps : List (List Bool)) : Prop where
  len : ps.length = ns.length
  nodup : ps.Nodup
  root : ps[0]? = some []
  child : ∀ {n : Nat} {p : List Bool}, ps[n]? = some p → ∀ (b : Bool) (c : Nat),
    (nodeAt ns n).child b = some c ↔ ps[c]? = some (p ++ [b])
  sym : ∀ {n : Nat} {p : List Bool}, ps[n]? = some p → ∀ a : Byte,
    (nodeAt ns n).sym = some a ↔ a ∈ done ∧ code a ≠ [] ∧ code a = p
  leaf : ∀ {n : Nat} {p : List Bool}, ps[n]? = some p → (nodeAt ns n).sym ≠ none →
    ∀ b, (nodeAt ns n).child b = none
  cover : ∀ {a : Byte}, a ∈ done → code a ≠ [] → code a ∈ ps
  closed : ∀ {p : List Bool} {b : Bool}, p ++ [b] ∈ ps → p ∈ ps
  rise : ∀ {n c : Nat} {p : List Bool} {b : Bool}, ps[n]? = some p → ps[c]? = some (p ++ [b]) → n < c

/-- The fault of inserting the code of `a` where it collides with a symbol of `earlier` (41_trie.md R134,
60_exceptions.md R203): passing through the node of a code that is a proper prefix of it, or ending on a path of a
code it is a prefix of. -/
def Collides (code : Byte → List Bool) (earlier : List Byte) (a : Byte) (f : FaultReport) : Prop :=
  ∃ x, f.info = insertInfo x a ∧
    ((f.cause = .prefixThrough ∧ x < (code a).length ∧ ∃ b ∈ earlier, code b ≠ [] ∧ code b = (code a).take x) ∨
     (f.cause = .prefixEnd ∧ x = (code a).length ∧ ∃ b ∈ earlier, code b ≠ [] ∧ code a <+: code b))

/-- The fault of inserting the code of `a` where the arena is full (41_trie.md R131, 60_exceptions.md R203): the nodes of
the codes of `earlier` and of the first `x` bits of that of `a` fill it, and the next bit needs another. -/
def Overflows (nodeMax : Nat) (code : Byte → List Bool) (earlier : List Byte) (a : Byte) (f : FaultReport) : Prop :=
  f.cause = .nodes ∧ ∃ x, f.info = insertInfo x a ∧ x < (code a).length ∧
    (creationOrder (earlier.map code ++ [(code a).take x])).length = nodeMax ∧
    (code a).take (x + 1) ∉ creationOrder (earlier.map code ++ [(code a).take x])

namespace Paths

variable {code : Byte → List Bool} {done : List Byte} {ns : List Node} {ps : List (List Bool)}

theorem lt (h : Paths code done ns ps) {n : Nat} {p : List Bool} (hn : ps[n]? = some p) : n < ns.length := by
  rw [← h.len]
  exact (List.getElem?_eq_some_iff.1 hn).1

theorem get (h : Paths code done ns ps) {n : Nat} (hn : n < ns.length) : ∃ p, ps[n]? = some p :=
  ⟨_, List.getElem?_eq_getElem (h.len ▸ hn)⟩

/-- The arena with the root alone. -/
theorem start (code : Byte → List Bool) : Paths code [] [Node.empty] [[]] where
  len := rfl
  nodup := by simp
  root := rfl
  child := by
    intro n p hn b c
    have h0 : n = 0 := by
      have := (List.getElem?_eq_some_iff.1 hn).1
      simpa using this
    subst h0
    have h1 : nodeAt [Node.empty] 0 = Node.empty := rfl
    rw [h1, Node.empty_child]
    refine ⟨fun e => by simp at e, fun e => ?_⟩
    have := List.mem_of_getElem? e
    simp at this
  sym := by
    intro n p hn a
    have h0 : n = 0 := by
      have := (List.getElem?_eq_some_iff.1 hn).1
      simpa using this
    subst h0
    have h1 : nodeAt [Node.empty] 0 = Node.empty := rfl
    simp [h1]
  leaf := by
    intro n p hn hs b
    have h0 : n = 0 := by
      have := (List.getElem?_eq_some_iff.1 hn).1
      simpa using this
    subst h0
    exact Node.empty_child b
  cover := by simp
  closed := by simp
  rise := by
    intro n c p b _ e
    have := List.mem_of_getElem? e
    simp at this

/-- A node is created below a node that holds no symbol. -/
theorem create (h : Paths code done ns ps) {n : Nat} {pre : List Bool} {b : Bool} (hn : ps[n]? = some pre)
    (hs : (nodeAt ns n).sym = none) (hc : (nodeAt ns n).child b = none) :
    Paths code done (ns.set n ((nodeAt ns n).setChild b ns.length) ++ [Node.empty]) (ps ++ [pre ++ [b]]) := by
  have hnl := h.lt hn
  have hnew : pre ++ [b] ∉ ps := by
    intro hm
    obtain ⟨c, hc'⟩ := List.getElem?_of_mem hm
    rw [(h.child hn b c).2 hc'] at hc
    cases hc
  have hlen : ps.length = ns.length := h.len
  have hroot : 0 < ps.length := (List.getElem?_eq_some_iff.1 h.root).1
  have at_old : ∀ m, m < ns.length → m ≠ n →
      nodeAt (ns.set n ((nodeAt ns n).setChild b ns.length) ++ [Node.empty]) m = nodeAt ns m := fun m hm hne => by
    rw [nodeAt_append_left _ _ (by simpa using hm), nodeAt_set_other _ hne]
  have at_n : nodeAt (ns.set n ((nodeAt ns n).setChild b ns.length) ++ [Node.empty]) n =
      (nodeAt ns n).setChild b ns.length := by
    rw [nodeAt_append_left _ _ (by simpa using hnl), nodeAt_set_same _ hnl]
  have at_new : nodeAt (ns.set n ((nodeAt ns n).setChild b ns.length) ++ [Node.empty]) ns.length = Node.empty := by
    have := nodeAt_append_new (ns.set n ((nodeAt ns n).setChild b ns.length)) Node.empty
    rwa [List.length_set] at this
  refine ⟨by simp [hlen], ?_, ?_, ?_, ?_, ?_, fun ha hne => List.mem_append_left _ (h.cover ha hne), ?_, ?_⟩
  · rw [List.nodup_append]
    exact ⟨h.nodup, by simp, fun x hx y hy e => hnew (by simp at hy; rwa [← hy, ← e])⟩
  · rw [List.getElem?_append_left hroot]; exact h.root
  · intro m p hmp b' c
    rw [getElem?_concat]
    rcases (getElem?_concat _ _ _ _).1 hmp with hm | ⟨hm, hp⟩
    · by_cases hmn : m = n
      · subst hmn
        have hp : p = pre := Option.some.inj (hm.symm.trans hn)
        subst hp
        rw [at_n]
        by_cases hb : b' = b
        · subst hb
          rw [Node.child_setChild_same]
          constructor
          · intro e
            exact .inr ⟨by simpa [hlen, eq_comm] using e, rfl⟩
          · rintro (e | ⟨e, _⟩)
            · exact absurd (List.mem_of_getElem? e) hnew
            · rw [e, hlen]
        · rw [Node.child_setChild_other _ hb, h.child hm]
          exact ⟨.inl, fun e => e.elim id fun e => absurd (by simpa using e.2) hb⟩
      · rw [at_old m (h.lt hm) hmn, h.child hm]
        refine ⟨.inl, fun e => e.elim id fun e => ?_⟩
        have hp : p = pre := (List.append_inj' e.2 rfl).1
        subst hp
        exact absurd (index_unique h.nodup hm hn) hmn
    · rw [hlen] at hm
      subst hm hp
      rw [at_new, Node.empty_child]
      refine ⟨fun e => by simp at e, ?_⟩
      rintro (e | ⟨_, e⟩)
      · exact absurd (h.closed (List.mem_of_getElem? e)) hnew
      · exact absurd (congrArg List.length e) (by simp)
  · intro m p hm a
    rcases (getElem?_concat _ _ _ _).1 hm with hm | ⟨hm, hp⟩
    · by_cases hmn : m = n
      · subst hmn
        rw [at_n, Node.setChild_sym, h.sym hm]
      · rw [at_old m (h.lt hm) hmn, h.sym hm]
    · rw [hlen] at hm
      subst hm hp
      rw [at_new]
      simp only [Node.empty_sym, reduceCtorEq, false_iff]
      rintro ⟨ha, hne, he⟩
      exact hnew (he ▸ h.cover ha hne)
  · intro m p hm hsm b'
    rcases (getElem?_concat _ _ _ _).1 hm with hm | ⟨hm, hp⟩
    · by_cases hmn : m = n
      · subst hmn
        rw [at_n, Node.setChild_sym] at hsm
        exact absurd hs hsm
      · rw [at_old m (h.lt hm) hmn] at hsm ⊢
        exact h.leaf hm hsm b'
    · rw [hlen] at hm
      subst hm
      rw [at_new, Node.empty_child]
  · intro p b' hm
    rw [List.mem_append, List.mem_singleton] at hm ⊢
    rcases hm with hm | hm
    · exact .inl (h.closed hm)
    · have hp : p = pre := (List.append_inj' hm rfl).1
      subst hp
      exact .inl (List.mem_of_getElem? hn)
  · intro m c p b' hm hc'
    rcases (getElem?_concat _ _ _ _).1 hm with hm | ⟨hm, hp⟩
    · rcases (getElem?_concat _ _ _ _).1 hc' with hc' | ⟨hc', _⟩
      · exact h.rise hm hc'
      · rw [hc', hlen]; exact h.lt hm
    · rcases (getElem?_concat _ _ _ _).1 hc' with hc' | ⟨_, e⟩
      · subst hp
        exact absurd (h.closed (List.mem_of_getElem? hc')) hnew
      · subst hp
        exact absurd (congrArg List.length e) (by simp)

/-- A symbol with an empty code is skipped. -/
theorem skip (h : Paths code done ns ps) {a : Byte} (ha : code a = []) : Paths code (done ++ [a]) ns ps where
  len := h.len
  nodup := h.nodup
  root := h.root
  child := h.child
  sym := by
    intro n p hn a'
    rw [h.sym hn, List.mem_append, List.mem_singleton]
    constructor
    · exact fun ⟨x, y, z⟩ => ⟨.inl x, y, z⟩
    · rintro ⟨x | x, y, z⟩
      · exact ⟨x, y, z⟩
      · exact absurd (x ▸ ha) y
  leaf := h.leaf
  cover := by
    intro a' ha' hne
    rcases List.mem_append.1 ha' with x | x
    · exact h.cover x hne
    · exact absurd ((List.mem_singleton.1 x) ▸ ha) hne
  closed := h.closed
  rise := h.rise

/-- A symbol is attached at a bare node. -/
theorem attach (h : Paths code done ns ps) {n : Nat} {a : Byte} (hn : ps[n]? = some (code a)) (hne : code a ≠ [])
    (hc : ∀ b, (nodeAt ns n).child b = none) (hs : (nodeAt ns n).sym = none) :
    Paths code (done ++ [a]) (ns.set n { left := none, right := none, sym := some a }) ps := by
  have hnl := h.lt hn
  have at_n := nodeAt_set_same ns hnl { left := none, right := none, sym := some a }
  have bare : ∀ b, (nodeAt (ns.set n { left := none, right := none, sym := some a }) n).child b = none := fun b => by
    rw [at_n]; cases b <;> rfl
  refine ⟨by simp [h.len], h.nodup, h.root, ?_, ?_, ?_, ?_, h.closed, h.rise⟩
  · intro m p hm b c
    by_cases hmn : m = n
    · subst hmn
      rw [bare, ← h.child hm, hc]
    · rw [nodeAt_set_other _ hmn, h.child hm]
  · intro m p hm a'
    rw [List.mem_append, List.mem_singleton]
    by_cases hmn : m = n
    · subst hmn
      have hp : p = code a := Option.some.inj (hm.symm.trans hn)
      subst hp
      rw [at_n]
      constructor
      · intro e
        have e : a = a' := by simpa using e
        subst e
        exact ⟨.inr rfl, hne, rfl⟩
      · rintro ⟨x | x, y, z⟩
        · have := (h.sym hn a').2 ⟨x, y, z⟩
          rw [hs] at this
          cases this
        · rw [x]
    · rw [nodeAt_set_other _ hmn, h.sym hm]
      constructor
      · exact fun ⟨x, y, z⟩ => ⟨.inl x, y, z⟩
      · rintro ⟨x | x, y, z⟩
        · exact ⟨x, y, z⟩
        · subst x
          exact absurd (index_unique h.nodup (z ▸ hm) hn) hmn
  · intro m p hm hsm b
    by_cases hmn : m = n
    · subst hmn; exact bare b
    · rw [nodeAt_set_other _ hmn] at hsm ⊢
      exact h.leaf hm hsm b
  · intro a' ha' hne'
    rcases List.mem_append.1 ha' with x | x
    · exact h.cover x hne'
    · exact (List.mem_singleton.1 x) ▸ List.mem_of_getElem? hn

/-- Following bits from a node is going to the node with the longer path. -/
theorem follow (h : Paths code done ns ps) {n m : Nat} {p : List Bool} (hn : ps[n]? = some p) (bits : List Bool) :
    followPath ns n bits = some m ↔ ps[m]? = some (p ++ bits) := by
  induction bits generalizing n p with
  | nil =>
    simp only [followPath, Option.some.injEq, List.append_nil]
    exact ⟨fun e => e ▸ hn, fun e => index_unique h.nodup hn e⟩
  | cons b bits ih =>
    have hcl : ∀ q : List Bool, p ++ [b] ++ q ∈ ps → p ++ [b] ∈ ps := by
      intro q
      induction q using List.reverseRecOn with
      | nil => simp
      | append_singleton q x ihq =>
        intro hm
        rw [← List.append_assoc] at hm
        exact ihq (h.closed hm)
    rw [followPath]
    cases hc : (nodeAt ns n).child b with
    | none =>
      simp only [reduceCtorEq, false_iff]
      intro e
      have hm := hcl bits (by rw [List.append_assoc]; exact List.mem_of_getElem? e)
      obtain ⟨c, hc'⟩ := List.getElem?_of_mem hm
      rw [(h.child hn b c).2 hc'] at hc
      cases hc
    | some c =>
      rw [ih ((h.child hn b c).1 hc), List.append_assoc]
      rfl

/-- Every prefix of an attached code is a path. -/
theorem prefix_mem (h : Paths code done ns ps) {a : Byte} (ha : a ∈ done) (hne : code a ≠ []) {p : List Bool}
    (hp : p <+: code a) : p ∈ ps := by
  obtain ⟨q, hq⟩ := hp
  have hm : p ++ q ∈ ps := hq ▸ h.cover ha hne
  clear hq
  induction q using List.reverseRecOn with
  | nil => simpa using hm
  | append_singleton q x ihq =>
    rw [← List.append_assoc] at hm
    exact ihq (h.closed hm)

/-- The attached codes are pairwise non-prefixing. -/
theorem no_prefix (h : Paths code done ns ps) {a b : Byte} (ha : a ∈ done) (hb : b ∈ done) (hab : a ≠ b)
    (hne : code a ≠ []) (hne' : code b ≠ []) : ¬ code a <+: code b := by
  rintro ⟨q, hq⟩
  obtain ⟨n, hn⟩ := List.getElem?_of_mem (h.cover ha hne)
  have hsa := (h.sym hn a).2 ⟨ha, hne, rfl⟩
  cases q with
  | nil =>
    rw [List.append_nil] at hq
    have hsb := (h.sym hn b).2 ⟨hb, hne', hq.symm⟩
    rw [hsa] at hsb
    exact hab (Option.some.inj hsb)
  | cons x q =>
    have hm : code a ++ [x] ∈ ps := h.prefix_mem hb hne' ⟨q, by rw [← hq]; simp⟩
    obtain ⟨c, hc⟩ := List.getElem?_of_mem hm
    have := h.leaf hn (by rw [hsa]; simp) x
    rw [(h.child hn x c).2 hc] at this
    cases this

/-- Inserting one code from node `n` on, whose path is the part `pre` of it already walked. -/
theorem insert {nodeMax : Nat} {a : Byte} (hne : code a ≠ []) {bits : List Bool} {i n : Nat} {pre : List Bool}
    (h : Paths code done ns (creationOrder (done.map code ++ [pre])))
    (hn : (creationOrder (done.map code ++ [pre]))[n]? = some pre) (hcode : pre ++ bits = code a) (hi : i = pre.length)
    (hmax : ns.length ≤ nodeMax) :
    (∃ ns' : List Node, insertCode nodeMax a bits i n ns = .ok ns' ∧
      Paths code (done ++ [a]) ns' (creationOrder ((done ++ [a]).map code)) ∧ ns'.length ≤ nodeMax) ∨
    (∃ f : FaultReport, insertCode nodeMax a bits i n ns = .error f ∧ Collides code done a f) ∨
    (∃ f : FaultReport, insertCode nodeMax a bits i n ns = .error f ∧ Overflows nodeMax code done a f) := by
  induction bits generalizing i n ns pre with
  | nil =>
    rw [List.append_nil] at hcode
    subst hcode
    by_cases hb : (∀ b, (nodeAt ns n).child b = none) ∧ (nodeAt ns n).sym = none
    · refine .inl ⟨_, insertCode_end hb.1 hb.2, ?_, by simpa using hmax⟩
      simpa using h.attach hn hne hb.1 hb.2
    · refine .inr (.inl ⟨_, insertCode_end_taken hb, i, rfl, .inr ⟨rfl, hi, ?_⟩⟩)
      by_cases hs : (nodeAt ns n).sym = none
      · have : ∃ b c, (nodeAt ns n).child b = some c := by
          by_contra hc
          refine hb ⟨fun b => ?_, hs⟩
          cases hx : (nodeAt ns n).child b with
          | none => rfl
          | some c => exact absurd ⟨b, c, hx⟩ hc
        obtain ⟨b, c, hc⟩ := this
        have hm := mem_creationOrder.1 (List.mem_of_getElem? ((h.child hn b c).1 hc))
        simp only [List.append_eq_nil_iff, List.cons_ne_self, and_false, false_or, List.mem_append, List.mem_map,
          List.mem_singleton] at hm
        obtain ⟨_, ⟨a', ha', rfl⟩ | rfl, hp⟩ := hm
        · refine ⟨a', ha', ?_, (List.prefix_append _ _).trans hp⟩
          rintro e
          rw [e] at hp
          simp at hp
        · have := hp.length_le
          simp at this
      · obtain ⟨a', ha'⟩ := Option.ne_none_iff_exists'.1 hs
        obtain ⟨x, y, z⟩ := (h.sym hn a').1 ha'
        exact ⟨a', x, y, z ▸ List.prefix_rfl⟩
  | cons b bits ih =>
    by_cases hs : (nodeAt ns n).sym = none
    · have hcode' : pre ++ [b] ++ bits = code a := by rw [List.append_assoc]; exact hcode
      have hord := creationOrder_bit (done.map code) pre b
      cases hc : (nodeAt ns n).child b with
      | some c =>
        have hm := (h.child hn b c).1 hc
        rw [if_pos (List.mem_of_getElem? hm)] at hord
        rw [insertCode_walk hs hc]
        rw [← hord] at h hm
        exact ih h hm hcode' (by simp [hi]) hmax
      | none =>
        have hnew : pre ++ [b] ∉ creationOrder (done.map code ++ [pre]) := by
          intro hm
          obtain ⟨c, hc'⟩ := List.getElem?_of_mem hm
          rw [(h.child hn b c).2 hc'] at hc
          cases hc
        by_cases hf : ns.length = nodeMax
        · refine .inr (.inr ⟨_, insertCode_full hs hc hf, rfl, i, rfl, ?_, ?_, ?_⟩)
          · rw [← hcode, hi]
            simp
          · rw [← hcode, hi, List.take_left', h.len, hf]
            rfl
          · have h1 : (code a).take (i + 1) = pre ++ [b] := by rw [← hcode', hi, List.take_left' (by simp)]
            have h2 : (code a).take i = pre := by rw [← hcode, hi, List.take_left' rfl]
            rwa [h1, h2]
        · rw [if_neg hnew] at hord
          rw [insertCode_create hs hc hf]
          have h' := h.create hn hs hc
          have hn' : (creationOrder (done.map code ++ [pre]) ++ [pre ++ [b]])[ns.length]? = some (pre ++ [b]) :=
            (getElem?_concat _ _ _ _).2 (.inr ⟨h.len.symm, rfl⟩)
          rw [← hord] at h' hn'
          have hroom : ns.length + 1 ≤ nodeMax := by omega
          exact ih h' hn' hcode' (by simp [hi]) (by simpa using hroom)
    · refine .inr (.inl ⟨_, insertCode_through hs, i, rfl, .inl ⟨rfl, ?_, ?_⟩⟩)
      · rw [← hcode]
        simp [hi]
      obtain ⟨a', ha'⟩ := Option.ne_none_iff_exists'.1 hs
      obtain ⟨x, y, z⟩ := (h.sym hn a').1 ha'
      exact ⟨a', x, y, by rw [z, ← hcode, hi, List.take_left']; rfl⟩

/-- Inserting a list of symbols, none twice. -/
theorem insertAll {nodeMax : Nat} (l : List Byte) (h : Paths code done ns (creationOrder (done.map code)))
    (hnd : (done ++ l).Nodup) (hmax : ns.length ≤ nodeMax) :
    (∃ ns' : List Node, insertSymbols nodeMax code l ns = .ok ns' ∧
      Paths code (done ++ l) ns' (creationOrder ((done ++ l).map code)) ∧ ns'.length ≤ nodeMax) ∨
    (∃ (f : FaultReport) (before after : List Byte) (a : Byte), insertSymbols nodeMax code l ns = .error f ∧
      done ++ l = before ++ a :: after ∧ code a ≠ [] ∧
      (Collides code before a f ∨ Overflows nodeMax code before a f) ∧
      ∀ b ∈ before, ∀ c ∈ before, b ≠ c → code b ≠ [] → code c ≠ [] → ¬ code b <+: code c) := by
  induction l generalizing done ns with
  | nil => exact .inl ⟨ns, rfl, by simpa using h, hmax⟩
  | cons a l ih =>
    have hassoc : done ++ a :: l = done ++ [a] ++ l := by simp
    rw [hassoc] at hnd ⊢
    simp only [insertSymbols, insertSymbol]
    by_cases hne : code a = []
    · simp only [hne, List.isEmpty_nil, if_true]
      refine ih ?_ hnd hmax
      rw [List.map_append, List.map_singleton, hne, creationOrder_empty]
      exact h.skip hne
    · have he : (code a).isEmpty = false := by simpa using hne
      simp only [he, Bool.false_eq_true, if_false]
      have here : ∀ f, Collides code done a f ∨ Overflows nodeMax code done a f →
          ∃ (g : FaultReport) (before after : List Byte) (a' : Byte), Except.error f = (Except.error g : Except _ (List Node)) ∧
            done ++ [a] ++ l = before ++ a' :: after ∧ code a' ≠ [] ∧
            (Collides code before a' g ∨ Overflows nodeMax code before a' g) ∧
            ∀ b ∈ before, ∀ c ∈ before, b ≠ c → code b ≠ [] → code c ≠ [] → ¬ code b <+: code c :=
        fun f hf => ⟨f, done, l, a, rfl, by simp, hne, hf, fun b hb c hc hbc => h.no_prefix hb hc hbc⟩
      have hroot := h.root
      rw [← creationOrder_empty] at h hroot
      rcases h.insert (nodeMax := nodeMax) (i := 0) (bits := code a) hne hroot (List.nil_append _) rfl hmax with
        ⟨ns', e, h1, h2⟩ | ⟨f, e, h1⟩ | ⟨f, e, h1⟩ <;> rw [e]
      · exact ih h1 hnd h2
      · exact .inr (here f (.inl h1))
      · exact .inr (here f (.inr h1))

end Paths

/-! ### The whole table -/

theorem mem_codePrefixes {code : Byte → List Bool} {p : List Bool} :
    p ∈ codePrefixes code ↔ p ≠ [] ∧ ∃ a, p <+: code a := by
  have key : ∀ l : List Bool, p ∈ l.inits.tail ↔ p ≠ [] ∧ p <+: l := by
    intro l
    cases l with
    | nil => simp
    | cons x l =>
      rw [List.inits_cons, List.tail_cons, List.mem_map]
      constructor
      · rintro ⟨q, hq, rfl⟩
        exact ⟨by simp, by simpa using hq⟩
      · rintro ⟨hne, hp⟩
        cases p with
        | nil => exact absurd rfl hne
        | cons y p =>
          rw [List.cons_prefix_cons] at hp
          exact ⟨p, by simpa using hp.2, by rw [hp.1]⟩
  rw [codePrefixes, List.mem_dedup, List.mem_flatMap]
  constructor
  · rintro ⟨a, _, ha⟩
    exact ⟨((key _).1 ha).1, a, ((key _).1 ha).2⟩
  · rintro ⟨hne, a, ha⟩
    exact ⟨a, mem_allBytes a, (key _).2 ⟨hne, ha⟩⟩

/-- What stands before an entry of all bytes is the symbols below it, ascending. -/
theorem before_eq_take {before after : List Byte} {a : Byte} (h : allBytes = before ++ a :: after) :
    before = allBytes.take a.toNat := by
  have hl : before.length < allBytes.length := by simp [h]
  have ha : a = BitVec.ofNat 8 before.length := by
    rw [← allBytes_getElem _ hl]
    simp [h]
  rw [allBytes_length] at hl
  have hat : a.toNat = before.length := by rw [ha, BitVec.toNat_ofNat, Nat.mod_eq_of_lt hl]
  rw [hat, h]
  simp

/-- The symbols below the entry of a cut of all bytes are the ones before it. -/
theorem mem_before_iff {before after : List Byte} {a : Byte} (h : allBytes = before ++ a :: after) (b : Byte) :
    b ∈ before ↔ b.toNat < a.toNat := by
  have := a.isLt
  rw [before_eq_take h, List.mem_take_iff_getElem]
  simp only [allBytes_getElem, allBytes_length]
  constructor
  · rintro ⟨k, hk, rfl⟩
    rw [BitVec.toNat_ofNat, Nat.mod_eq_of_lt (by omega)]
    omega
  · intro hb
    have := b.isLt
    exact ⟨b.toNat, by omega, by simp⟩

/-- The order of creation lists the root and every prefix of a table. -/
theorem creationOrder_perm (code : Byte → List Bool) :
    (creationOrder (allBytes.map code)).Perm ([] :: codePrefixes code) := by
  rw [List.perm_ext_iff_of_nodup (creationOrder_nodup _)
    (List.nodup_cons.2 ⟨fun hm => (mem_codePrefixes.1 hm).1 rfl, List.nodup_dedup _⟩)]
  intro p
  rw [mem_creationOrder, List.mem_cons, mem_codePrefixes]
  have : (∃ c ∈ allBytes.map code, p <+: c) ↔ ∃ a, p <+: code a := by simp [mem_allBytes]
  rw [this]
  by_cases hp : p = [] <;> simp [hp]

theorem creationOrder_length (code : Byte → List Bool) :
    (creationOrder (allBytes.map code)).length = nodesNeeded code := by
  rw [(creationOrder_perm code).length_eq, List.length_cons, nodesNeeded, Nat.add_comm]

/-- A table that fills the arena part way needs more nodes than there are. -/
theorem Overflows.nodesNeeded {nodeMax : Nat} {code : Byte → List Bool} {earlier : List Byte} {a : Byte} {f : FaultReport}
    (h : Overflows nodeMax code earlier a f) : nodeMax < nodesNeeded code := by
  obtain ⟨_, x, _, _, h1, h2⟩ := h
  have hsub : ∀ p ∈ creationOrder (earlier.map code ++ [(code a).take x]) ++ [(code a).take (x + 1)],
      p ∈ creationOrder (allBytes.map code) := by
    intro p hp
    rw [mem_creationOrder]
    rcases List.mem_append.1 hp with hp | hp
    · refine (mem_creationOrder.1 hp).imp id ?_
      rintro ⟨c, hc, hp⟩
      rcases List.mem_append.1 hc with hc | hc
      · obtain ⟨b, _, rfl⟩ := List.mem_map.1 hc
        exact ⟨_, List.mem_map_of_mem (mem_allBytes b), hp⟩
      · rw [List.mem_singleton] at hc
        exact ⟨_, List.mem_map_of_mem (mem_allBytes a), (hc ▸ hp).trans (List.take_prefix _ _)⟩
    · rw [List.mem_singleton] at hp
      exact .inr ⟨_, List.mem_map_of_mem (mem_allBytes a), hp ▸ List.take_prefix _ _⟩
  have hnd : (creationOrder (earlier.map code ++ [(code a).take x]) ++ [(code a).take (x + 1)]).Nodup := by
    rw [List.nodup_append]
    refine ⟨creationOrder_nodup _, by simp, fun p hp q hq e => h2 ?_⟩
    rw [List.mem_singleton] at hq
    exact hq ▸ e ▸ hp
  have := (hnd.subperm hsub).length_le
  rw [creationOrder_length, List.length_append, h1] at this
  simp only [List.length_singleton] at this
  omega

/-- How `BuildTrie` ends: with the trie of the table; or at the first symbol whose code collides with an earlier one, or
finds no node left. -/
theorem buildTrie_cases (nodeMax : Nat) (hmax : 1 ≤ nodeMax) (code : Byte → List Bool) :
    (∃ ns, buildTrie nodeMax code = .ok ns ∧ Paths code allBytes ns (creationOrder (allBytes.map code)) ∧
      ns.length ≤ nodeMax) ∨
    (∃ (f : FaultReport) (before after : List Byte) (a : Byte), buildTrie nodeMax code = .error f ∧
      allBytes = before ++ a :: after ∧ code a ≠ [] ∧
      (Collides code before a f ∨ Overflows nodeMax code before a f) ∧
      ∀ b ∈ before, ∀ c ∈ before, b ≠ c → code b ≠ [] → code c ≠ [] → ¬ code b <+: code c) := by
  rcases (Paths.start code).insertAll (nodeMax := nodeMax) allBytes (by simpa using allBytes_nodup)
      (by simpa using hmax) with h | h
  · exact .inl h
  · exact .inr h

/-- A collision is a violation of prefix-freedom. -/
theorem Collides.not_prefixFree {code : Byte → List Bool} {earlier : List Byte} {a : Byte} {f : FaultReport}
    (h : Collides code earlier a f) (ha : a ∉ earlier) (hne : code a ≠ []) : ¬ PrefixFree code := by
  intro hpf
  obtain ⟨x, _, ⟨_, _, b, hb, hbne, e⟩ | ⟨_, _, b, hb, hbne, hp⟩⟩ := h
  · exact hpf b a (fun e => ha (e ▸ hb)) hbne hne (e ▸ List.take_prefix _ _)
  · exact hpf a b (fun e => ha (e ▸ hb)) hne hbne hp

/-- A built arena has one node for the root and one for each prefix. -/
theorem Paths.length_eq {code : Byte → List Bool} {ns : List Node}
    (h : Paths code allBytes ns (creationOrder (allBytes.map code))) : ns.length = nodesNeeded code := by
  rw [← h.len, creationOrder_length]

/-- The index of a node is the place of its path in the order of creation (41_trie.md R133). -/
theorem Paths.index_iff {code : Byte → List Bool} {ns : List Node}
    (h : Paths code allBytes ns (creationOrder (allBytes.map code))) (n : Nat) (p : List Bool) :
    followPath ns 0 p = some n ↔ (creationOrder (allBytes.map code))[n]? = some p := by
  simpa using h.follow h.root p (m := n)

/-- A built table is prefix-free (41_trie.md R136 (d)). -/
theorem Paths.prefixFree {code : Byte → List Bool} {ns : List Node} {ps : List (List Bool)}
    (h : Paths code allBytes ns ps) : PrefixFree code :=
  fun a b hab ha hb => h.no_prefix (mem_allBytes a) (mem_allBytes b) hab ha hb

/-- Every code of a built table leads to its leaf (41_trie.md R136 (a)). -/
theorem Paths.trieHolds {code : Byte → List Bool} {ns : List Node} {ps : List (List Bool)}
    (h : Paths code allBytes ns ps) : TrieHolds ns code := by
  intro a hne
  obtain ⟨n, hn⟩ := List.getElem?_of_mem (h.cover (mem_allBytes a) hne)
  refine ⟨n, (h.follow h.root _).2 (by simpa using hn), ?_⟩
  have hs := (h.sym hn a).2 ⟨mem_allBytes a, hne, rfl⟩
  have hl := h.leaf hn (by rw [hs]; simp)
  cases hx : nodeAt ns n with
  | mk l r s =>
    rw [hx] at hs hl
    have h1 := hl false
    have h2 := hl true
    simp only [Node.child, Bool.false_eq_true, if_false, if_true] at h1 h2 hs
    simp [h1, h2, hs]

theorem isChild_iff {ns : List Node} {n c : Nat} : IsChild ns n c ↔ ∃ b, (nodeAt ns n).child b = some c := by
  constructor
  · rintro (h | h)
    · exact ⟨false, h⟩
    · exact ⟨true, h⟩
  · rintro ⟨b, h⟩
    cases b
    · exact .inl h
    · exact .inr h

/-- A built arena has the shape of a trie (10_state.md R52 (e)). -/
theorem Paths.trieShape {code : Byte → List Bool} {ns : List Node}
    (h : Paths code allBytes ns (creationOrder (allBytes.map code))) : TrieShape ns := by
  refine ⟨?_, ?_, ?_, ?_⟩
  · intro n c hn hc
    obtain ⟨b, hb⟩ := isChild_iff.1 hc
    obtain ⟨p, hp⟩ := h.get hn
    have := (h.child hp b c).1 hb
    exact ⟨h.rise hp this, h.lt this⟩
  · intro c h0 hc
    obtain ⟨p, hp⟩ := h.get hc
    rcases List.eq_nil_or_concat p with rfl | ⟨q, b, rfl⟩
    · have := index_unique h.nodup hp h.root
      omega
    · obtain ⟨n, hn⟩ := List.getElem?_of_mem (h.closed (List.mem_of_getElem? (by simpa using hp)))
      refine ⟨n, h.lt hn, isChild_iff.2 ⟨b, (h.child hn b c).2 (by simpa using hp)⟩, ?_⟩
      intro m hm hmc
      obtain ⟨b', hb'⟩ := isChild_iff.1 hmc
      obtain ⟨p', hp'⟩ := h.get hm
      have e := (h.child hp' b' c).1 hb'
      have : p' = q := by
        have := Option.some.inj (e.symm.trans hp)
        simp only [List.concat_eq_append] at this
        exact (List.append_inj' this rfl).1
      subst this
      exact index_unique h.nodup hp' hn
  · intro n h0 hn hl
    obtain ⟨p, hp⟩ := h.get hn
    rcases mem_creationOrder.1 (List.mem_of_getElem? hp) with rfl | ⟨_, hc, q, hq⟩
    · have := index_unique h.nodup hp h.root
      omega
    · obtain ⟨a, _, rfl⟩ := List.mem_map.1 hc
      have hne : p ≠ [] := by
        rintro rfl
        have := index_unique h.nodup hp h.root
        omega
      have hne' : code a ≠ [] := by rw [← hq]; simp [hne]
      cases q with
      | nil =>
        rw [(h.sym hp a).2 ⟨mem_allBytes a, hne', by simpa using hq.symm⟩]
        rfl
      | cons b q =>
        have hm := h.prefix_mem (p := p ++ [b]) (mem_allBytes a) hne' ⟨q, by rw [← hq]; simp⟩
        obtain ⟨c, hc⟩ := List.getElem?_of_mem hm
        have := (Node.isLeaf_iff _).1 hl b
        rw [(h.child hp b c).2 hc] at this
        cases this
  · intro n hn hl
    obtain ⟨p, hp⟩ := h.get hn
    by_contra hs
    have := (Node.isLeaf_iff _).2 (h.leaf hp hs)
    rw [hl] at this
    cases this

/-- What `BuildTrie` answers is a trie. -/
theorem trieShape_of_buildTrie {nodeMax : Nat} (hmax : 1 ≤ nodeMax) {code : Byte → List Bool} {ns : List Node}
    (h : buildTrie nodeMax code = .ok ns) : TrieShape ns := by
  rcases buildTrie_cases nodeMax hmax code with ⟨_, e, hp, _⟩ | ⟨_, _, _, _, e, _⟩ <;> rw [h] at e <;> cases e
  exact hp.trieShape

end Sys2Proof.Machine
end

