-- ==== Sys2Proof/Laws/Commands.lean ====
section
/-! SUPPORT. Everything a command can answer, said once; what a walk of the packed stream keeps; and the induction over
one step that the invariants share. -/

namespace Sys2Proof.Machine

/-! ### Commands always answer a next state -/

theorem exec_next (i : Instr) (s : State) : ∃ t, exec i s = .next t := by
  cases i with
  | nop => exact ⟨_, rfl⟩
  | rank => exact ⟨_, rfl⟩
  | assign => exact ⟨_, rfl⟩
  | tfree => exact ⟨_, rfl⟩
  | split first last =>
    simp only [exec, execSplit]
    split
    · exact ⟨_, rfl⟩
    · split <;> exact ⟨_, rfl⟩
  | part =>
    simp only [exec, execPart]
    split <;> exact ⟨_, rfl⟩
  | tbuild =>
    simp only [exec, execTbuild]
    split
    · exact ⟨_, rfl⟩
    · split <;> exact ⟨_, rfl⟩
  | decode =>
    simp only [exec, execDecode]
    split
    · exact ⟨_, rfl⟩
    · split
      · exact ⟨_, rfl⟩
      · split <;> exact ⟨_, rfl⟩
  | blkdec =>
    simp only [exec, execBlkdec]
    split
    · exact ⟨_, rfl⟩
    · split
      · exact ⟨_, rfl⟩
      · split
        · exact ⟨_, rfl⟩
        · split <;> exact ⟨_, rfl⟩

/-- The causes a command raises itself, by the `raised by` column of 60_exceptions.md R202. -/
def ownCauses : Instr → List Cause
  | .nop => []
  | .rank => []
  | .split _ _ => [.seqRank, .operand]
  | .part => [.seqRank]
  | .assign => []
  | .tbuild => [.seqHeld, .nodes, .prefixThrough, .prefixEnd]
  | .tfree => []
  | .decode => [.seqNoTrie, .pbuf, .obuf, .exhaustedRoot, .exhaustedMidpath, .noChild]
  | .blkdec => [.seqHeld, .pbuf, .obuf, .nodes, .prefixThrough, .prefixEnd, .exhaustedRoot, .exhaustedMidpath, .noChild]

theorem errWord_of_ownCauses {i : Instr} {c : Cause} (h : c ∈ ownCauses i) : c.errWord ∈ ownErrWords i := by
  cases i <;> cases c <;> revert h <;>
    simp [ownCauses, ownErrWords, Cause.errWord, Cause.code, Cause.kind, ErrKind.code]

/-- What a decode can end with. -/
theorem decodeBlock_cause {s : State} {pl el : Word} {k : Walk} {f : FaultReport}
    (h : s.decodeBlock pl el = (k, some f)) :
    f.cause = .exhaustedRoot ∨ f.cause = .exhaustedMidpath ∨ f.cause = .noChild := by
  unfold State.decodeBlock at h
  rcases decodeLoop_induct (nodes := s.nodes) (pbuf := s.pbuf) (pl := pl) (el := el) (fun _ => True)
      (fun _ _ _ _ _ _ _ _ _ => trivial) (8 * pl.toNat + 1) (Walk.start s.draws) trivial with
    ⟨k', e, _⟩ | ⟨k', e, _⟩ | ⟨k', b, d, e, _⟩ <;> rw [e] at h <;> cases h
  · unfold exhausted
    split <;> simp
  · simp [missingChild]

/-- Everything a command can answer: a fault with nothing else changed, the fault of a build inside `blkdec`, or the state
its rule gives. -/
theorem exec_cases {i : Instr} {s t : State} (h : exec i s = .next t) :
    (∃ f, f.cause ∈ ownCauses i ∧ (t = s.raise f ∨ (i = .blkdec ∧ t = s.startDecode.raise f))) ∨
    (i = .nop ∧ t = s.complete) ∨
    (i = .rank ∧ t = s.rankEffect.complete) ∨
    (∃ first last, i = .split first last ∧ s.status.rankValid = true ∧ first < last ∧ last < s.nnz.toNat ∧
      t = State.complete { s with splitD := BitVec.ofNat 8 (bestDivision (rankFreq s.freq s.symOf) first last) }) ∨
    (i = .part ∧ s.status.rankValid = true ∧ t = s.partEffect.complete) ∨
    (i = .assign ∧ t = s.rankEffect.partEffect.complete) ∨
    (i = .tbuild ∧ s.status.trieValid = false ∧
      ∃ ns, buildTrie s.config.nodeMax s.code = .ok ns ∧ t = ((s.storeNodes ns).setTrieValid true).complete) ∨
    (i = .tfree ∧ t = (s.releaseNodes.setTrieValid false).complete) ∨
    (i = .decode ∧ s.status.trieValid = true ∧ s.packedLen.toNat ≤ s.config.pbufSize ∧
      s.expectedLen.toNat ≤ s.config.obufSize ∧ ∃ k f, s.decodeBlock s.packedLen s.expectedLen = (k, f) ∧
        ((f = none ∧ t = (s.withWalk k).complete) ∨ ∃ f', f = some f' ∧ t = (s.withWalk k).raise f')) ∨
    (i = .blkdec ∧ s.status.trieValid = false ∧ s.packedLen.toNat ≤ s.config.pbufSize ∧
      s.expectedLen.toNat ≤ s.config.obufSize ∧ ∃ ns, buildTrie s.config.nodeMax s.code = .ok ns ∧
        ∃ k f, (s.storeNodes ns).decodeBlock s.packedLen s.expectedLen = (k, f) ∧
          ((f = none ∧ t = (((s.storeNodes ns).withWalk k).releaseNodes).complete) ∨
            ∃ f', f = some f' ∧ t = ((s.storeNodes ns).withWalk k).raise f')) := by
  cases i with
  | nop => simp_all
  | rank => simp_all
  | assign => simp_all
  | tfree => simp_all
  | split first last =>
    cases hr : s.status.rankValid
    · rw [exec_split_stale hr] at h
      cases h
      exact .inl ⟨_, by simp [ownCauses], .inl rfl⟩
    · by_cases h2 : first < last ∧ last < s.nnz.toNat
      · rw [exec_split_ok hr h2.1 h2.2] at h
        cases h
        exact .inr (.inr (.inr (.inl ⟨_, _, rfl, rfl, h2.1, h2.2, rfl⟩)))
      · rw [exec_split_operand hr h2] at h
        cases h
        exact .inl ⟨_, by simp [ownCauses], .inl rfl⟩
  | part =>
    cases hr : s.status.rankValid
    · rw [exec_part_stale hr] at h
      cases h
      exact .inl ⟨_, by simp [ownCauses], .inl rfl⟩
    · rw [exec_part_ok hr] at h
      cases h
      simp
  | tbuild =>
    cases ht : s.status.trieValid
    · cases hb : buildTrie s.config.nodeMax s.code with
      | error f =>
        rw [exec_tbuild_fault ht hb] at h
        cases h
        obtain ⟨_, _, _, _, _, hc⟩ := buildTrie_error hb
        refine .inl ⟨f, ?_, .inl rfl⟩
        rcases hc with hc | ⟨hc, _⟩ | ⟨hc, _⟩ <;> simp [hc, ownCauses]
      | ok ns =>
        rw [exec_tbuild_ok ht hb] at h
        cases h
        exact .inr (.inr (.inr (.inr (.inr (.inr (.inl ⟨rfl, rfl, ns, rfl, rfl⟩))))))
    · rw [exec_tbuild_held ht] at h
      cases h
      exact .inl ⟨_, by simp [ownCauses], .inl rfl⟩
  | decode =>
    cases ht : s.status.trieValid
    · rw [exec_decode_noTrie ht] at h
      cases h
      exact .inl ⟨_, by simp [ownCauses], .inl rfl⟩
    · rcases latchLengths_cases s with ⟨_, e⟩ | ⟨_, _, e⟩ | ⟨h1, h2, e⟩
      · rw [exec_decode_lengths ht e] at h
        cases h
        exact .inl ⟨_, by simp [ownCauses], .inl rfl⟩
      · rw [exec_decode_lengths ht e] at h
        cases h
        exact .inl ⟨_, by simp [ownCauses], .inl rfl⟩
      · refine .inr (.inr (.inr (.inr (.inr (.inr (.inr (.inr (.inl ⟨rfl, rfl, h1, h2, ?_⟩))))))))
        rcases hd : s.decodeBlock s.packedLen s.expectedLen with ⟨k, _ | f⟩
        · rw [exec_decode_ok ht e hd] at h
          cases h
          exact ⟨_, _, rfl, .inl ⟨rfl, rfl⟩⟩
        · rw [exec_decode_misfit ht e hd] at h
          cases h
          exact ⟨_, _, rfl, .inr ⟨_, rfl, rfl⟩⟩
  | blkdec =>
    cases ht : s.status.trieValid
    · rcases latchLengths_cases s with ⟨_, e⟩ | ⟨_, _, e⟩ | ⟨h1, h2, e⟩
      · rw [exec_blkdec_lengths ht e] at h
        cases h
        exact .inl ⟨_, by simp [ownCauses], .inl rfl⟩
      · rw [exec_blkdec_lengths ht e] at h
        cases h
        exact .inl ⟨_, by simp [ownCauses], .inl rfl⟩
      · cases hb : buildTrie s.config.nodeMax s.code with
        | error f =>
          rw [exec_blkdec_build ht e hb] at h
          cases h
          obtain ⟨_, _, _, _, _, hc⟩ := buildTrie_error hb
          refine .inl ⟨f, ?_, .inr ⟨rfl, rfl⟩⟩
          rcases hc with hc | ⟨hc, _⟩ | ⟨hc, _⟩ <;> simp [hc, ownCauses]
        | ok ns =>
          refine .inr (.inr (.inr (.inr (.inr (.inr (.inr (.inr (.inr ⟨rfl, rfl, h1, h2, ns, rfl, ?_⟩))))))))
          rcases hd : (s.storeNodes ns).decodeBlock s.packedLen s.expectedLen with ⟨k, _ | f⟩
          · rw [exec_blkdec_ok ht e hb hd] at h
            cases h
            exact ⟨_, _, rfl, .inl ⟨rfl, rfl⟩⟩
          · rw [exec_blkdec_misfit ht e hb hd] at h
            cases h
            exact ⟨_, _, rfl, .inr ⟨_, rfl, rfl⟩⟩
    · rw [exec_blkdec_held ht] at h
      cases h
      exact .inl ⟨_, by simp [ownCauses], .inl rfl⟩

/-! ### What a walk keeps -/

theorem packedBit_draws (pbuf : Memory) (c : Nat) (m : Byte) (d : Nat) : d ≤ (packedBit pbuf c m d).2 :=
  byteOrFree_draws pbuf c d

/-- However a decode with latched lengths ends: the registers in their ranges, the output buffer in its form, at a bit
position within the packed bytes. -/
theorem decodeBlock_range {s : State} {pl el : Word} (hpl : pl.toNat ≤ s.config.pbufSize)
    (hel : el.toNat ≤ s.config.obufSize) {k : Walk} {o : Option FaultReport} (h : s.decodeBlock pl el = (k, o)) :
    (∃ p, k.At p ∧ p ≤ 8 * pl.toNat) ∧ k.outCount.toNat ≤ el.toNat ∧
    Memory.wf k.obuf ∧ (∀ c ∈ k.obuf, c.1 < s.config.obufSize) ∧ s.draws ≤ k.draws := by
  have hle := pbufSize_le s.config
  unfold State.decodeBlock at h
  have main := decodeLoop_induct (nodes := s.nodes) (pbuf := s.pbuf) (pl := pl) (el := el)
    (fun k => (∃ p, k.At p ∧ p ≤ 8 * pl.toNat) ∧ k.outCount.toNat ≤ el.toNat ∧
      Memory.wf k.obuf ∧ (∀ c ∈ k.obuf, c.1 < s.config.obufSize) ∧ s.draws ≤ k.draws)
    (by
      rintro k b d c ⟨⟨p, hp, hple⟩, h0, h5, h6, h7⟩ h1 h2 h3 _
      have hd : k.draws ≤ d := by
        have := packedBit_draws s.pbuf k.cursor.toNat k.bitmask k.draws
        rwa [h3] at this
      refine ⟨⟨p + 1, Walk.at_iteration hp (by omega), by have := hp.1; omega⟩, ?_⟩
      rw [Walk.nextBit_outCount, Walk.nextBit_obuf, Walk.nextBit_draws, Walk.enter_draws]
      unfold Walk.enter
      split
      · refine ⟨?_, Memory.write_wf h5 _ _, fun c hc => ?_, Nat.le_trans h7 hd⟩
        · have := el.isLt
          have e : (k.outCount + 1).toNat = k.outCount.toNat + 1 := by
            simp only [BitVec.toNat_add, BitVec.ofNat_eq_ofNat, BitVec.toNat_ofNat]
            omega
          show (k.outCount + 1).toNat ≤ _
          omega
        · rcases Memory.mem_write hc with rfl | hc
          · show k.outCount.toNat < _
            omega
          · exact h6 c hc
      · exact ⟨h0, h5, h6, Nat.le_trans h7 hd⟩) (8 * pl.toNat + 1) (Walk.start s.draws)
    ⟨⟨0, Walk.at_start _, Nat.zero_le _⟩, by simp [Walk.start], by simp [Walk.start, Memory.wf], by simp [Walk.start],
      Nat.le_refl _⟩
  rcases main with ⟨k', e, hk⟩ | ⟨k', e, hk, _⟩ | ⟨k', b, d, e, ⟨hk1, hk2, hk3, hk4, hk5⟩, _, _, h3, _⟩ <;>
    rw [e] at h <;> cases h
  · exact hk
  · exact hk
  · refine ⟨hk1, hk2, hk3, hk4, Nat.le_trans hk5 ?_⟩
    have := packedBit_draws s.pbuf k'.cursor.toNat k'.bitmask k'.draws
    rwa [h3] at this

/-! ### One step keeps what each kind of turn keeps -/

/-- To show that a property is kept by every step, show it of each thing a turn can do. -/
theorem step_induct (P : State → Prop)
    (turns : ∀ s r, P s → P { s with turns := r })
    (read : ∀ s v d, P s → P { s with readData := v, draws := d })
    (hard : ∀ s, P s → P s.hardReset)
    (soft : ∀ s, P s → P s.softReset)
    (cmd : ∀ s v, P s → P (s.writeCmd v))
    (store : ∀ s a v, s.status.busy = false → P s → P (s.writeLoc v (locate s.config (portOffset a))))
    (raise : ∀ s f, s.status.busy = true → P s → P (s.raise f))
    (command : ∀ s i t, s.status.busy = true → exec i s = .next t → P s → P t)
    {s t : State} (hs : P s) (h : step s = .next t) : P t := by
  have engine : ∀ s, P s → ∀ t, engineTurn s = .next t → P t := by
    intro s hs t h
    rcases engineTurn_cases s with ⟨_, e⟩ | ⟨hb, i, _, e⟩ | ⟨hb, w, _, e⟩ <;> rw [e] at h
    · cases h
      exact hs
    · exact command s i t hb h hs
    · cases h
      exact raise _ _ hb hs
  rcases step_cases s with ⟨_, e⟩ | ⟨r, _, e⟩ | ⟨a, r, _, e⟩ | ⟨a, v, r, _, e⟩ | ⟨r, _, e⟩ <;> rw [e] at h
  · exact engine s hs t h
  · exact engine _ (turns _ _ hs) t h
  · cases h
    exact read _ _ _ (turns _ _ hs)
  · cases h
    have h0 := turns s r hs
    rcases hostWrite_cases { s with turns := r } a v with ⟨_, _, e⟩ | ⟨_, e⟩ | e | ⟨hb, _, _, e⟩ <;> rw [e]
    · exact soft _ h0
    · exact cmd _ _ h0
    · exact h0
    · exact store _ _ _ hb h0
  · cases h
    exact hard _ (turns _ _ hs)

end Sys2Proof.Machine
end

