-- ==== Sys2Proof/Laws/Decode.lean ====
section
/-! SUPPORT. The fields of a command word as arithmetic on its value. -/

namespace Sys2Proof

theorem opcodeOf_eq_iff (w : Word) {c : Nat} (hc : c < 256) : opcodeOf w = BitVec.ofNat 8 c ↔ w.toNat % 256 = c := by
  rw [BitVec.toNat_eq]
  simp [opcodeOf, Nat.mod_eq_of_lt hc]

theorem reservedI_eq_zero_iff (w : Word) : w.extractLsb' 24 8 = 0 ↔ w.toNat < 2 ^ 24 := by
  have := w.isLt
  rw [BitVec.toNat_eq]
  simp [Nat.shiftRight_eq_div_pow]
  omega

theorem reservedZ_eq_zero_iff (w : Word) : w.extractLsb' 8 24 = 0 ↔ w.toNat < 2 ^ 8 := by
  have := w.isLt
  rw [BitVec.toNat_eq]
  simp [Nat.shiftRight_eq_div_pow]
  omega

/-- The opcodes of the format Z commands (30_encoding.md R87). -/
theorem formatZ_eq_none_iff (op : Byte) :
    formatZ op = none ↔ op ∉ ([0x00, 0x10, 0x12, 0x13, 0x20, 0x21, 0x30, 0x31] : List Byte) := by
  revert op
  decide +kernel

/-- The opcode and the encoder's word of the command formatZ answers. -/
theorem formatZ_encode {op : Byte} {i : Instr} (h : formatZ op = some i) :
    i.wf = true ∧ encode i = op.setWidth 32 ∧ op ≠ 0x11 := by
  have key : ∀ op : Byte, ∀ i, formatZ op = some i → i.wf = true ∧ encode i = op.setWidth 32 ∧ op ≠ 0x11 := by
    intro op i h
    unfold formatZ at h
    split_ifs at h <;> (cases h; subst_vars; decide)
  exact key op i h

end Sys2Proof
end

