-- ==== Sys2Proof/Laws/HostReference.lean ====
section
/-! SUPPORT. The host's packer (44_host_reference.md R183) read back bit by bit (20_memory.md R63). -/

namespace Sys2Proof.Machine

theorem packedByte_bit (bits : List Bool) (k j : Nat) (hj : j < 8) :
    (packedByte bits k).getLsbD (7 - j) = bits.getD (8 * k + j) false := by
  have key : ∀ b0 b1 b2 b3 b4 b5 b6 b7 : Bool,
      let x := BitVec.ofNat 8 (b0.toNat * 128 + (b1.toNat * 64 + (b2.toNat * 32 + (b3.toNat * 16 +
        (b4.toNat * 8 + (b5.toNat * 4 + (b6.toNat * 2 + (b7.toNat * 1 + 0))))))))
      x.getLsbD 7 = b0 ∧ x.getLsbD 6 = b1 ∧ x.getLsbD 5 = b2 ∧ x.getLsbD 4 = b3 ∧ x.getLsbD 3 = b4 ∧
        x.getLsbD 2 = b5 ∧ x.getLsbD 1 = b6 ∧ x.getLsbD 0 = b7 := by decide +kernel
  have h := key (bits.getD (8 * k + 0) false) (bits.getD (8 * k + 1) false) (bits.getD (8 * k + 2) false)
    (bits.getD (8 * k + 3) false) (bits.getD (8 * k + 4) false) (bits.getD (8 * k + 5) false)
    (bits.getD (8 * k + 6) false) (bits.getD (8 * k + 7) false)
  have e : packedByte bits k = BitVec.ofNat 8 ((bits.getD (8 * k + 0) false).toNat * 128 +
      ((bits.getD (8 * k + 1) false).toNat * 64 + ((bits.getD (8 * k + 2) false).toNat * 32 +
      ((bits.getD (8 * k + 3) false).toNat * 16 + ((bits.getD (8 * k + 4) false).toNat * 8 +
      ((bits.getD (8 * k + 5) false).toNat * 4 + ((bits.getD (8 * k + 6) false).toNat * 2 +
      ((bits.getD (8 * k + 7) false).toNat * 1 + 0)))))))) := rfl
  rw [e]
  obtain ⟨h0, h1, h2, h3, h4, h5, h6, h7⟩ := h
  interval_cases j
  · exact h0
  · exact h1
  · exact h2
  · exact h3
  · exact h4
  · exact h5
  · exact h6
  · exact h7

theorem packBlock_length (code : Byte → List Bool) (block : List Byte) :
    (packBlock code block).length = ((block.flatMap code).length + 7) / 8 := by
  simp [packBlock]

theorem packBlock_getElem? (code : Byte → List Bool) (block : List Byte) {k : Nat}
    (hk : k < (packBlock code block).length) :
    (packBlock code block)[k]? = some (packedByte (block.flatMap code) k) := by
  rw [packBlock_length] at hk
  rw [packBlock, List.getElem?_map, List.getElem?_range hk]
  rfl

/-- A buffer that holds the packed bytes holds the bits of the block's codes, in order. -/
theorem streamBit_of_pack {pbuf : Memory} {code : Byte → List Bool} {block : List Byte}
    (h : ∀ k, k < (packBlock code block).length → Memory.read pbuf k = (packBlock code block)[k]?)
    {q : Nat} (hq : q < (block.flatMap code).length) : StreamBit pbuf q (block.flatMap code)[q] := by
  have hk : q / 8 < (packBlock code block).length := by rw [packBlock_length]; omega
  refine ⟨_, (h _ hk).trans (packBlock_getElem? code block hk), ?_⟩
  rw [packedByte_bit _ _ _ (Nat.mod_lt _ (by decide)), show 8 * (q / 8) + q % 8 = q by omega]
  rw [List.getD_eq_getElem?_getD, List.getElem?_eq_getElem hq]
  rfl

end Sys2Proof.Machine
end

