-- ==== Sys2Proof/Laws/PerInstr.lean ====
section
/-! SUPPORT. Laws stated per command: the family TableRow. -/

namespace Sys2Proof.Laws

/-- The word of a well-formed command is matched by its own row of 30_encoding.md R87. -/
def TableRow.Statement (i : Instr) : Prop := i.wf = true → encode i &&& maskOf i = patternOf i

theorem TableRow.nop : TableRow.Statement .nop := fun _ => by decide

theorem TableRow.rank : TableRow.Statement .rank := fun _ => by decide

theorem TableRow.split (first last : Nat) : TableRow.Statement (.split first last) := by
  intro h
  simp only [Instr.wf, Bool.and_eq_true, decide_eq_true_eq] at h
  obtain ⟨f, rfl⟩ : ∃ b : Byte, b.toNat = first := ⟨BitVec.ofNat 8 first, by simp [h.1]⟩
  obtain ⟨l, rfl⟩ : ∃ b : Byte, b.toNat = last := ⟨BitVec.ofNat 8 last, by simp [h.2]⟩
  apply BitVec.eq_of_getLsbD_eq
  intro k hk
  simp only [encode, maskOf, patternOf]
  interval_cases k <;> simp

theorem TableRow.part : TableRow.Statement .part := fun _ => by decide

theorem TableRow.assign : TableRow.Statement .assign := fun _ => by decide

theorem TableRow.tbuild : TableRow.Statement .tbuild := fun _ => by decide

theorem TableRow.tfree : TableRow.Statement .tfree := fun _ => by decide

theorem TableRow.decode : TableRow.Statement .decode := fun _ => by decide

theorem TableRow.blkdec : TableRow.Statement .blkdec := fun _ => by decide

end Sys2Proof.Laws
end

