-- ==== Sys2Proof/Tests/Slice0.lean ====
section
/-! SUPPORT. The model's own tests: what WellFormed refuses, words written out from 30_encoding.md, one step per test
with the results of 95_test_vectors.md, and a state that meets the hypotheses of each obligation. -/

namespace Sys2Proof.Tests

open Sys2Proof.Machine

-- One theorem after the other: each one evaluated beside the others would hold a thread and its stack.
set_option Elab.async false

/-! ### Well-formed terms (30_encoding.md R82, R83) -/

theorem test_wf_split_first_too_big : (Instr.split 256 0).wf = false := by decide
theorem test_wf_split_last_too_big : (Instr.split 0 256).wf = false := by decide
theorem test_wf_split_greatest : (Instr.split 255 255).wf = true := by decide

/-! ### Decoding, by words written bit by bit from 30_encoding.md R81, R82, R87 -/

theorem test_decode_nop : decode 0b00000000000000000000000000000000 = .ok .nop := by decide
theorem test_decode_rank : decode 0b00000000000000000000000000010000 = .ok .rank := by decide
/-- `last` = 7 in [23:16], `first` = 1 in [15:8]. -/
theorem test_decode_split : decode 0b00000000000001110000000100010001 = .ok (.split 1 7) := by decide
theorem test_decode_part : decode 0b00000000000000000000000000010010 = .ok .part := by decide
theorem test_decode_assign : decode 0b00000000000000000000000000010011 = .ok .assign := by decide
theorem test_decode_tbuild : decode 0b00000000000000000000000000100000 = .ok .tbuild := by decide
theorem test_decode_tfree : decode 0b00000000000000000000000000100001 = .ok .tfree := by decide
theorem test_decode_decode : decode 0b00000000000000000000000000110000 = .ok .decode := by decide
theorem test_decode_blkdec : decode 0b00000000000000000000000000110001 = .ok .blkdec := by decide
/-- 95_test_vectors.md V52. -/
theorem test_decode_refuses : decode 0x00000100 = .error .reservedBits ∧ decode 0x01000011 = .error .reservedBits ∧
    decode 0x80000013 = .error .reservedBits ∧ decode 0x000001FF = .error .illegalOpcode := by decide
/-- No word is matched by two rows of 30_encoding.md R87. -/
theorem test_rows_do_not_overlap :
    [Instr.nop, .rank, .split 0 0, .part, .assign, .tbuild, .tfree, .decode, .blkdec].Pairwise
      (fun i j => patternOf i &&& (maskOf i &&& maskOf j) ≠ patternOf j &&& (maskOf i &&& maskOf j)) := by decide

/-! ### Small states -/

/-- The next state of an answer. -/
def after : Result → State
  | .next t => t
  | _ => State.reset

/-- Some counts. -/
def withFreqs (s : State) (l : List (Byte × Word)) : State :=
  { s with freq := l.foldl (fun t p => t.put p.1 p.2) s.freq }

/-- Some codes. -/
def withCodes (s : State) (l : List (Byte × List Bool)) : State :=
  let t := l.foldl (fun t p => CodeTable.setCode t p.1 p.2) { clen := s.clen, cbits := s.cbits }
  { s with clen := t.clen, cbits := t.cbits }

/-- The code table of 95_test_vectors.md V9. -/
def codesV9 : List (Byte × List Bool) :=
  [(0x41, [false]), (0x42, [true, false]), (0x52, [true, true, false]), (0x43, [true, true, true, false]),
   (0x44, [true, true, true, true])]

/-- V9's table, its packed bytes and lengths (V30 to V35). -/
def loadedV9 (pl el : Word) : State :=
  { withCodes State.reset codesV9 with
    pbuf := [(0, 0x59), (1, 0xCF), (2, 0x58), (3, 0x00)], packedLen := pl, expectedLen := el }

/-- The nodes of V21. -/
def nodesV21 : List Node :=
  [{ left := some 1, right := some 2, sym := none }, { left := none, right := none, sym := some 0x41 },
   { left := some 3, right := some 4, sym := none }, { left := none, right := none, sym := some 0x42 },
   { left := some 8, right := some 5, sym := none }, { left := some 6, right := some 7, sym := none },
   { left := none, right := none, sym := some 0x43 }, { left := none, right := none, sym := some 0x44 },
   { left := none, right := none, sym := some 0x52 }]

/-- The same with V21's trie built. -/
def builtV21 (pl el : Word) : State := ((loadedV9 pl el).storeNodes nodesV21).setTrieValid true

/-- V10's counts. -/
def countsV10 : State :=
  withFreqs State.reset [(0x41, 10), (0x42, 1), (0x43, 1), (0x44, 1), (0x45, 1), (0x46, 1), (0x47, 1), (0x48, 1)]

/-! ### One step per test (95_test_vectors.md) -/

/-- V50. -/
theorem test_nop : (after (execNop (State.reset.accept 0))).status.toWord = 0x2 ∧
    (after (execNop (State.reset.accept 0))).cmd = 0 := by decide +kernel

/-- V2. -/
theorem test_rank : let t := after (execRank (withFreqs State.reset [(0x00, 3), (0xFF, 5)]))
    t.nnz = 2 ∧ t.lastNz = 1 ∧ t.symOf.at 0 = 0xFF ∧ t.symOf.at 1 = 0x00 ∧ t.symOf.at 2 = 0x01 ∧
    t.symOf.at 255 = 0xFE ∧ t.rankOf.at 0xFF = 0 ∧ t.rankOf.at 1 = 2 := by decide +kernel

/-- V1. -/
theorem test_rank_empty : let t := after (execRank State.reset)
    t.nnz = 0 ∧ t.lastNz = 0 ∧ t.status.toWord = 0xA ∧ t.symOf.at 7 = 7 ∧ t.rankOf.at 255 = 255 := by decide +kernel

/-- V10: a tie at rank 4 stops the scan at rank 3; `split 0, 7` stops at once. -/
theorem test_split : let t := after (execRank countsV10)
    (after (execSplit 0 7 t)).splitD = 0 ∧ (after (execSplit 1 7 t)).splitD = 3 ∧
    (after (execSplit 4 7 t)).splitD = 5 := by decide +kernel

/-- V14 (a), (c). -/
theorem test_split_faults :
    (after (execSplit 3 3 ((after (execRank countsV10)).accept 0x00030311))).err = 0x306 ∧
    (after (execSplit 3 3 ((after (execRank countsV10)).accept 0x00030311))).errInfo = 0x00030311 ∧
    (after (execSplit 0 1 (State.reset.accept 0x00010011))).err = 0x406 := by decide +kernel

/-- E1. -/
theorem test_part : let t := after (execPart (after (execRank countsV10)))
    t.code 0x41 = [false] ∧ t.code 0x42 = [true, false, false] ∧ t.code 0x43 = [true, false, true, false] ∧
    t.code 0x48 = [true, true, true, true] ∧ t.code 0x49 = [] ∧ t.splitD = 0 := by decide +kernel

/-- V15: the fault of a stale ranking comes before the codes are cleared. -/
theorem test_part_stale : let t := after (execPart ((loadedV9 0 0).accept 0x12))
    t.err = 0x406 ∧ t.errInfo = 0x12 ∧ t.status.toWord = 0x4 ∧ t.code 0x52 = [true, true, false] := by decide +kernel

/-- P1. -/
theorem test_assign : let t := after (execAssign
      (withFreqs State.reset [(0x41, 5), (0x42, 2), (0x43, 1), (0x44, 1), (0x52, 2)]))
    t.nnz = 5 ∧ t.symOf.at 2 = 0x52 ∧ t.rankOf.at 0x52 = 2 ∧ t.clen.at 0x52 = 3 ∧
    cbitsWord (t.cbits.at 0x52) 0 = 3 ∧ t.code 0x44 = [true, true, true, true] := by decide +kernel

/-- V3: one symbol gets the empty code. -/
theorem test_assign_one_symbol : let t := after (execAssign (withFreqs State.reset [(0x61, 7)]))
    t.nnz = 1 ∧ t.lastNz = 0 ∧ t.symOf.at 0 = 0x61 ∧ t.symOf.at 0x61 = 0x60 ∧ t.clen.at 0x61 = 0 := by decide +kernel

/-- V21. -/
theorem test_tbuild : let t := after (execTbuild (loadedV9 0 0))
    t.nodeCount = 9 ∧ t.status.toWord = 0x12 ∧ t.nodes = nodesV21 ∧
    (nodeAt t.nodes 0).word0 = 0x00020001 ∧ (nodeAt t.nodes 4).word0 = 0x00050008 ∧
    (nodeAt t.nodes 4).word1 = 0x3 ∧ (nodeAt t.nodes 8).word1 = 0x5204 := by decide +kernel

/-- V60: with `NODE_MAX` = 8 symbol 0x52 finds the arena full at its code bit 2. -/
theorem test_tbuild_full :
    let t := after (execTbuild { loadedV9 0 0 with config := { resetConfig with nodeMaxPred := 7 } })
    t.err = 0x1001 ∧ t.errInfo = 0x252 ∧ t.nodeCount = 0 ∧ t.status.toWord = 0x4 := by decide +kernel

/-- V20. -/
theorem test_tfree : let t := after (execTfree (after (execTbuild (loadedV9 0 0))))
    t.nodeCount = 0 ∧ t.status.toWord = 0x2 ∧ t.clen.at 0x52 = 3 := by decide +kernel

/-- V30. -/
theorem test_decode : let t := after (execDecode (builtV21 3 11))
    t.obuf.map Prod.snd = [0x41, 0x42, 0x52, 0x41, 0x43, 0x41, 0x44, 0x41, 0x42, 0x52, 0x41] ∧
    t.outCount = 11 ∧ t.cursor = 2 ∧ t.bitmask = 0x01 ∧ t.nodeCount = 9 ∧ t.status.toWord = 0x12 := by decide +kernel

/-- V33. -/
theorem test_decode_midpath : let t := after (execDecode (builtV21 1 11))
    t.err = 0x3104 ∧ t.errInfo = 2 ∧ t.outCount = 4 ∧ t.cursor = 1 ∧ t.bitmask = 0x80 ∧ t.nodeCount = 0 ∧
    t.status.toWord = 0x4 := by decide +kernel

/-- V34. -/
theorem test_blkdec : let t := after (execBlkdec (loadedV9 2 7))
    t.obuf.map Prod.snd = [0x41, 0x42, 0x52, 0x41, 0x43, 0x41, 0x44] ∧
    t.outCount = 7 ∧ t.cursor = 2 ∧ t.bitmask = 0x80 ∧ t.nodeCount = 0 ∧ t.status.toWord = 0x2 := by decide +kernel

/-- A table in which the code of 0xFF runs through the leaf of 0x00. -/
def throughCodes : State :=
  { State.reset with
    clen := ((Table.const 0).put 0x00 1).put 0xFF 2, cbits := (Table.const 0).put 0xFF 2 }

/-- The same after an earlier decode. -/
def decodedBefore : State := { throughCodes with outCount := 11, cursor := 2, bitmask := 0x01 }

/-- V61 and V41: the packed length is checked first, before any effect (60_exceptions.md R211); a fault of the build finds
the registers of 10_state.md R35 to R37 as acceptance set them. -/
theorem test_blkdec_faults :
    (let t := after (execBlkdec { decodedBefore with packedLen := 65, expectedLen := 65 })
     t.err = 0x1201 ∧ t.errInfo = 65 ∧ t.outCount = 11) ∧
    (let t := after (execBlkdec decodedBefore)
     t.err = 0x2004 ∧ t.errInfo = 0x1FF ∧ t.outCount = 0 ∧ t.cursor = 0 ∧ t.bitmask = 0x80) := by decide +kernel

/-! ### Steps and the port (95_test_vectors.md V51, V53, V54, P2, P4) -/

/-- The word of `tfree`, placed as the host asks it, is the next thing the machine runs. -/
theorem test_withFetchWord_runs : decodeTableWord 32 0x21 = some .tfree ∧
    (after (step (State.reset.withFetchWord 32 0x21))).status.toWord = 0x2 ∧
    (after (step (State.reset.withFetchWord 32 0x21))).cmd = 0x21 := by decide +kernel

/-- V51. -/
theorem test_step_illegal_opcode : let t := after (step (State.reset.withFetchWord 32 1))
    t.status.toWord = 0x4 ∧ t.err = 0x106 ∧ t.errInfo = 1 ∧ t.cmd = 1 ∧
    (t.writeCmd 0).status.toWord = 0x4 ∧ (t.writeCmd 0).cmd = 1 ∧ t.softReset.status.toWord = 0 := by decide +kernel

/-- V53: a second `CMD` write while busy. -/
theorem test_step_overrun : let s := { State.reset.accept 0x13 with turns := [wrTurn 0x008 0] }
    (after (step s)).status.toWord = 0x21 ∧ (after (step s)).cmd = 0x13 ∧
    (after (step (after (step s)))).status.toWord = 0x2A := by decide +kernel

/-- V54. -/
theorem test_port_trims : let t := State.reset.hostWrite (portAddr 0x1014) 0x1FF
    (t.hostRead (portAddr 0x1014)).1 = 0xFF ∧ (t.hostRead (portAddr 0x3FC)).1 = 0 ∧
    (t.hostRead (portAddr 0x000)).1 = 0x53460100 ∧ (State.reset.hostWrite (portAddr 0x018) 7).nnz = 0 ∧
    ((State.reset.hostWrite (portAddr 0x024) 0xFFFFFFFF).hostRead (portAddr 0x024)).1 = 0xFFFFFFFF := by
  decide +kernel

/-- P2: `ldpbuf 59 CF 58` is one write, and the output words. -/
theorem test_port_buffers :
    (Statement.ldpbuf [0x59, 0xCF, 0x58]).turns = [.hostWrite (portAddr 0x10000000) 0x0058CF59] ∧
    ((after (execDecode (builtV21 3 11))).hostRead (portAddr 0x20000004)).1 = 0x41444143 := by decide +kernel

/-- P4: a soft reset zeroes the tables and keeps the packed bytes. -/
theorem test_soft_reset_keeps_pbuf : let t := (after (execDecode (builtV21 1 11))).softReset
    t.status.toWord = 0 ∧ t.err = 0 ∧ t.clen.at 0x41 = 0 ∧
    (t.hostRead (portAddr 0x10000000)).1 = 0x0058CF59 := by decide +kernel

/-- 30_encoding.md R91: `ldcode 0x52, "110"` (P2). -/
theorem test_ldcode_turns : (Statement.ldcode 0x52 [true, true, false]).turns =
    [.hostWrite (portAddr 0x1148) 3, .hostWrite (portAddr 0x2A40) 3] := by decide +kernel

/-- 44_host_reference.md R183: V9's packed bytes. -/
theorem test_pack : packBlock (loadedV9 0 0).code
    [0x41, 0x42, 0x52, 0x41, 0x43, 0x41, 0x44, 0x41, 0x42, 0x52, 0x41] = [0x59, 0xCF, 0x58] := by decide +kernel

/-! ### States that meet the hypotheses of the obligations -/

theorem witness_EncodedCommandDecodesBack : (Instr.split 255 0).wf = true := by decide

theorem witness_DecodedWordHasOneEncoding : decode 0x00FF0011 = .ok (.split 0 255) := by decide

/-- A command in flight, with the engine's turn next or nothing more from the outside. -/
def inFlight (w : Word) (turns : List Turn) : State := { State.reset.accept w with turns := turns }

theorem witness_EngineTurnRunsTheDecodedCommand :
    (inFlight 0x10 []).status.busy = true ∧ Instr.rank.wf = true ∧ decode (inFlight 0x10 []).cmd = .ok .rank ∧
    (inFlight 0x10 []).turns = [] ∧ (inFlight 0x10 [.engine]).turns = [.engine] := by decide

/-- Neither in phase `FAULT` nor in phase `IDLE` does the engine do anything. -/
theorem witness_EngineTurnRunsTheDecodedCommand_idle :
    (State.reset.raise { cause := .opcode, info := 1 }).status.busy = false ∧ State.reset.status.busy = false ∧
    State.reset.turns = [] ∧ ({ State.reset with turns := [.engine] } : State).turns = [.engine] := by decide

theorem witness_IllegalWordEntersFault :
    ((inFlight 0x01 [.engine]).status.busy = true ∧ (inFlight 0x01 [.engine]).turns = [.engine] ∧
      decode (inFlight 0x01 [.engine]).cmd = .error .illegalOpcode) ∧
    ((inFlight 0x100 []).status.busy = true ∧ (inFlight 0x100 []).turns = [] ∧
      decode (inFlight 0x100 []).cmd = .error .reservedBits) := by decide

/-- A state in phase `FAULT`. -/
def faulted (turns : List Turn) : State :=
  { State.reset.raise { cause := .opcode, info := 1 } with turns := turns }

/-- A state in phase `IDLE`. -/
def idle (turns : List Turn) : State := { State.reset with turns := turns }

theorem witness_CmdWriteActsByPhase :
    (inFlight 0x10 [wrTurn 0x008 0]).turns = [.hostWrite (portAddr 0x008) 0] ∧
    (inFlight 0x10 []).status.busy = true ∧
    (faulted []).status.busy = false ∧ (faulted []).status.fault = true ∧
    (idle []).status.busy = false ∧ (idle []).status.fault = false := by decide

theorem witness_CmdWriteActsByPhase_start :
    ∃ t, step (idle [wrTurn 0x008 0]) = .next t ∧ (idle [wrTurn 0x008 0]).status.busy = false ∧
      t.status.busy = true := ⟨_, rfl, rfl, rfl⟩

/-- Every symbol counted once: the ranking is the identity (V6). -/
def ranked : State :=
  { State.reset with
    freq := Table.const 1, symOf := Table.ofFn id, rankOf := Table.ofFn id, nnz := 256, lastNz := 255,
    status := { Status.reset with rankValid := true } }

theorem ranked_isRanking : IsRanking ranked.freq ranked.symOf ranked.rankOf := by
  refine ⟨fun r r' h => .inr ?_, fun r => ?_, fun a => ?_⟩ <;> simp [ranked]
  exact h

theorem ranked_ok : RankTablesOk ranked := by
  intro _
  refine ⟨ranked_isRanking, ?_, by decide, fun r => ?_⟩
  · simp [ranked, nonzeroSymbols, allBytes]
  · simp only [ranked, Table.at_const]
    exact ⟨fun _ => r.isLt, fun _ => by decide⟩

theorem witness_RankingIsUnique :
    IsRanking ranked.freq ranked.symOf ranked.rankOf ∧ IsRanking ranked.freq ranked.symOf ranked.rankOf :=
  ⟨ranked_isRanking, ranked_isRanking⟩

theorem witness_SplitWritesTheBestDivision :
    ranked.status.rankValid = true ∧ RankTablesOk ranked ∧ 0 < 255 ∧ 255 < ranked.nnz.toNat :=
  ⟨rfl, ranked_ok, by decide, by decide⟩

theorem witness_SplitFaultsInOrder :
    State.reset.status.rankValid = false ∧
    (ranked.status.rankValid = true ∧ ¬ (7 < 7 ∧ 7 < ranked.nnz.toNat)) ∧
    (ranked.status.rankValid = true ∧ ¬ (0 < 256 ∧ 256 < ranked.nnz.toNat)) := by decide

theorem witness_BestDivisionIsTheEarliestMinimum : 3 < 4 ∧ PositiveOn (fun _ => 1) 3 4 :=
  ⟨by decide, fun _ _ _ => Nat.le_refl 1⟩

theorem witness_StartingMinimumIsUnobservable : 0 < 255 ∧ PositiveOn (fun r => r + 1) 0 255 :=
  ⟨by decide, fun r _ _ => Nat.le_add_left 1 r⟩

theorem witness_PartitionFollowsTheRecursion :
    (5 ≤ 5 ∧ 5 - 5 ≤ 0 ∧ PositiveOn (fun _ => 1) 5 5) ∧ (0 ≤ 255 ∧ 255 - 0 ≤ 255 ∧ PositiveOn (fun _ => 1) 0 255) :=
  ⟨⟨by decide, by decide, fun _ _ _ => Nat.le_refl 1⟩, by decide, by decide, fun _ _ _ => Nat.le_refl 1⟩

theorem witness_PartAssignsPrefixFreeCodes :
    ranked.status.rankValid = true ∧ RankTablesOk ranked ∧ 2 ≤ ranked.nnz.toNat ∧
    (0 : Byte).toNat < (255 : Byte).toNat ∧ (255 : Byte).toNat < ranked.nnz.toNat :=
  ⟨rfl, ranked_ok, by decide, by decide, by decide⟩

/-- The leaf clause at its least alphabet: one symbol, whose code is empty (V3). -/
theorem witness_PartAssignsPrefixFreeCodes_leaf :
    (0, ([] : List Bool)) ∈ assignLeaves (rankFreq ranked.freq ranked.symOf) 0 0 0 [] ∧
    (0, [false]) ∈ assignLeaves (rankFreq ranked.freq ranked.symOf) 1 0 1 [] := by decide +kernel

theorem witness_PartCodesFillTheTree :
    ranked.status.rankValid = true ∧ RankTablesOk ranked ∧ 2 ≤ ranked.nnz.toNat :=
  ⟨rfl, ranked_ok, by decide⟩

theorem witness_PartOfAtMostOneSymbolIsEmpty :
    ({ ranked with nnz := 1 } : State).status.rankValid = true ∧ ({ ranked with nnz := 1 } : State).nnz.toNat ≤ 1 := by
  decide

/-- V20's table: `code(0x00)` = 1, `code(0xFF)` = 0. -/
def twoCodes : State :=
  { State.reset with
    clen := ((Table.const 0).put 0x00 1).put 0xFF 1, cbits := ((Table.const 0).put 0x00 1).put 0xFF 0 }

theorem twoCodes_code (a : Byte) : twoCodes.code a = if a = 0xFF then [false] else if a = 0x00 then [true] else [] := by
  simp only [State.code, twoCodes, Table.at_put, Table.at_const]
  split_ifs <;> decide

theorem twoCodes_prefixFree : PrefixFree twoCodes.code := by
  intro a b hab ha hb hp
  rw [twoCodes_code] at ha hb hp
  rw [twoCodes_code] at hp
  by_cases h1 : a = 0xFF <;> by_cases h2 : a = 0x00 <;> by_cases h3 : b = 0xFF <;> by_cases h4 : b = 0x00 <;> simp_all

/-- 41_trie.md R133 on V21's table: the paths of its nodes 0 to 8. -/
theorem test_creationOrder : creationOrder (allBytes.map (loadedV9 0 0).code) =
    [[], [false], [true], [true, false], [true, true], [true, true, true], [true, true, true, false],
     [true, true, true, true], [true, true, false]] := by decide +kernel

theorem twoCodes_nodes : nodesNeeded twoCodes.code = 3 := by
  rw [show twoCodes.code = _ from funext twoCodes_code]
  decide +kernel

theorem witness_TbuildBuildsTheTrie :
    twoCodes.status.trieValid = false ∧ PrefixFree twoCodes.code ∧
    nodesNeeded twoCodes.code ≤ twoCodes.config.nodeMax :=
  ⟨rfl, twoCodes_prefixFree, by rw [twoCodes_nodes]; decide⟩

theorem witness_TbuildCompletesExactlyOnFittingPrefixFreeTables : twoCodes.status.trieValid = false := rfl

/-- Two symbols with one code. -/
def equalCodes : State :=
  { State.reset with
    clen := ((Table.const 0).put 0x00 1).put 0xFF 1, cbits := Table.const 0 }

theorem equalCodes_code (a : Byte) : equalCodes.code a = if a = 0xFF then [false] else if a = 0x00 then [false] else [] := by
  simp only [State.code, equalCodes, Table.at_put, Table.at_const]
  split_ifs <;> decide

theorem witness_TbuildRefusesPrefixingCodes :
    equalCodes.status.trieValid = false ∧ ¬ PrefixFree equalCodes.code ∧
    nodesNeeded equalCodes.code ≤ equalCodes.config.nodeMax := by
  refine ⟨rfl, fun h => h 0x00 0xFF (by decide) ?_ ?_ ?_, ?_⟩
  · simp [equalCodes_code]
  · simp [equalCodes_code]
  · simp [equalCodes_code]
  · rw [show equalCodes.code = _ from funext equalCodes_code]
    decide +kernel

theorem throughCodes_code (a : Byte) :
    throughCodes.code a = if a = 0xFF then [false, true] else if a = 0x00 then [false] else [] := by
  simp only [State.code, throughCodes, Table.at_put, Table.at_const]
  split_ifs <;> decide

/-- The other way to collide. -/
theorem witness_TbuildRefusesPrefixingCodes_through :
    throughCodes.status.trieValid = false ∧ ¬ PrefixFree throughCodes.code ∧
    nodesNeeded throughCodes.code ≤ throughCodes.config.nodeMax := by
  refine ⟨rfl, fun h => h 0x00 0xFF (by decide) ?_ ?_ ?_, ?_⟩
  · simp [throughCodes_code]
  · simp [throughCodes_code]
  · simp [throughCodes_code]
  · rw [show throughCodes.code = _ from funext throughCodes_code]
    decide +kernel

theorem witness_TbuildFaultsWhenTheArenaIsFull :
    let s : State := { twoCodes with config := { resetConfig with nodeMaxPred := 1 } }
    s.status.trieValid = false ∧ PrefixFree s.code ∧ s.config.nodeMax < nodesNeeded s.code :=
  ⟨rfl, twoCodes_prefixFree, by
    show 2 < nodesNeeded twoCodes.code
    rw [twoCodes_nodes]
    decide⟩

theorem witness_TbuildOfAnEmptyTableIsTheRoot :
    State.reset.status.trieValid = false ∧ ∀ a : Byte, State.reset.clen.at a = 0 := by
  refine ⟨rfl, fun a => ?_⟩
  simp [State.reset]

theorem witness_HeldTrieBlocksBuilding :
    (builtV21 0 0).status.trieValid = true ∧ (Instr.tbuild = .tbuild ∨ Instr.tbuild = .blkdec) ∧
    (Instr.blkdec = .tbuild ∨ Instr.blkdec = .blkdec) := by decide

/-- V39: V20's trie, `PBUF[0]` = A0, three symbols. -/
def builtV20 : State :=
  { twoCodes with
    nodes := [{ left := some 2, right := some 1, sym := none }, { left := none, right := none, sym := some 0x00 },
      { left := none, right := none, sym := some 0xFF }]
    nodeCount := 3, pbuf := [(0, 0xA0), (1, 0), (2, 0), (3, 0)], packedLen := 1, expectedLen := 3
    status := { Status.reset with trieValid := true } }

theorem packV39 : packBlock twoCodes.code [0x00, 0xFF, 0x00] = [0xA0] := by
  rw [show twoCodes.code = _ from funext twoCodes_code]
  decide

theorem builtV20_holds : TrieHolds builtV20.nodes twoCodes.code := by
  intro a ha
  rw [twoCodes_code] at ha ⊢
  by_cases h1 : a = 0xFF
  · subst h1; exact ⟨2, by decide, by decide⟩
  · by_cases h2 : a = 0x00
    · subst h2; exact ⟨1, by decide, by decide⟩
    · exact absurd (by rw [if_neg h1, if_neg h2]) ha

theorem witness_DecodeReturnsThePackedBlock :
    builtV20.status.trieValid = true ∧ TrieHolds builtV20.nodes twoCodes.code ∧
    (∀ a ∈ ([0x00, 0xFF, 0x00] : List Byte), twoCodes.code a ≠ []) ∧
    (packBlock twoCodes.code [0x00, 0xFF, 0x00]).length ≤ builtV20.packedLen.toNat ∧
    builtV20.packedLen.toNat ≤ builtV20.config.pbufSize ∧
    builtV20.expectedLen.toNat = ([0x00, 0xFF, 0x00] : List Byte).length ∧
    ([0x00, 0xFF, 0x00] : List Byte).length ≤ builtV20.config.obufSize ∧
    (∀ k, k < (packBlock twoCodes.code [0x00, 0xFF, 0x00]).length →
      Memory.read builtV20.pbuf k = (packBlock twoCodes.code [0x00, 0xFF, 0x00])[k]?) := by
  rw [packV39, show twoCodes.code = _ from funext twoCodes_code]
  refine ⟨rfl, ?_, by decide, by decide, by decide, by decide, by decide, by decide⟩
  have := builtV20_holds
  rwa [show twoCodes.code = _ from funext twoCodes_code] at this

theorem nodesV21_shape : TrieShape nodesV21 :=
  trieShape_of_buildTrie (nodeMax := 511) (code := (loadedV9 0 0).code) (by decide) (by decide +kernel)

/-- V33 (exhausted inside a code), and both lengths at the buffer sizes. -/
theorem witness_DecodeEndsAtCountOrMisfit :
    (∀ pl el, (builtV21 pl el).status.trieValid = true ∧ ArenaOk (builtV21 pl el) ∧ TrieOk (builtV21 pl el)) ∧
    ((builtV21 1 11).packedLen.toNat ≤ (builtV21 1 11).config.pbufSize ∧
      (builtV21 1 11).expectedLen.toNat ≤ (builtV21 1 11).config.obufSize) ∧
    ((builtV21 64 64).packedLen.toNat ≤ (builtV21 64 64).config.pbufSize ∧
      (builtV21 64 64).expectedLen.toNat ≤ (builtV21 64 64).config.obufSize) := by
  refine ⟨fun pl el => ⟨rfl, ⟨rfl, ?_, ?_⟩, fun _ => nodesV21_shape⟩, by decide, by decide⟩
  · show 9 ≤ 511
    decide
  · show true = true ↔ 1 ≤ 9
    decide

/-- V61: both commands, both lengths one beyond the buffer. -/
theorem witness_DecodeChecksItsLengths :
    ((Instr.decode = .decode ∧ (builtV21 65 0).status.trieValid = true) ∧
      (builtV21 65 0).config.pbufSize < (builtV21 65 0).packedLen.toNat) ∧
    ((builtV21 64 65).packedLen.toNat ≤ (builtV21 64 65).config.pbufSize ∧
      (builtV21 64 65).config.obufSize < (builtV21 64 65).expectedLen.toNat) ∧
    ((Instr.blkdec = .blkdec ∧ (loadedV9 65 0).status.trieValid = false) ∧
      (loadedV9 65 0).config.pbufSize < (loadedV9 65 0).packedLen.toNat) ∧
    ((loadedV9 64 65).packedLen.toNat ≤ (loadedV9 64 65).config.pbufSize ∧
      (loadedV9 64 65).config.obufSize < (loadedV9 64 65).expectedLen.toNat) := by decide

theorem witness_DecodeWithoutTrieFaults : State.reset.status.trieValid = false := rfl

/-- V36: a root-only trie, without and with a packed byte. -/
def rootOnly (pl el : Word) : State :=
  { State.reset with
    nodes := [{ left := none, right := none, sym := none }], nodeCount := 1, packedLen := pl, expectedLen := el
    status := { Status.reset with trieValid := true } }

theorem witness_DegenerateDecodes :
    (rootOnly 64 0).status.trieValid = true ∧ (rootOnly 64 0).packedLen.toNat ≤ (rootOnly 64 0).config.pbufSize ∧
    (rootOnly 64 0).expectedLen = 0 ∧
    (rootOnly 0 1).nodes = [{ left := none, right := none, sym := none }] ∧ 1 ≤ (rootOnly 0 1).expectedLen.toNat ∧
    (rootOnly 0 1).expectedLen.toNat ≤ (rootOnly 0 1).config.obufSize ∧ (rootOnly 0 1).packedLen = 0 ∧
    (rootOnly 1 1).packedLen ≠ 0 := by decide

/-- V39 for `blkdec`. -/
def loadedV39 : State :=
  { twoCodes with pbuf := [(0, 0xA0), (1, 0), (2, 0), (3, 0)], packedLen := 1, expectedLen := 3 }

theorem witness_BlkdecReturnsThePackedBlock :
    loadedV39.status.trieValid = false ∧ PrefixFree loadedV39.code ∧
    nodesNeeded loadedV39.code ≤ loadedV39.config.nodeMax ∧
    (∀ a ∈ ([0x00, 0xFF, 0x00] : List Byte), loadedV39.code a ≠ []) ∧
    (packBlock loadedV39.code [0x00, 0xFF, 0x00]).length ≤ loadedV39.packedLen.toNat ∧
    loadedV39.packedLen.toNat ≤ loadedV39.config.pbufSize ∧
    loadedV39.expectedLen.toNat = ([0x00, 0xFF, 0x00] : List Byte).length ∧
    ([0x00, 0xFF, 0x00] : List Byte).length ≤ loadedV39.config.obufSize ∧
    (∀ k, k < (packBlock loadedV39.code [0x00, 0xFF, 0x00]).length →
      Memory.read loadedV39.pbuf k = (packBlock loadedV39.code [0x00, 0xFF, 0x00])[k]?) := by
  rw [show loadedV39.code = twoCodes.code from rfl, packV39]
  refine ⟨rfl, twoCodes_prefixFree, by rw [twoCodes_nodes]; decide, ?_, by decide, by decide, by decide, by decide,
    by decide⟩
  rw [show twoCodes.code = _ from funext twoCodes_code]
  decide

theorem witness_BlkdecIsBuildDecodeRelease :
    ∃ a b c : State, State.reset.status.trieValid = false ∧
      exec .tbuild State.reset = .next a ∧ a.status.done = true ∧
      exec .decode a = .next b ∧ b.status.done = true ∧ exec .tfree b = .next c := by
  have hb : buildTrie State.reset.config.nodeMax State.reset.code = .ok [Node.empty] := by decide +kernel
  exact ⟨_, _, _, rfl, exec_tbuild_ok rfl hb, rfl,
    exec_decode_ok rfl (latchLengths_ok (by decide) (by decide)) (k := Walk.start 0) (decodeLoop_count (by decide) _),
    rfl, rfl⟩

/-- The second clause: `tbuild` faults (equal codes), `decode` faults on the built trie (V33), neither faults (V34). -/
theorem witness_BlkdecIsBuildDecodeRelease_legal :
    (equalCodes.status.trieValid = false ∧ equalCodes.packedLen.toNat ≤ equalCodes.config.pbufSize ∧
      equalCodes.expectedLen.toNat ≤ equalCodes.config.obufSize ∧
      (after (exec .tbuild equalCodes)).status.done = false) ∧
    ((loadedV9 1 11).status.trieValid = false ∧ (loadedV9 1 11).packedLen.toNat ≤ (loadedV9 1 11).config.pbufSize ∧
      (loadedV9 1 11).expectedLen.toNat ≤ (loadedV9 1 11).config.obufSize ∧
      (after (exec .tbuild (loadedV9 1 11))).status.done = true ∧
      (after (exec .decode (after (exec .tbuild (loadedV9 1 11))))).status.done = false) ∧
    ((loadedV9 2 7).status.trieValid = false ∧ (loadedV9 2 7).packedLen.toNat ≤ (loadedV9 2 7).config.pbufSize ∧
      (loadedV9 2 7).expectedLen.toNat ≤ (loadedV9 2 7).config.obufSize ∧
      (after (exec .tbuild (loadedV9 2 7))).status.done = true ∧
      (after (exec .decode (after (exec .tbuild (loadedV9 2 7))))).status.done = true) := by decide +kernel

/-- The histogram of the block 00 FF. -/
def counted : State := withFreqs State.reset [(0x00, 1), (0xFF, 1)]

theorem witness_RoundTripReturnsTheBlock :
    counted.status.trieValid = false ∧ 511 ≤ counted.config.nodeMax ∧
    ([0x00, 0xFF] : List Byte).length ≤ counted.config.obufSize ∧
    (∃ a ∈ ([0x00, 0xFF] : List Byte), ∃ b ∈ ([0x00, 0xFF] : List Byte), a ≠ b) ∧
    (∀ a : Byte, (counted.freq.at a).toNat = ([0x00, 0xFF] : List Byte).count a) := by
  refine ⟨rfl, by decide, by decide, ⟨0x00, by decide, 0xFF, by decide, by decide⟩, fun a => ?_⟩
  have h : counted.freq.at a = if a = 0xFF then 1 else if a = 0x00 then 1 else 0 := by
    simp [counted, withFreqs, State.reset, Table.at_put]
  rw [h]
  simp only [List.count_cons, List.count_nil, beq_iff_eq]
  by_cases h1 : a = 0xFF
  · subst h1; decide
  · by_cases h2 : a = 0x00
    · subst h2; decide
    · rw [if_neg h1, if_neg h2, if_neg (Ne.symm h1), if_neg (Ne.symm h2)]; rfl

/-- The packed state `v` of the same statement: `assign` gives 0x00 the code 0 and 0xFF the code 1, so the block packs
to the byte 40. -/
theorem witness_RoundTripReturnsTheBlock_packed :
    let u := after (exec .assign counted)
    let v : State := { u with pbuf := [(0, 0x40)], packedLen := 1, expectedLen := 2 }
    u.code 0x00 = [false] ∧ u.code 0xFF = [true] ∧
    v.packedLen.toNat = (packBlock u.code [0x00, 0xFF]).length ∧ v.packedLen.toNat ≤ v.config.pbufSize ∧
    v.expectedLen.toNat = ([0x00, 0xFF] : List Byte).length ∧
    Memory.read v.pbuf 0 = (packBlock u.code [0x00, 0xFF])[0]? := by decide +kernel

theorem witness_FaultIsTerminal :
    (faulted [.engine]).status.busy = false ∧ (faulted [.engine]).status.fault = true := by decide

theorem witness_EveryCommandCompletesOrFaults : State.reset.status.fault = false := rfl

theorem witness_CommandsWriteOnlyTheirRow : ∃ t, exec .nop State.reset = .next t ∧ t.status.done = true := ⟨_, rfl, rfl⟩

theorem witness_ReadsHaveNoSideEffect :
    (idle [rdTurn 0x10000000]).turns = .hostRead (portAddr 0x10000000) :: [] := rfl

theorem witness_BusyPortAccess :
    (inFlight 0x10 []).status.busy = true ∧ portAddr 0x024 ≠ portAddr 0x004 ∧ portAddr 0x024 ≠ portAddr 0x008 := by
  decide

/-- The first and the last offset of each hidden range. -/
theorem witness_BusyPortAccess_hidden :
    4 * (portAddr 0x010).toNat = 0x010 ∧ 4 * (portAddr 0x038).toNat = 0x038 ∧
    4 * (portAddr 0x400).toNat = 0x400 ∧ 4 * (portAddr 0x13FC).toNat = 0x13FC ∧
    4 * (portAddr 0x2000).toNat = 0x2000 ∧ 4 * (portAddr 0x3FFC).toNat = 0x3FFC ∧
    4 * (portAddr 0x80000).toNat = 0x80000 ∧
    4 * (portAddr 0x80FF4).toNat < 0x80000 + 8 * (inFlight 0x10 []).config.nodeMax ∧
    4 * (portAddr 0x10000000).toNat = 0x10000000 ∧
    4 * (portAddr 0x1000003C).toNat < 0x10000000 + (inFlight 0x10 []).config.pbufSize ∧
    4 * (portAddr 0x20000000).toNat = 0x20000000 ∧
    4 * (portAddr 0x2000003C).toNat < 0x20000000 + (inFlight 0x10 []).config.obufSize := by decide +kernel

/-- The first and the last offset of each unmapped range, with the buffers of 64 bytes and `NODE_MAX` = 511. -/
theorem witness_UnmappedOffsetsAreSilent :
    (portAddr 0x03C).toNat * 4 = 0x03C ∧ (portAddr 0x3FC).toNat * 4 = 0x3FC ∧
    (portAddr 0x1400).toNat * 4 = 0x1400 ∧ (portAddr 0x1FFC).toNat * 4 = 0x1FFC ∧
    (portAddr 0x4000).toNat * 4 = 0x4000 ∧ (portAddr 0x7FFFC).toNat * 4 = 0x7FFFC ∧
    (portAddr 0x80FF8).toNat * 4 = 0x80000 + 8 * State.reset.config.nodeMax ∧
    (portAddr 0x0FFFFFFC).toNat * 4 < 0x10000000 ∧
    (portAddr 0x10000040).toNat * 4 = 0x10000000 + State.reset.config.pbufSize ∧
    (portAddr 0x1FFFFFFC).toNat * 4 < 0x20000000 ∧
    (portAddr 0x20000040).toNat * 4 = 0x20000000 + State.reset.config.obufSize := by decide

theorem witness_WritesReachOnlyWritableState :
    State.reset.status.busy = false ∧ portAddr 0x018 ≠ portAddr 0x004 ∧ portAddr 0x018 ≠ portAddr 0x008 ∧
    4 * (portAddr 0x03FC).toNat = 0x3FC ∧ 4 * (portAddr 0x0800).toNat = 0x800 := by decide

/-- The ends of each range. -/
theorem witness_ReadReturnsTheLastWrite :
    State.reset.status.busy = false ∧
    4 * (portAddr 0x400).toNat = 0x400 ∧ 4 * (portAddr 0x7FC).toNat < 0x800 ∧
    4 * (portAddr 0x2000).toNat = 0x2000 ∧ 4 * (portAddr 0x3FFC).toNat < 0x4000 ∧
    4 * (portAddr 0x10000000).toNat = 0x10000000 ∧
    4 * (portAddr 0x1000003C).toNat < 0x10000000 + State.reset.config.pbufSize ∧
    4 * (portAddr 0x1000).toNat = 0x1000 ∧ 4 * (portAddr 0x13FC).toNat < 0x1400 := by decide

theorem witness_WritesLeaveOtherOffsetsAlone :
    State.reset.status.busy = false ∧ portAddr 0x400 ≠ portAddr 0x004 ∧ portAddr 0x400 ≠ portAddr 0x008 ∧
    portAddr 0x404 ≠ portAddr 0x400 ∧ portAddr 0x404 ≠ portAddr 0x00C := by decide

/-- The last word of `PBUF` written, and P2's word 2 of `OBUF`, whose byte 11 is unspecified. -/
theorem witness_BufferWordsAreLittleEndian :
    let s : State := { loadedV9 0 0 with obuf := [(8, 0x42), (9, 0x52), (10, 0x41)] }
    s.status.busy = false ∧ 15 < s.config.pbufSize / 4 ∧ Memory.read s.pbuf (4 * 0 + 1) = some 0xCF ∧
    2 < s.config.obufSize / 4 ∧ Memory.read s.obuf (4 * 2 + 2) = some 0x41 ∧ Memory.read s.obuf (4 * 2 + 3) = none := by
  decide

theorem witness_FreqWriteMakesRankingStale :
    State.reset.status.busy = false ∧ 0x400 ≤ 4 * (portAddr 0x7FC).toNat ∧ 4 * (portAddr 0x7FC).toNat < 0x800 ∧
    State.reset.status.rankValid = false := by decide

theorem witness_FreqWriteMakesRankingStale_set :
    ∃ t, step (inFlight 0x13 []) = .next t ∧ (inFlight 0x13 []).status.rankValid = false ∧
      t.status.rankValid = true := ⟨_, rfl, rfl, rfl⟩

theorem witness_TrieIsASnapshot : portAddr 0x1000 ≠ portAddr 0x004 ∧ ranked.status.rankValid = true := by decide

theorem witness_NodeWordsHoldTheirFields :
    (∀ c, ({ left := some 65535, right := none, sym := none } : Node).left = some c → c < 65536) ∧
    (∀ c, ({ left := some 65535, right := none, sym := none } : Node).right = some c → c < 65536) := by
  refine ⟨fun c h => ?_, fun c h => ?_⟩
  · simp only [Option.some.injEq] at h
    omega
  · simp at h

theorem witness_RegistersReadAsTheyAre : (builtV21 3 11).status.busy = false := rfl

/-- The last allocated node, the first that is not, and the last of the arena. -/
theorem witness_NodeWordsHoldTheirFields_read :
    (builtV21 3 11).status.busy = false ∧ 8 < (builtV21 3 11).config.nodeMax ∧ 8 < (builtV21 3 11).nodeCount.toNat ∧
    (builtV21 3 11).nodeCount.toNat ≤ 9 ∧ 510 < (builtV21 3 11).config.nodeMax := by decide

theorem witness_CodeIsReadFromItsWords :
    let s : State := { State.reset with clen := Table.const 255 }
    s.status.busy = false ∧ 254 < (s.clen.at 0xFF).toNat := by
  refine ⟨rfl, ?_⟩
  simp

theorem witness_ResetLeavesTheListedValues : ∃ t, t = (builtV21 3 11).softReset ∨ t = (builtV21 3 11).hardReset :=
  ⟨_, .inl rfl⟩

theorem witness_ResetsActInEveryPhase :
    (inFlight 0x10 [wrTurn 0x004 1]).turns = [.hostWrite (portAddr 0x004) 1] ∧
    (faulted [.resetPin]).turns = [.resetPin] := by decide

theorem witness_StepKeepsStatusAndBitmask :
    (∃ t, step State.reset = .next t) ∧ StatusOk State.reset ∧ BitmaskOk State.reset := by
  refine ⟨⟨_, rfl⟩, ?_, ?_⟩
  · unfold StatusOk; decide
  · unfold BitmaskOk; decide

theorem witness_StepKeepsRankTables : RankTablesOk ranked ∧ ∃ t, step ranked = .next t := ⟨ranked_ok, _, rfl⟩

theorem witness_StepKeepsTrie :
    ArenaOk (rootOnly 1 1) ∧ TrieOk (rootOnly 1 1) ∧ ∃ t, step (rootOnly 1 1) = .next t := by
  refine ⟨by unfold ArenaOk; decide, fun _ => ⟨?_, ?_, ?_, ?_⟩, _, rfl⟩
  · rintro n c hn (h | h) <;> (simp only [rootOnly, List.length_singleton, Nat.lt_one_iff] at hn; subst hn; cases h)
  · intro c h0 h1
    simp only [rootOnly, List.length_singleton] at h1
    omega
  · intro n h0 h1
    simp only [rootOnly, List.length_singleton] at h1
    omega
  · intro n h0 h1
    simp only [rootOnly, List.length_singleton, Nat.lt_one_iff] at h0
    subst h0
    cases h1

theorem witness_StepKeepsBuffers :
    BuffersOk (loadedV9 3 11) ∧ ∃ t, step (loadedV9 3 11) = .next t := by
  refine ⟨?_, _, rfl⟩
  unfold BuffersOk
  decide

theorem witness_EveryStepGoesOn :
    ({ State.reset with status := { Status.reset with ovr := true } } : State).status.ovr = true := rfl

theorem witness_CodeTextRoundTrips : (List.replicate 256 [true, false]).length = 256 := List.length_replicate

end Sys2Proof.Tests
end

section
/-! The state the host sees: code words, the values at reset, and the two resets (10_state.md). -/

namespace Sys2Proof.Machine

/-! ### The code of a symbol (10_state.md R44, R45) -/

theorem getLsbD_cbitsWord (v : BitVec 256) (w i : Nat) :
    (cbitsWord v w).getLsbD i = (decide (i < 32) && v.getLsbD (32 * w + i)) := by
  rw [cbitsWord, BitVec.getLsbD_extractLsb']

theorem code_length (s : State) (a : Byte) : (s.code a).length = (s.clen.at a).toNat := by
  simp [State.code, codeString]

theorem code_getElem? (s : State) (a : Byte) {k : Nat} (hk : k < (s.clen.at a).toNat) :
    (s.code a)[k]? = some ((s.cbits.at a).getLsbD k) := by
  simp [State.code, codeString, List.getElem?_range hk]

/-- Word `w` of the `CBITS` entry of `a` lies at offset `0x2000 + 32*a + 4*w` (R44). -/
theorem hostRead_cbits {s : State} (hb : s.status.busy = false) (a : Byte) {w : Nat} (hw : w < 8) :
    s.hostRead (portAddr (0x2000 + 32 * a.toNat + 4 * w)) = (cbitsWord (s.cbits.at a) w, s.draws) := by
  have ha := a.isLt
  have entry : (0x2000 + 32 * a.toNat + 4 * w - 0x2000) / 32 = a.toNat := by omega
  have word : (0x2000 + 32 * a.toNat + 4 * w - 0x2000) % 32 / 4 = w := by omega
  rw [hostRead_idle hb, portOffset_portAddr (by omega) (by omega), locate_cbits _ (by omega) (by omega),
    entry, word, BitVec.ofNat_toNat, BitVec.setWidth_eq]
  rfl

/-- Settles O51: a code has at most 255 bits, so its bit `k` lies in one of the eight words of the entry. -/
theorem codeIsReadFromItsWords : Obligations.CodeIsReadFromItsWords := by
  intro s a hb
  refine ⟨code_length s a, fun k hk => ?_⟩
  have hw : k / 32 < 8 := by
    have := (s.clen.at a).isLt
    omega
  have hi : k % 32 < 32 := Nat.mod_lt _ (by decide)
  rw [code_getElem? s a hk, hostRead_cbits hb a hw, getLsbD_cbitsWord, Nat.div_add_mod]
  simp [hi]

/-! ### Reads that no phase hides -/

theorem hostRead_id (s : State) : s.hostRead (portAddr 0x000) = (idWord, s.draws) := by
  have loc : locate s.config (portOffset (portAddr 0x000)) = .id := by
    rw [portOffset_portAddr (by decide) (by decide), locate_register _ (by decide)]
    rfl
  simp [State.hostRead, loc, State.readLocBusy, State.readLoc]

/-- `CTRL` reads as 0 in every phase (10_state.md R25). -/
theorem hostRead_ctrl (s : State) : s.hostRead (portAddr 0x004) = (0, s.draws) := by
  have loc : locate s.config (portOffset (portAddr 0x004)) = .ctrl :=
    (locate_eq_ctrl_iff _ _).2 (portOffset_portAddr (by decide) (by decide))
  simp [State.hostRead, loc, State.readLocBusy, State.readLoc]

/-! ### What `assign` does with an empty block (40_cae.md R114) -/

theorem countNonzero_of_zero {freq : Table Word} (h : ∀ a, freq.at a = 0) : countNonzero freq = 0 := by
  simp [countNonzero_eq, nonzeroSymbols, h]

/-- With `FREQ` all zero, `assign` makes the all-empty code table. -/
theorem exec_assign_of_zero {s : State} (h : ∀ a, s.freq.at a = 0) :
    ∃ u, exec .assign s = .next u ∧ ∀ a, u.code a = [] := by
  have noSymbol : s.rankEffect.nnz.toNat = 0 := by simp [countNonzero_of_zero h]
  refine ⟨_, exec_assign s, fun a => ?_⟩
  rw [partEffect_of_none noSymbol]
  apply List.eq_nil_of_length_eq_zero
  simp [code_length]

/-! ### The resets (70_reset_and_hazards.md R230, R231) -/

/-- Either reset leaves the state of R55, but for what is no part of the SFU and for `PBUF`. -/
theorem either_reset_eq {s t : State} (h : t = s.hardReset ∨ t = s.softReset) :
    ∃ pbuf, t = { State.reset with
      pbuf := pbuf, config := s.config, turns := s.turns, readData := s.readData, draws := s.draws } := by
  rcases h with rfl | rfl
  · exact ⟨[], rfl⟩
  · exact ⟨s.pbuf, rfl⟩

/-- Settles O52: every listed value is the one of `State.reset`, and `FREQ` all zero makes `assign`'s table empty. -/
theorem resetLeavesTheListedValues : Obligations.ResetLeavesTheListedValues := by
  intro s t h
  have hardPbuf : t = s.hardReset → ∀ k, Memory.read t.pbuf k = none := by
    rintro rfl k
    rfl
  have softPbuf : t = s.softReset → t.pbuf = s.pbuf := by
    rintro rfl
    rfl
  obtain ⟨pbuf, rfl⟩ := either_reset_eq h
  have tables : ∀ a : Byte, State.reset.freq.at a = 0 ∧ State.reset.symOf.at a = 0 ∧ State.reset.rankOf.at a = 0 ∧
      State.reset.clen.at a = 0 ∧ State.reset.cbits.at a = 0 := by
    intro a
    simp [State.reset]
  exact ⟨rfl, rfl, rfl, rfl, rfl, rfl, hostRead_id _, hostRead_ctrl _, rfl, rfl, rfl, rfl, rfl, rfl, rfl, rfl, rfl, rfl,
    rfl, rfl, tables, fun _ => rfl, hardPbuf, softPbuf, exec_assign_of_zero fun a => (tables a).1⟩

/-- Settles O53: the turn decides what the step does, and no phase hides `CTRL`. -/
theorem resetsActInEveryPhase : Obligations.ResetsActInEveryPhase := by
  intro s v rest
  refine ⟨fun h => ?_, fun h => ?_, hostRead_ctrl s⟩
  · simp only [step, h, hostWrite_ctrl, State.writeCtrl]
  · simp only [step, h]

end Sys2Proof.Machine
end

section
/-! The byte buffers at the host port (20_memory.md R61, R62): where a buffer word lies, what a write stores there, what
a read returns. -/

namespace Sys2Proof.Machine

theorem locate_pbufWord {c : Config} {j : Nat} (hj : j < c.pbufSize / 4) :
    locate c (portOffset (portAddr (0x10000000 + 4 * j))) = .pbuf j := by
  have := pbufSize_le c
  rw [portOffset_portAddr (by omega) (by omega), locate_pbuf c (by omega) (by omega), Nat.add_sub_cancel_left,
    Nat.mul_div_cancel_left j (by decide)]

theorem locate_obufWord {c : Config} {j : Nat} (hj : j < c.obufSize / 4) :
    locate c (portOffset (portAddr (0x20000000 + 4 * j))) = .obuf j := by
  have := obufSize_le c
  rw [portOffset_portAddr (by omega) (by omega), locate_obuf c (by omega) (by omega), Nat.add_sub_cancel_left,
    Nat.mul_div_cancel_left j (by decide)]

theorem hostWrite_pbufWord {s : State} (hb : s.status.busy = false) {j : Nat} (hj : j < s.config.pbufSize / 4)
    (v : Word) :
    s.hostWrite (portAddr (0x10000000 + 4 * j)) v = { s with pbuf := Memory.writeWord s.pbuf j v } := by
  simp [State.hostWrite, locate_pbufWord hj, hb, State.writeLoc]

theorem hostRead_pbufWord {s : State} (hb : s.status.busy = false) {j : Nat} (hj : j < s.config.pbufSize / 4) :
    s.hostRead (portAddr (0x10000000 + 4 * j)) = wordOrFree s.pbuf j s.draws := by
  rw [hostRead_idle hb, locate_pbufWord hj, State.readLoc]

theorem hostRead_obufWord {s : State} (hb : s.status.busy = false) {j : Nat} (hj : j < s.config.obufSize / 4) :
    s.hostRead (portAddr (0x20000000 + 4 * j)) = wordOrFree s.obuf j s.draws := by
  rw [hostRead_idle hb, locate_obufWord hj, State.readLoc]

/-- Settles O46: at the port a buffer word is `Memory.writeWord` and `wordOrFree`, whose laws are byte by byte. -/
theorem bufferWordsAreLittleEndian : Obligations.BufferWordsAreLittleEndian := by
  refine ⟨fun s j v hb hj => ?_, fun s j k b hb hk => ⟨fun hj h => ?_, fun hj h => ?_⟩⟩
  · rw [hostWrite_pbufWord hb hj]
    exact ⟨fun _ hk => Memory.read_writeWord s.pbuf j v hk, fun _ ha => Memory.read_writeWord_other s.pbuf j v ha⟩
  · rw [hostRead_pbufWord hb hj]
    exact byteOfWord_wordOrFree hk h s.draws
  · rw [hostRead_obufWord hb hj]
    exact byteOfWord_wordOrFree hk h s.draws

end Sys2Proof.Machine
end

section
/-! The lengths `decode` and `blkdec` latch (42_decode.md R151), and what `blkdec` leaves of the trie (R161). -/

namespace Sys2Proof.Machine

/-! ### Fault entry (60_exceptions.md R210, R211) -/

theorem raise_faultEntered (s : State) {c : Cause} {err : Word} (h : c.errWord = err) (info : Word) :
    FaultEntered (s.raise { cause := c, info := info }) err info := by
  simp [FaultEntered, h]

/-- Fault entry itself keeps everything `Untouched` lists. -/
theorem raise_untouched (s : State) (f : FaultReport) : Untouched s (s.raise f) := by
  simp [Untouched, SameInputs, SameRanking, SameCodes, SameCursor]

/-! ### The length checks -/

/-- Past the sequence check a length that does not fit is the fault of either command. -/
theorem exec_lengths {s : State} {i : Instr}
    (hi : (i = .decode ∧ s.status.trieValid = true) ∨ (i = .blkdec ∧ s.status.trieValid = false))
    {f : FaultReport} (hl : s.latchLengths = .error f) : exec i s = .next (s.raise f) := by
  rcases hi with ⟨rfl, ht⟩ | ⟨rfl, ht⟩
  · exact exec_decode_lengths ht hl
  · exact exec_blkdec_lengths ht hl

theorem latchLengths_pbuf {s : State} (h : s.config.pbufSize < s.packedLen.toNat) :
    s.latchLengths = .error { cause := .pbuf, info := s.packedLen } := by
  simp [State.latchLengths, h]

theorem latchLengths_obuf {s : State} (h1 : s.packedLen.toNat ≤ s.config.pbufSize)
    (h2 : s.config.obufSize < s.expectedLen.toNat) :
    s.latchLengths = .error { cause := .obuf, info := s.expectedLen } := by
  simp [State.latchLengths, Nat.not_lt.2 h1, h2]

/-- Settles O29: `latchLengths` decides the three cases, and a length fault is fault entry on the state as it was. -/
theorem decodeChecksItsLengths : Obligations.DecodeChecksItsLengths := by
  intro s i hi
  refine ⟨fun h => ?_, fun h1 h2 => ?_, latchLengths_ok⟩
  · exact ⟨_, exec_lengths hi (latchLengths_pbuf h), raise_faultEntered s (by decide) _, raise_untouched s _⟩
  · exact ⟨_, exec_lengths hi (latchLengths_obuf h1 h2), raise_faultEntered s (by decide) _, raise_untouched s _⟩

/-! ### How `blkdec` ends -/

/-- `blkdec` ends in fault entry, or without a trie held in the release. -/
theorem exec_blkdec_ends (s : State) :
    ∃ t, exec .blkdec s = .next t ∧
      ((∃ s' f, t = State.raise s' f) ∨
       (s.status.trieValid = false ∧ ∃ s' : State, s'.status = s.status ∧ t = s'.releaseNodes.complete)) := by
  obtain ⟨t, ht⟩ := exec_next .blkdec s
  refine ⟨t, ht, ?_⟩
  obtain ⟨f, _, e⟩ | e := exec_cases ht
  · rcases e with rfl | ⟨_, rfl⟩
    · exact .inl ⟨_, _, rfl⟩
    · exact .inl ⟨_, _, rfl⟩
  · simp only [reduceCtorEq, false_and, false_or, true_and, exists_false] at e
    obtain ⟨held, _, _, ns, _, k, o, _, ⟨_, rfl⟩ | ⟨f, _, rfl⟩⟩ := e
    · exact .inr ⟨held, (s.storeNodes ns).withWalk k, rfl, rfl⟩
    · exact .inl ⟨_, _, rfl⟩

/-- Settles O34: fault entry and the release both drop the arena, and only fault entry has a `TRIE_VALID` to clear. -/
theorem blkdecLeavesNoTrie : Obligations.BlkdecLeavesNoTrie := by
  intro s
  obtain ⟨t, ht, ⟨s', f, rfl⟩ | ⟨held, s', e, rfl⟩⟩ := exec_blkdec_ends s
  · exact ⟨_, ht, rfl, rfl, rfl⟩
  · exact ⟨_, ht, rfl, rfl, (congrArg Status.trieValid e).trans held⟩

end Sys2Proof.Machine
end

section
/-! Decoding the packed stream of a block (42_decode.md R152 to R154, 44_host_reference.md R183): the walk emits the
block, one code after the other. -/

namespace Sys2Proof.Machine

/-! ### The stream -/

/-- The packed stream holds these bits from bit `p` on. -/
def StreamBits (pbuf : Memory) (p : Nat) (bits : List Bool) : Prop :=
  ∀ j (hj : j < bits.length), StreamBit pbuf (p + j) bits[j]

theorem StreamBits.left {pbuf : Memory} {p : Nat} {xs ys : List Bool} (h : StreamBits pbuf p (xs ++ ys)) :
    StreamBits pbuf p xs := by
  intro j hj
  have := h j (by simp; omega)
  rwa [List.getElem_append_left hj] at this

theorem StreamBits.right {pbuf : Memory} {p : Nat} {xs ys : List Bool} (h : StreamBits pbuf p (xs ++ ys)) :
    StreamBits pbuf (p + xs.length) ys := by
  intro j hj
  have := h (xs.length + j) (by simp; omega)
  rw [Nat.add_assoc]
  simpa using this

/-! ### What a walk has emitted -/

/-- The walk stands at the root and has put these bytes, and no others, into `OBUF`. -/
def Walk.Emitted (k : Walk) (out : List Byte) : Prop :=
  k.node = 0 ∧ k.outCount.toNat = out.length ∧ ∀ i, Memory.read k.obuf i = out[i]?

theorem Walk.emitted_start (d : Nat) : (Walk.start d).Emitted [] := ⟨rfl, rfl, fun _ => rfl⟩

/-- The next symbol goes to the next byte of `OBUF`. -/
theorem Walk.Emitted.snoc {k k' : Walk} {out : List Byte} {a : Byte} (h : k.Emitted out) (hlt : out.length + 1 < 2 ^ 32)
    (hn : k'.node = 0) (hc : k'.outCount = k.outCount + 1) (ho : k'.obuf = Memory.write k.obuf k.outCount.toNat a) :
    k'.Emitted (out ++ [a]) := by
  obtain ⟨_, hlen, hread⟩ := h
  refine ⟨hn, ?_, fun i => ?_⟩
  · rw [hc, BitVec.toNat_add, hlen, List.length_append]
    exact Nat.mod_eq_of_lt hlt
  · rw [ho, Memory.read_write, hread, hlen]
    by_cases hi : i = out.length
    · simp [hi]
    · rw [if_neg hi, List.getElem?_append]
      split
      · rfl
      · rw [List.getElem?_eq_none (by omega), List.getElem?_eq_none (by simp; omega)]

/-! ### The loop over a block -/

/-- From the root, through a trie that holds the codes, the stream of a block is followed to its end and the block is
emitted. -/
theorem decodeLoop_block {nodes : List Node} {pbuf : Memory} {pl el : Word} {code : Byte → List Bool}
    (hpl : pl.toNat < 2 ^ 28 + 1) (hT : TrieHolds nodes code) (block : List Byte) (hcode : ∀ a ∈ block, code a ≠ [])
    (bound p : Nat) (k : Walk) (out : List Byte) (hk : k.At p) (hout : k.Emitted out)
    (hcount : out.length + block.length ≤ el.toNat) (hfit : p + (block.flatMap code).length ≤ 8 * pl.toNat)
    (hs : StreamBits pbuf p (block.flatMap code)) :
    ∃ k', decodeLoop nodes pbuf pl el (bound + (block.flatMap code).length) k = decodeLoop nodes pbuf pl el bound k' ∧
      k'.Emitted (out ++ block) ∧ k'.At (p + (block.flatMap code).length) ∧ k'.draws = k.draws := by
  induction block generalizing p k out with
  | nil => exact ⟨k, rfl, by simpa using hout, hk, rfl⟩
  | cons a block ih =>
    rw [List.flatMap_cons] at hfit hs ⊢
    rw [List.length_append] at hfit ⊢
    rw [List.length_cons] at hcount
    have hel := el.isLt
    have hne := hcode a List.mem_cons_self
    obtain ⟨n, hpath, hleaf⟩ := hT a hne
    obtain ⟨k₁, e₁, hn₁, hc₁, ho₁, hd₁, hk₁⟩ := decodeLoop_code (el := el) hpl (code a)
      (bound + (block.flatMap code).length) p n k hne hk (by rw [hout.2.1]; omega) (by omega) hs.left
      (by rw [hout.1]; exact hpath) (by rw [hleaf]; rfl)
    rw [hleaf] at ho₁
    have hout₁ : k₁.Emitted (out ++ [a]) := hout.snoc (by omega) hn₁ hc₁ ho₁
    obtain ⟨k₂, e₂, hout₂, hk₂, hd₂⟩ := ih (fun b hb => hcode b (List.mem_cons_of_mem a hb)) (p + (code a).length) k₁
      (out ++ [a]) hk₁ hout₁ (by simp; omega) (by omega) hs.right
    refine ⟨k₂, ?_, by simpa using hout₂, by rwa [← Nat.add_assoc], hd₂.trans hd₁⟩
    rw [Nat.add_comm (code a).length, ← Nat.add_assoc, e₁, e₂]

/-! ### The whole of `DecodeBlock` -/

/-- `PBUF` holds the packed stream of a block, the length registers its lengths, and both lengths are legal. -/
structure HoldsPacked (s : State) (code : Byte → List Bool) (block : List Byte) : Prop where
  packed : (packBlock code block).length ≤ s.packedLen.toNat
  packedFits : s.packedLen.toNat ≤ s.config.pbufSize
  expected : s.expectedLen.toNat = block.length
  expectedFits : block.length ≤ s.config.obufSize
  bytes : ∀ k, k < (packBlock code block).length → Memory.read s.pbuf k = (packBlock code block)[k]?

section
variable {s : State} {code : Byte → List Bool} {block : List Byte}

theorem HoldsPacked.latchLengths (h : HoldsPacked s code block) :
    s.latchLengths = .ok (s.packedLen, s.expectedLen) :=
  latchLengths_ok h.packedFits (h.expected ▸ h.expectedFits)

/-- `DecodeBlock` emits the block, ends at the count, behind the last bit of the stream, and draws nothing. -/
theorem HoldsPacked.decodeBlock (h : HoldsPacked s code block) (hT : TrieHolds s.nodes code)
    (hcode : ∀ a ∈ block, code a ≠ []) :
    ∃ k, s.decodeBlock s.packedLen s.expectedLen = (k, none) ∧ k.Emitted block ∧ k.At (block.flatMap code).length ∧
      k.draws = s.draws := by
  have hpl : s.packedLen.toNat < 2 ^ 28 + 1 := Nat.lt_succ_of_le (h.packedFits.trans (pbufSize_le s.config))
  have hfit : (block.flatMap code).length ≤ 8 * s.packedLen.toNat := by
    have := h.packed
    rw [packBlock_length] at this
    omega
  have hs : StreamBits s.pbuf 0 (block.flatMap code) := fun j hj => by
    rw [Nat.zero_add]
    exact streamBit_of_pack h.bytes hj
  obtain ⟨bound, hbound⟩ : ∃ bound, 8 * s.packedLen.toNat + 1 = bound + (block.flatMap code).length :=
    ⟨8 * s.packedLen.toNat + 1 - (block.flatMap code).length, by omega⟩
  obtain ⟨k, e, hout, hk, hd⟩ := decodeLoop_block (el := s.expectedLen) hpl hT block hcode bound 0
    (Walk.start s.draws) [] (Walk.at_start _) (Walk.emitted_start _) (by simp [h.expected]) (by omega) hs
  rw [List.nil_append] at hout
  refine ⟨k, ?_, hout, by rwa [Nat.zero_add] at hk, hd⟩
  rw [State.decodeBlock, hbound, e, decodeLoop_count (by rw [h.expected, hout.2.1])]

end

end Sys2Proof.Machine
end

section
/-! The round trip (42_decode.md R157): the codes `assign` gives a block make a trie that fits 511 nodes, through which
the packed block decodes to itself. -/

namespace Sys2Proof.Machine

/-! ### Tables the build accepts (41_trie.md R136, R137) -/

/-- A fitting table whose codes do not collide is built: either fault would contradict a premise. -/
theorem buildTrie_of_prefixFree {nodeMax : Nat} {code : Byte → List Bool} (hmax : 1 ≤ nodeMax) (hpf : PrefixFree code)
    (hfit : nodesNeeded code ≤ nodeMax) : ∃ ns, buildTrie nodeMax code = .ok ns ∧ TrieHolds ns code := by
  rcases buildTrie_cases nodeMax hmax code with ⟨ns, e, hp, _⟩ | ⟨f, before, after, a, _, cut, hne, hfault, _⟩
  · exact ⟨ns, e, hp.trieHolds⟩
  · exfalso
    rcases hfault with hcol | hover
    · have notBefore : a ∉ before := fun ha => Nat.lt_irrefl _ ((mem_before_iff cut a).1 ha)
      exact hcol.not_prefixFree notBefore hne hpf
    · exact Nat.not_lt.2 hfit hover.nodesNeeded

theorem prefixFree_of_empty {code : Byte → List Bool} (h : ∀ a, code a = []) : PrefixFree code :=
  fun a _ _ ha => absurd (h a) ha

theorem nodesNeeded_of_empty {code : Byte → List Bool} (h : ∀ a, code a = []) : nodesNeeded code = 1 := by
  have noPrefix : codePrefixes code = [] := by
    rw [List.eq_nil_iff_forall_not_mem]
    intro p hp
    obtain ⟨hne, a, ha⟩ := mem_codePrefixes.1 hp
    rw [h a, List.prefix_nil] at ha
    exact hne ha
  rw [nodesNeeded, noPrefix, List.length_nil]

/-! ### The codes `part` gives (40_cae.md R113) -/

section
variable {s : State} {l : List (Byte × List Bool)}

/-- A non-empty code is a listed one. -/
theorem CodesOf.mem_of_code_ne (h : CodesOf s l) (hle : s.nnz.toNat ≤ 256) {a : Byte} (ha : s.partEffect.code a ≠ []) :
    (a, s.partEffect.code a) ∈ l := by
  have listed : a ∈ l.map Prod.fst := by
    by_contra hn
    exact ha (h.no_code hn).2.2
  obtain ⟨x, hx, rfl⟩ := List.mem_map.1 listed
  rwa [h.code hle hx]

/-- R113 (b): any two listed codes part at some bit. -/
theorem CodesOf.prefixFree (h : CodesOf s l) (hle : s.nnz.toNat ≤ 256) : PrefixFree s.partEffect.code := by
  intro a b hab ha hb
  rcases pairwise_either h.parts (h.mem_of_code_ne hle ha) (h.mem_of_code_ne hle hb)
      (fun e => hab (congrArg Prod.fst e)) with hp | hp
  · exact hp.not_prefix.1
  · exact hp.not_prefix.2

/-- R113 (a): with two non-zero counts every counted symbol has a code. -/
theorem CodesOf.code_ne (h : CodesOf s l) (hle : s.nnz.toNat ≤ 256) (h2 : 2 ≤ s.nnz.toNat) {a : Byte}
    (ha : s.freq.at a ≠ 0) : s.partEffect.code a ≠ [] := by
  obtain ⟨x, hx, rfl⟩ := List.mem_map.1 ((h.symbols a).2 ha)
  rw [h.code hle hx]
  exact h.nonempty h2 x hx

/-- 41_trie.md R137: the root and two nodes for each symbol after the first. -/
theorem CodesOf.nodesNeeded_le (h : CodesOf s l) (hle : s.nnz.toNat ≤ 256) :
    nodesNeeded s.partEffect.code ≤ 1 + 2 * (s.nnz.toNat - 1) := by
  obtain ⟨P, hlen, hP⟩ := h.prefixes
  have sub : codePrefixes s.partEffect.code ⊆ P := by
    intro p hp
    obtain ⟨hne, a, ha⟩ := mem_codePrefixes.1 hp
    have code_ne : s.partEffect.code a ≠ [] := fun e => hne (List.prefix_nil.1 (e ▸ ha))
    exact hP _ (h.mem_of_code_ne hle code_ne) p hne ha
  have nodup : (codePrefixes s.partEffect.code).Nodup := List.nodup_dedup _
  have := (nodup.subperm sub).length_le
  rw [nodesNeeded]
  omega

end

/-! ### The codes `assign` gives a block -/

/-- The tables `rank` leaves are valid (10_state.md R52 (b)). -/
theorem rankEffect_rankTablesOk (s : State) : RankTablesOk s.rankEffect :=
  fun _ => ⟨isRanking_tables s.freq, rankEffect_describes s⟩

/-- Two symbols that are counted make `NNZ` at least 2 (40_cae.md R102). -/
theorem two_le_nnz {s : State} {a b : Byte} (hab : a ≠ b) (ha : s.freq.at a ≠ 0) (hb : s.freq.at b ≠ 0) :
    2 ≤ s.rankEffect.nnz.toNat := by
  rw [(rankEffect_describes s).1]
  have sub : [a, b] ⊆ nonzeroSymbols s.freq := by
    simpa [nonzeroSymbols, mem_allBytes] using ⟨ha, hb⟩
  have nodup : [a, b].Nodup := by simpa using hab
  exact (nodup.subperm sub).length_le

/-- `FREQ` is the histogram of the block. -/
def IsHistogram (freq : Table Word) (block : List Byte) : Prop := ∀ a : Byte, (freq.at a).toNat = block.count a

theorem IsHistogram.ne_zero_iff {freq : Table Word} {block : List Byte} (h : IsHistogram freq block) (a : Byte) :
    freq.at a ≠ 0 ↔ a ∈ block := by
  rw [← List.count_pos_iff, ← h a, Nat.pos_iff_ne_zero, ne_eq, BitVec.toNat_eq]
  rfl

/-- A code table that codes a block: no two codes collide, the trie has at most 511 nodes, each byte has a code. -/
structure CodesBlock (code : Byte → List Bool) (block : List Byte) : Prop where
  prefixFree : PrefixFree code
  fits : nodesNeeded code ≤ 511
  coded : ∀ a ∈ block, code a ≠ []

/-- `assign` codes every block of two distinct bytes, or of none. -/
theorem assign_codesBlock {s : State} {block : List Byte} (h : IsHistogram s.freq block)
    (two : block = [] ∨ ∃ a ∈ block, ∃ b ∈ block, a ≠ b) :
    CodesBlock s.rankEffect.partEffect.complete.code block := by
  rcases two with rfl | ⟨a, ha, b, hb, hab⟩
  · have zero : ∀ a, s.freq.at a = 0 := fun a => by
      by_contra ha
      exact List.not_mem_nil ((h.ne_zero_iff a).1 ha)
    obtain ⟨u, e, empty⟩ := exec_assign_of_zero zero
    rw [exec_assign] at e
    cases e
    have fits := nodesNeeded_of_empty empty
    exact ⟨prefixFree_of_empty empty, by omega, fun _ ha => absurd ha List.not_mem_nil⟩
  · have two_le := two_le_nnz hab ((h.ne_zero_iff a).2 ha) ((h.ne_zero_iff b).2 hb)
    have le := nnz_le rfl (rankEffect_rankTablesOk s)
    obtain ⟨l, hl⟩ := codesOf_exists rfl (rankEffect_rankTablesOk s) (by omega)
    refine ⟨hl.prefixFree le, (hl.nodesNeeded_le le).trans (by omega), fun c hc => ?_⟩
    exact hl.code_ne le two_le ((h.ne_zero_iff c).2 hc)

/-! ### Building and decoding -/

section
variable {v : State} {block : List Byte}

/-- On a coded block in its packed form the build succeeds, and `DecodeBlock` on the built trie emits the block. -/
theorem CodesBlock.build_decode (hc : CodesBlock v.code block) (hmax : 511 ≤ v.config.nodeMax)
    (hp : HoldsPacked v v.code block) :
    ∃ ns k, buildTrie v.config.nodeMax v.code = .ok ns ∧
      (v.storeNodes ns).decodeBlock v.packedLen v.expectedLen = (k, none) ∧ k.Emitted block := by
  obtain ⟨ns, hb, hT⟩ := buildTrie_of_prefixFree (nodeMax_pos v.config) hc.prefixFree (hc.fits.trans hmax)
  have hp' : HoldsPacked (v.storeNodes ns) v.code block :=
    ⟨hp.packed, hp.packedFits, hp.expected, hp.expectedFits, hp.bytes⟩
  obtain ⟨k, hd, hout, _⟩ := hp'.decodeBlock hT hc.coded
  exact ⟨ns, k, hb, hd, hout⟩

/-- R160: `blkdec` returns a coded block. -/
theorem CodesBlock.blkdec (hc : CodesBlock v.code block) (hmax : 511 ≤ v.config.nodeMax)
    (hp : HoldsPacked v v.code block) (ht : v.status.trieValid = false) :
    ∃ t, exec .blkdec v = .next t ∧ Completed v t ∧ ∀ k, Memory.read t.obuf k = block[k]? := by
  obtain ⟨ns, k, hb, hd, _, _, hread⟩ := hc.build_decode hmax hp
  exact ⟨_, exec_blkdec_ok ht hp.latchLengths hb hd, by simp [Completed, SameErrors], hread⟩

/-- R130, R150: `tbuild` and then `decode` return a coded block. -/
theorem CodesBlock.tbuild_decode (hc : CodesBlock v.code block) (hmax : 511 ≤ v.config.nodeMax)
    (hp : HoldsPacked v v.code block) (ht : v.status.trieValid = false) :
    ∃ w t, exec .tbuild v = .next w ∧ Completed v w ∧ exec .decode w = .next t ∧ Completed w t ∧
      ∀ k, Memory.read t.obuf k = block[k]? := by
  obtain ⟨ns, k, hb, hd, _, _, hread⟩ := hc.build_decode hmax hp
  let w := ((v.storeNodes ns).setTrieValid true).complete
  have lengths : w.latchLengths = .ok (v.packedLen, v.expectedLen) := hp.latchLengths
  have walk : w.decodeBlock v.packedLen v.expectedLen = (k, none) := hd
  exact ⟨w, _, exec_tbuild_ok ht hb, by simp [w, Completed, SameErrors], exec_decode_ok rfl lengths walk,
    by simp [Completed, SameErrors], hread⟩

end

/-- Settles O35: `assign` codes the block, `v` holds its packed form with the same code table, and a coded block comes
back both ways. -/
theorem roundTripReturnsTheBlock : Obligations.RoundTripReturnsTheBlock := by
  intro s block ht hmax hobuf two hist
  refine ⟨_, exec_assign s, by simp [Completed, SameErrors], fun v hv hpacked hfits hexpected hbytes => ?_⟩
  have config : v.config = s.config := (congrArg State.config hv).trans rfl
  have held : v.status.trieValid = false := (congrArg (fun u => u.status.trieValid) hv).trans ht
  have code : v.code = s.rankEffect.partEffect.complete.code :=
    (congrArg State.code hv).trans rfl
  have hc : CodesBlock v.code block := code ▸ assign_codesBlock hist two
  have hp : HoldsPacked v v.code block := by
    rw [code]
    exact ⟨hpacked.ge, hfits, hexpected, config ▸ hobuf, fun k hk => hbytes k (hpacked ▸ hk)⟩
  have hmax' : 511 ≤ v.config.nodeMax := config ▸ hmax
  obtain ⟨t, blkdec, completed, read⟩ := hc.blkdec hmax' hp held
  obtain ⟨w, t', tbuild, built, decode, decoded, read'⟩ := hc.tbuild_decode hmax' hp held
  exact ⟨⟨t, blkdec, completed, fun k _ => read k⟩, ⟨w, t', tbuild, built, decode, decoded, fun k _ => read' k⟩⟩

end Sys2Proof.Machine
end

section
/-! The code-table text (44_host_reference.md R180 to R182): what splitting returns on joined fields without the
separator, and what reading a field returns on a code string as text. -/

namespace Sys2Proof.Machine

/-! ### Splitting what was joined -/

/-- R181: a text without the separator is one field. -/
theorem splitFields_of_not_mem {f : List Char} (h : ';' ∉ f) : splitFields f = [f] := by
  induction f with
  | nil => rfl
  | cons c cs ih =>
    obtain ⟨hc, hcs⟩ := not_or.1 (mt List.mem_cons.2 h)
    rw [splitFields, if_neg (Ne.symm hc), ih hcs]

/-- R181: a field without the separator ends at the first separator after it. -/
theorem splitFields_append_separator {f : List Char} (h : ';' ∉ f) (text : List Char) :
    splitFields (f ++ ';' :: text) = f :: splitFields text := by
  induction f with
  | nil => simp [splitFields]
  | cons c cs ih =>
    obtain ⟨hc, hcs⟩ := not_or.1 (mt List.mem_cons.2 h)
    rw [List.cons_append, splitFields, if_neg (Ne.symm hc), ih hcs]

/-- R182: splitting at the separators returns the fields that were joined, when none of them contains the separator. (The
empty list of fields is excluded: its text is that of one empty field.) -/
theorem splitFields_joinFields {fields : List (List Char)} (hne : fields ≠ []) (h : ∀ f ∈ fields, ';' ∉ f) :
    splitFields (joinFields fields) = fields := by
  induction fields using joinFields.induct with
  | case1 => exact absurd rfl hne
  | case2 f => exact splitFields_of_not_mem (h f List.mem_cons_self)
  | case3 f g rest ih =>
    obtain ⟨hf, hrest⟩ := List.forall_mem_cons.1 h
    rw [joinFields, splitFields_append_separator hf, ih (List.cons_ne_nil g rest) hrest]

/-! ### A code string as text -/

/-- R180, R182: no code string contains the separator. -/
theorem separator_not_mem_bitsText (p : List Bool) : ';' ∉ bitsText p := by
  intro h
  obtain ⟨b, -, hb⟩ := List.mem_map.1 h
  cases b <;> simp at hb

/-- R181: a code string written as text is read back. -/
@[simp] theorem fieldBits_bitsText (p : List Bool) : fieldBits (bitsText p) = some p := by
  induction p with
  | nil => rfl
  | cons b bs ih =>
    have hcons : bitsText (b :: bs) = (if b then '1' else '0') :: bitsText bs := rfl
    cases b <;> simp [hcons, fieldBits, ih]

/-- R181: every field of a table of code strings is read back. -/
theorem mapM_fieldBits_map_bitsText (codes : List (List Bool)) :
    (codes.map bitsText).mapM fieldBits = some codes := by
  induction codes with
  | nil => rfl
  | cons p ps ih => rw [List.map_cons, List.mapM_cons, fieldBits_bitsText, ih]; rfl

/-! ### The round trip -/

/-- R182: splitting the text of a non-empty code table returns its code strings as text. -/
theorem splitFields_serializeCodes {codes : List (List Bool)} (hne : codes ≠ []) :
    splitFields (serializeCodes codes) = codes.map bitsText :=
  splitFields_joinFields (by simpa using hne) <|
    List.forall_mem_map.2 fun p _ => separator_not_mem_bitsText p

/-- Settles O60: no code string contains the separator, so the text splits into the 256 code strings that were joined,
and each is read back. -/
theorem codeTextRoundTrips : Obligations.CodeTextRoundTrips := by
  intro codes hlen
  have hne : codes ≠ [] := by rintro rfl; cases hlen
  have hsplit := splitFields_serializeCodes hne
  have hcount : (codes.map bitsText).length = 256 := by rw [List.length_map, hlen]
  rw [deserializeCodes, hsplit, if_pos hcount, mapM_fieldBits_map_bitsText]

end Sys2Proof.Machine
end

section
/-! Fault entry (60_exceptions.md R210) and the phase `FAULT` (R215). -/

namespace Sys2Proof.Machine

/-! ### Fault entry -/

/-- Settles O36: what fault entry writes and what it leaves untouched, and `Cause.errWord` is `CAUSE << 8 | KIND`. -/
theorem faultEntryReleasesAndRecords : Obligations.FaultEntryReleasesAndRecords := by
  intro s f
  have written : FaultEntered (s.raise f) f.cause.errWord f.info := raise_faultEntered s rfl f.info
  exact ⟨written, raise_untouched s f, rfl, rfl, rfl⟩

/-! ### The phase `FAULT` -/

/-- `t` is in phase `FAULT` with the first fault and the `CMD` word of `s`. -/
def KeepsFault (s t : State) : Prop :=
  t.status.fault = true ∧ t.status.busy = false ∧ t.err = s.err ∧ t.errInfo = s.errInfo ∧ t.cmd = s.cmd

theorem engineTurn_not_busy {s : State} (hb : s.status.busy = false) : engineTurn s = .next s := by
  simp [engineTurn, hb]

section
variable {s : State} (hb : s.status.busy = false) (hf : s.status.fault = true)
include hb hf

theorem keepsFault_refl : KeepsFault s s := ⟨hf, hb, rfl, rfl, rfl⟩

theorem keepsFault_writeLoc (v : Word) (l : Loc) : KeepsFault s (s.writeLoc v l) := by
  rw [writeLoc_frame]
  exact ⟨hf, hb, rfl, rfl, rfl⟩

/-- 30_encoding.md R84: in phase `FAULT` a `CMD` write is discarded. -/
theorem writeCmd_fault (v : Word) : s.writeCmd v = s := by
  simp [State.writeCmd, Status.phase, hb, hf]

/-- In phase `FAULT` a host write is the soft reset or leaves the fault in place. -/
theorem hostWrite_fault (a : BitVec 28) (v : Word) :
    (a = portAddr 0x004 ∧ v.getLsbD 0 = true ∧ s.hostWrite a v = s.softReset) ∨ KeepsFault s (s.hostWrite a v) := by
  rcases hostWrite_cases s a v with soft | ⟨_, cmd⟩ | nothing | ⟨_, _, _, store⟩
  · exact .inl soft
  · rw [cmd, writeCmd_fault hb hf]
    exact .inr (keepsFault_refl hb hf)
  · rw [nothing]
    exact .inr (keepsFault_refl hb hf)
  · rw [store]
    exact .inr (keepsFault_writeLoc hb hf v _)

end

/-- Settles O37: with no command in flight the engine does nothing, a read changes nothing of the SFU, and a host write
other than the soft reset leaves the fault in place. -/
theorem faultIsTerminal : Obligations.FaultIsTerminal := by
  intro s hb hf
  have kept : KeepsFault s s := keepsFault_refl hb hf
  rcases step_cases s with
    ⟨_, step_eq⟩ | ⟨rest, _, step_eq⟩ | ⟨a, rest, _, step_eq⟩ | ⟨a, v, rest, turns, step_eq⟩ | ⟨rest, turns, step_eq⟩
  · exact ⟨s, step_eq.trans (engineTurn_not_busy hb), .inr (.inr kept)⟩
  · exact ⟨_, step_eq.trans (engineTurn_not_busy hb), .inr (.inr kept)⟩
  · exact ⟨_, step_eq, .inr (.inr kept)⟩
  · refine ⟨_, step_eq, .inr ?_⟩
    rcases hostWrite_fault (s := { s with turns := rest }) hb hf a v with ⟨rfl, bit, soft⟩ | held
    · exact .inl ⟨v, rest, turns, bit, soft⟩
    · exact .inr held
  · exact ⟨_, step_eq, .inl ⟨rest, turns, rfl⟩⟩

end Sys2Proof.Machine
end

section
/-! Stale rankings and held tries (70_reset_and_hazards.md R237, R239). -/

namespace Sys2Proof.Machine

/-! ### Building over a held trie -/

/-- Both commands that build a trie check first that none is held. -/
theorem exec_held {s : State} {i : Instr} (hi : i = .tbuild ∨ i = .blkdec) (h : s.status.trieValid = true) :
    exec i s = .next (s.raise { cause := .seqHeld, info := s.cmd }) := by
  rcases hi with rfl | rfl
  · exact exec_tbuild_held h
  · exact exec_blkdec_held h

/-- Settles O26: the sequence check comes before any effect, so its fault is fault entry on the state as it was. -/
theorem heldTrieBlocksBuilding : Obligations.HeldTrieBlocksBuilding := by
  intro s i hi h
  exact ⟨_, exec_held hi h, raise_faultEntered s (by decide) _, raise_untouched s _⟩

/-! ### What makes a ranking stale -/

theorem hostWrite_freq {s : State} (hb : s.status.busy = false) {a : BitVec 28} (h1 : 0x400 ≤ portOffset a)
    (h2 : portOffset a < 0x800) (v : Word) :
    s.hostWrite a v = s.writeLoc v (.freq (entryIndex (portOffset a - 0x400))) := by
  simp [State.hostWrite, locate_freq s.config h1 h2, hb]

/-- Both commands that need a ranking check first that it is current. -/
theorem exec_stale {s : State} {i : Instr} (hi : i = .part ∨ ∃ f l, i = .split f l) (h : s.status.rankValid = false) :
    exec i s = .next (s.raise { cause := .seqRank, info := s.cmd }) := by
  rcases hi with rfl | ⟨f, l, rfl⟩
  · exact exec_part_stale h
  · exact exec_split_stale h f l

/-! ### What makes it current again -/

theorem writeCmd_rankValid (s : State) (v : Word) : (s.writeCmd v).status.rankValid = s.status.rankValid := by
  rcases writeCmd_cases s v with ⟨_, overrun⟩ | ⟨_, _, nothing⟩ | ⟨_, _, accepted⟩
  · rw [overrun, Status.overrun_rankValid]
  · rw [nothing]
  · rw [accepted]
    rfl

theorem writeLoc_stale {s : State} (h : s.status.rankValid = false) (v : Word) (l : Loc) :
    (s.writeLoc v l).status.rankValid = false := by
  cases l
  case freq => rfl
  all_goals exact h

/-- No host write makes a stale ranking current. -/
theorem hostWrite_stale {s : State} (h : s.status.rankValid = false) (a : BitVec 28) (v : Word) :
    (s.hostWrite a v).status.rankValid = false := by
  rcases hostWrite_cases s a v with ⟨_, _, soft⟩ | ⟨_, cmd⟩ | nothing | ⟨_, _, _, store⟩
  · rw [soft]
    rfl
  · rw [cmd, writeCmd_rankValid, h]
  · rw [nothing, h]
  · rw [store, writeLoc_stale h]

/-- A command that changes `RANK_VALID` is `rank` or `assign`. -/
theorem exec_rankValid {i : Instr} {s t : State} (h : exec i s = .next t) :
    (i = .rank ∨ i = .assign) ∨ t.status.rankValid = s.status.rankValid := by
  rcases exec_cases h with
    ⟨f, _, rfl | ⟨_, rfl⟩⟩ | ⟨_, rfl⟩ | ⟨rank, _⟩ | ⟨_, _, _, _, _, _, rfl⟩ | ⟨_, _, rfl⟩ | ⟨assign, _⟩ |
    ⟨_, _, _, _, rfl⟩ | ⟨_, rfl⟩ | ⟨_, _, _, _, _, _, _, ⟨_, rfl⟩ | ⟨_, _, rfl⟩⟩ |
    ⟨_, _, _, _, _, _, _, _, _, ⟨_, rfl⟩ | ⟨_, _, rfl⟩⟩
  case inr.inr.inl => exact .inl (.inl rank)
  case inr.inr.inr.inr.inr.inl => exact .inl (.inr assign)
  all_goals exact .inr rfl

/-- An engine's turn that sets `RANK_VALID` runs `rank` or `assign`. -/
theorem engineTurn_sets_rankValid {s t : State} (h : engineTurn s = .next t) (stale : s.status.rankValid = false)
    (current : t.status.rankValid = true) :
    s.status.busy = true ∧ (decode s.cmd = .ok .rank ∨ decode s.cmd = .ok .assign) := by
  rcases engineTurn_cases s with ⟨_, idle⟩ | ⟨busy, i, word, run⟩ | ⟨_, e, _, bad⟩
  · cases idle.symm.trans h
    simp [stale] at current
  · rcases exec_rankValid (run.symm.trans h) with (rfl | rfl) | same
    · exact ⟨busy, .inl word⟩
    · exact ⟨busy, .inr word⟩
    · simp [same, stale] at current
  · cases bad.symm.trans h
    simp [stale] at current

/-- Of the five kinds of turn only the engine's can set `RANK_VALID`. -/
theorem step_sets_rankValid {s t : State} (h : step s = .next t) (stale : s.status.rankValid = false)
    (current : t.status.rankValid = true) :
    s.status.busy = true ∧ (decode s.cmd = .ok .rank ∨ decode s.cmd = .ok .assign) := by
  rcases step_cases s with ⟨_, e⟩ | ⟨rest, _, e⟩ | ⟨a, rest, _, e⟩ | ⟨a, v, rest, _, e⟩ | ⟨rest, _, e⟩
  · exact engineTurn_sets_rankValid (e.symm.trans h) stale current
  · exact engineTurn_sets_rankValid (s := { s with turns := rest }) (e.symm.trans h) stale current
  · cases e.symm.trans h
    exact absurd (stale.symm.trans current) Bool.false_ne_true
  · cases e.symm.trans h
    have kept := hostWrite_stale (s := { s with turns := rest }) stale a v
    exact absurd (kept.symm.trans current) Bool.false_ne_true
  · cases e.symm.trans h
    exact absurd current Bool.false_ne_true

/-- Settles O47: the store of a `FREQ` word, the sequence check of `part` and `split`, and the case analysis of a step. -/
theorem freqWriteMakesRankingStale : Obligations.FreqWriteMakesRankingStale := by
  refine ⟨fun s a v hb h1 h2 => hostWrite_freq hb h1 h2 v, fun s i h hi => ?_, fun s t => step_sets_rankValid⟩
  exact ⟨_, exec_stale hi h, raise_faultEntered s (by decide) _, raise_untouched s _⟩

end Sys2Proof.Machine
end

section
/-! Command words (30_encoding.md R80 to R88): a word is its four bytes, which of the five ways it decodes, and the
statements about the decoder and the encoder. -/

namespace Sys2Proof

/-! ### A word as its fields (R81, R82) -/

/-- The word with these four bytes, bits [31:24] first. -/
def wordOfFields (reserved last first opcode : Byte) : Word := reserved ++ last ++ first ++ opcode

theorem getLsbD_wordOfFields (reserved last first opcode : Byte) (k : Nat) :
    (wordOfFields reserved last first opcode).getLsbD k =
      if k < 8 then opcode.getLsbD k else if k < 16 then first.getLsbD (k - 8)
      else if k < 24 then last.getLsbD (k - 16) else reserved.getLsbD (k - 24) := by
  simp only [wordOfFields, BitVec.getLsbD_append, Nat.sub_sub]
  grind

/-- Every word is its four bytes. -/
theorem wordOfFields_fields (w : Word) : wordOfFields (w.extractLsb' 24 8) (lastOf w) (firstOf w) (opcodeOf w) = w := by
  apply BitVec.eq_of_getLsbD_eq
  intro k hk
  rw [getLsbD_wordOfFields]
  simp only [lastOf, firstOf, opcodeOf, BitVec.getLsbD_extractLsb']
  grind

theorem opcodeOf_wordOfFields (reserved last first opcode : Byte) :
    opcodeOf (wordOfFields reserved last first opcode) = opcode := by
  apply BitVec.eq_of_getLsbD_eq
  intro k hk
  rw [opcodeOf, BitVec.getLsbD_extractLsb', getLsbD_wordOfFields]
  grind

theorem firstOf_wordOfFields (reserved last first opcode : Byte) :
    firstOf (wordOfFields reserved last first opcode) = first := by
  apply BitVec.eq_of_getLsbD_eq
  intro k hk
  rw [firstOf, BitVec.getLsbD_extractLsb', getLsbD_wordOfFields]
  grind

theorem lastOf_wordOfFields (reserved last first opcode : Byte) :
    lastOf (wordOfFields reserved last first opcode) = last := by
  apply BitVec.eq_of_getLsbD_eq
  intro k hk
  rw [lastOf, BitVec.getLsbD_extractLsb', getLsbD_wordOfFields]
  grind

theorem reservedOf_wordOfFields (reserved last first opcode : Byte) :
    (wordOfFields reserved last first opcode).extractLsb' 24 8 = reserved := by
  apply BitVec.eq_of_getLsbD_eq
  intro k hk
  rw [BitVec.getLsbD_extractLsb', getLsbD_wordOfFields]
  grind

/-- R82: the word of `split` has its operands in their fields and no reserved bit. -/
theorem encode_split (first last : Byte) :
    encode (.split first.toNat last.toNat) = wordOfFields 0 last first 0x11 := by
  apply BitVec.eq_of_getLsbD_eq
  intro k hk
  rw [getLsbD_wordOfFields]
  simp only [encode]
  interval_cases k <;> simp

/-! ### How a word decodes (R85) -/

theorem decode_cases (w : Word) :
    (opcodeOf w = 0x11 ∧ w.extractLsb' 24 8 = 0 ∧ decode w = .ok (.split (firstOf w).toNat (lastOf w).toNat)) ∨
    (opcodeOf w = 0x11 ∧ w.extractLsb' 24 8 ≠ 0 ∧ decode w = .error .reservedBits) ∨
    (opcodeOf w ≠ 0x11 ∧ formatZ (opcodeOf w) = none ∧ decode w = .error .illegalOpcode) ∨
    (opcodeOf w ≠ 0x11 ∧ w.extractLsb' 8 24 = 0 ∧ ∃ i, formatZ (opcodeOf w) = some i ∧ decode w = .ok i) ∨
    (opcodeOf w ≠ 0x11 ∧ w.extractLsb' 8 24 ≠ 0 ∧ formatZ (opcodeOf w) ≠ none ∧
      decode w = .error .reservedBits) := by
  unfold decode
  by_cases h11 : opcodeOf w = 0x11
  · rw [if_pos h11]
    by_cases hr : w.extractLsb' 24 8 = 0
    · rw [if_pos hr]
      exact .inl ⟨h11, hr, rfl⟩
    · rw [if_neg hr]
      exact .inr (.inl ⟨h11, hr, rfl⟩)
  · rw [if_neg h11]
    refine .inr (.inr ?_)
    cases formatZ (opcodeOf w) with
    | none => exact .inl ⟨h11, rfl, rfl⟩
    | some i =>
      dsimp only
      by_cases hr : w.extractLsb' 8 24 = 0
      · rw [if_pos hr]
        exact .inr (.inl ⟨h11, hr, i, rfl, rfl⟩)
      · rw [if_neg hr]
        exact .inr (.inr ⟨h11, hr, Option.some_ne_none i, rfl⟩)

theorem decode_splitWord (first last : Byte) :
    decode (wordOfFields 0 last first 0x11) = .ok (.split first.toNat last.toNat) := by
  rw [decode, opcodeOf_wordOfFields, if_pos rfl, reservedOf_wordOfFields, if_pos rfl, firstOf_wordOfFields,
    lastOf_wordOfFields]

/-- Settles O1: the fields of the word of a `split` are its operands, and the other eight words are written out. -/
theorem encodedCommandDecodesBack : Obligations.EncodedCommandDecodesBack := by
  intro i hi
  cases i with
  | split first last =>
    simp only [Instr.wf, Bool.and_eq_true, decide_eq_true_eq] at hi
    obtain ⟨hf, hl⟩ := hi
    have operands := encode_split (BitVec.ofNat 8 first) (BitVec.ofNat 8 last)
    have decoded := decode_splitWord (BitVec.ofNat 8 first) (BitVec.ofNat 8 last)
    rw [← operands] at decoded
    simpa only [BitVec.toNat_ofNat, Nat.mod_eq_of_lt hf, Nat.mod_eq_of_lt hl] using decoded
  | nop => rfl
  | rank => rfl
  | part => rfl
  | assign => rfl
  | tbuild => rfl
  | tfree => rfl
  | decode => rfl
  | blkdec => rfl

/-- R81: without a bit above it, a word is its opcode. -/
theorem setWidth_opcodeOf {w : Word} (h : w.extractLsb' 8 24 = 0) : (opcodeOf w).setWidth 32 = w := by
  apply BitVec.eq_of_toNat_eq
  have := (reservedZ_eq_zero_iff w).1 h
  simp [opcodeOf]
  omega

/-- Settles O2: of the five ways to decode two answer a command, and in both its word is put together again. -/
theorem decodedWordHasOneEncoding : Obligations.DecodedWordHasOneEncoding := by
  intro w i h
  rcases decode_cases w with
    ⟨opcode, reserved, e⟩ | ⟨_, _, e⟩ | ⟨_, _, e⟩ | ⟨_, reserved, j, hj, e⟩ | ⟨_, _, _, e⟩ <;> cases e.symm.trans h
  · refine ⟨by simp [Instr.wf, (firstOf w).isLt, (lastOf w).isLt], ?_⟩
    rw [encode_split, ← opcode]
    simpa only [reserved] using wordOfFields_fields w
  · obtain ⟨wf, word, _⟩ := formatZ_encode hj
    exact ⟨wf, word.trans (setWidth_opcodeOf reserved)⟩

/-- The nine opcodes of R87 are that of `split` and those of format Z. -/
theorem mem_opcodes_iff (w : Word) :
    w.toNat % 256 ∈ [0x00, 0x10, 0x11, 0x12, 0x13, 0x20, 0x21, 0x30, 0x31] ↔
      opcodeOf w = 0x11 ∨ formatZ (opcodeOf w) ≠ none := by
  have opcode : (opcodeOf w).toNat = w.toNat % 256 := by simp [opcodeOf]
  rw [ne_eq, formatZ_eq_none_iff, not_not]
  simp only [List.mem_cons, List.not_mem_nil, or_false, BitVec.toNat_eq, opcode]
  simp only [BitVec.ofNat_eq_ofNat, BitVec.toNat_ofNat, Nat.reducePow, Nat.reduceMod]
  omega

/-- Settles O3: each of the five ways to decode on both sides of the two equivalences. -/
theorem wordsRejectedByOpcodeThenReserved : Obligations.WordsRejectedByOpcodeThenReserved := by
  intro w
  have opcode : w.toNat % 256 = 0x11 ↔ opcodeOf w = 0x11 := (opcodeOf_eq_iff w (by decide)).symm
  rw [mem_opcodes_iff]
  rcases decode_cases w with ⟨h, r, e⟩ | ⟨h, r, e⟩ | ⟨h, r, e⟩ | ⟨h, r, j, hj, e⟩ | ⟨h, r, hj, e⟩ <;> rw [e]
  · rw [if_pos (opcode.2 h)]
    have bound := (reservedI_eq_zero_iff w).1 r
    exact ⟨iff_of_false nofun (not_not.2 (.inl h)), iff_of_false nofun fun high => Nat.not_le.2 bound high.2⟩
  · rw [if_pos (opcode.2 h)]
    have bound := Nat.not_lt.1 (mt (reservedI_eq_zero_iff w).2 r)
    exact ⟨iff_of_false nofun (not_not.2 (.inl h)), iff_of_true rfl ⟨.inl h, bound⟩⟩
  · have none : ¬ (opcodeOf w = 0x11 ∨ formatZ (opcodeOf w) ≠ .none) := not_or.2 ⟨h, not_not.2 r⟩
    exact ⟨iff_of_true rfl none, iff_of_false nofun fun legal => none legal.1⟩
  · rw [if_neg (mt opcode.1 h)]
    have bound := (reservedZ_eq_zero_iff w).1 r
    have legal : formatZ (opcodeOf w) ≠ none := by simp [hj]
    exact ⟨iff_of_false nofun (not_not.2 (.inr legal)), iff_of_false nofun fun high => Nat.not_le.2 bound high.2⟩
  · rw [if_neg (mt opcode.1 h)]
    have bound := Nat.not_lt.1 (mt (reservedZ_eq_zero_iff w).2 r)
    exact ⟨iff_of_false nofun (not_not.2 (.inr hj)), iff_of_true rfl ⟨.inr hj, bound⟩⟩

/-- Settles O4: the decoder evaluated at each of the nine words. -/
theorem writtenWordsDecode : Obligations.WrittenWordsDecode := by
  exact ⟨rfl, rfl, rfl, rfl, rfl, rfl, rfl, rfl, rfl⟩

end Sys2Proof
end

section
/-! Acceptance and the engine's turn (30_encoding.md R84 to R88), and the commands that only set flags or fault (R170,
R140, R150). -/

namespace Sys2Proof.Machine

/-! ### Fault entry (60_exceptions.md R210) -/

/-- A fault entry with the words of its report, and no specified node or byte of `OBUF` (logs 5, 7). -/
theorem raise_faulted (s : State) {f : FaultReport} (c : Cause) {err info : Word} (hc : f.cause = c)
    (he : c.errWord = err) (hi : f.info = info) : Faulted (s.raise f) err info := by
  subst hc hi
  exact ⟨raise_faultEntered s he f.info, rfl, rfl⟩

/-! ### The engine's turn -/

theorem engineTurn_command {s : State} (hb : s.status.busy = true) {i : Instr} (h : decode s.cmd = .ok i) :
    engineTurn s = exec i s := by
  simp [engineTurn, runCommand, hb, h]

theorem engineTurn_illegal {s : State} (hb : s.status.busy = true) {e : WordError} (h : decode s.cmd = .error e) :
    engineTurn s = .next (s.raise { cause := wordErrorCause e, info := s.cmd }) := by
  simp [engineTurn, runCommand, hb, h]

theorem step_of_nil {s : State} (h : s.turns = []) : step s = engineTurn s := by
  simp [step, h]

theorem step_of_engine {s : State} {rest : List Turn} (h : s.turns = .engine :: rest) :
    step s = engineTurn { s with turns := rest } := by
  simp [step, h]

theorem step_of_hostRead {s : State} {a : BitVec 28} {rest : List Turn} (h : s.turns = .hostRead a :: rest) :
    step s = .next (State.performRead { s with turns := rest } a) := by
  simp [step, h]

theorem step_of_hostWrite {s : State} {a : BitVec 28} {v : Word} {rest : List Turn}
    (h : s.turns = .hostWrite a v :: rest) : step s = .next (State.hostWrite { s with turns := rest } a v) := by
  simp [step, h]

/-- Settles O5: the engine has the turn in both cases, and takes it at the state that is left. -/
theorem engineTurnRunsTheDecodedCommand : Obligations.EngineTurnRunsTheDecodedCommand := by
  refine ⟨fun s i hb _ hd => ⟨fun h => ?_, fun rest h => ?_⟩, fun s hb => ⟨fun h => ?_, fun rest h => ?_⟩⟩
  · rw [step_of_nil h, engineTurn_command hb hd]
  · rw [step_of_engine h]
    exact engineTurn_command (s := { s with turns := rest }) hb hd
  · rw [step_of_nil h, engineTurn_not_busy hb]
  · rw [step_of_engine h]
    exact engineTurn_not_busy (s := { s with turns := rest }) hb

/-- Settles O6: whichever way the engine gets the turn, it enters the fault at the state that is left. -/
theorem illegalWordEntersFault : Obligations.IllegalWordEntersFault := by
  intro s e rest hb hturn hd
  have turn : step s = engineTurn { s with turns := rest } := by
    rcases hturn with h | ⟨h, rfl⟩
    · exact step_of_engine h
    · rw [step_of_nil h, ← h]
  refine ⟨_, turn.trans (engineTurn_illegal (s := { s with turns := rest }) hb hd), ?_, raise_untouched _ _⟩
  cases e with
  | illegalOpcode => exact raise_faulted _ .opcode rfl (by decide) rfl
  | reservedBits => exact raise_faulted _ .reserved rfl (by decide) rfl

/-! ### Acceptance -/

/-- A host write that raises `BUSY` is an accepted write to `CMD`. -/
theorem hostWrite_raises_busy {s : State} {a : BitVec 28} {v : Word} (h : s.status.busy = false)
    (ht : (s.hostWrite a v).status.busy = true) :
    s.status.fault = false ∧ a = portAddr 0x008 ∧ (s.hostWrite a v).cmd = v := by
  rcases hostWrite_cases s a v with ⟨_, _, e⟩ | ⟨rfl, e⟩ | e | ⟨_, _, _, e⟩ <;> rw [e] at ht ⊢
  · cases ht
  · rcases writeCmd_cases s v with ⟨hb, _⟩ | ⟨_, _, e⟩ | ⟨_, hf, e⟩
    · simp [h] at hb
    · simp [e, h] at ht
    · rw [e]
      exact ⟨hf, rfl, rfl⟩
  · simp [h] at ht
  · rw [writeLoc_frame] at ht
    simp [h] at ht

/-- Settles O7: `writeCmd` by phase; and of the five kinds of turn no other raises `BUSY`. -/
theorem cmdWriteActsByPhase : Obligations.CmdWriteActsByPhase := by
  constructor
  · intro s v rest h
    rw [step_of_hostWrite h, hostWrite_cmd]
    rcases writeCmd_cases { s with turns := rest } v with ⟨hb, e⟩ | ⟨hb, hf, e⟩ | ⟨hb, hf, e⟩ <;>
      simp only at hb <;> rw [e]
    · simp [hb, Status.overrun]
    · simp only at hf
      simp [hb, hf]
    · simp only at hf
      simp [hb, hf, State.accept, Status.accepted]
  · intro s t h hb ht
    rcases step_cases s with ⟨_, e⟩ | ⟨r, _, e⟩ | ⟨a, r, _, e⟩ | ⟨a, v, r, turns, e⟩ | ⟨r, _, e⟩ <;> rw [e] at h
    · rw [engineTurn_not_busy hb] at h
      cases h
      simp [hb] at ht
    · rw [engineTurn_not_busy (s := { s with turns := r }) hb] at h
      cases h
      simp [hb] at ht
    · cases h
      simp [hb] at ht
    · cases h
      obtain ⟨hf, rfl, hv⟩ := hostWrite_raises_busy (s := { s with turns := r }) hb ht
      exact ⟨hf, r, by rw [turns, hv]⟩
    · cases h
      cases ht

/-! ### Commands without a table or a walk -/

/-- Settles O8: `nop` is completion alone. -/
theorem nopOnlyCompletes : Obligations.NopOnlyCompletes := exec_nop

/-- Settles O9: the release, `TRIE_VALID`, and completion. -/
theorem tfreeReleasesTheTrie : Obligations.TfreeReleasesTheTrie := exec_tfree

/-- Settles O30: the sequence check faults on the state as it was. -/
theorem decodeWithoutTrieFaults : Obligations.DecodeWithoutTrieFaults := by
  intro s h
  exact ⟨_, exec_decode_noTrie h, raise_faulted s .seqNoTrie rfl (by decide) rfl, raise_untouched s _⟩

end Sys2Proof.Machine
end

section
/-! Ranking, splitting and partition (40_cae.md): why a ranking is unique, where the scan of a split ends, and what the
leaves of the partition make of the code table. -/

namespace Sys2Proof.Machine

/-! ### Rankings (R100 to R102) -/

/-- Settles O10: the tables `rank` writes are a ranking, and it writes nothing else but the flags. -/
theorem rankBuildsTheRanking : Obligations.RankBuildsTheRanking := by
  intro s
  obtain ⟨count, last, nonzero⟩ := rankEffect_describes s
  refine ⟨_, exec_rank s, isRanking_tables s.freq, count, last, nonzero, rfl, ?_⟩
  simp [Completed, SameErrors, SameInputs, SameCodes, SameTrie, SameCursor]

section
variable {freq : Table Word} {sym rnk : Table Byte}

/-- A ranking as a list: the 256 symbols in the order `<<`. -/
theorem IsRanking.sorted (h : IsRanking freq sym rnk) : sym.toList.Pairwise (Before freq) := by
  rw [Table.toList_eq, allBytes, List.map_map, List.pairwise_map]
  refine List.pairwise_lt_range.imp_of_mem fun {r r'} hr hr' hlt => h.1 _ _ ?_
  rw [List.mem_range] at hr hr'
  simpa [Nat.mod_eq_of_lt hr, Nat.mod_eq_of_lt hr'] using hlt

theorem IsRanking.perm (h : IsRanking freq sym rnk) : sym.toList.Perm allBytes := by
  rw [Table.toList_eq, List.perm_ext_iff_of_nodup _ allBytes_nodup]
  · intro a
    exact iff_of_true (List.mem_map.2 ⟨rnk.at a, mem_allBytes _, h.2.2 a⟩) (mem_allBytes a)
  · refine allBytes_nodup.map fun r r' e => ?_
    rw [← h.2.1 r, e, h.2.1 r']

end

/-- Settles O11: a list of all symbols in the strict order `<<` is unique, and the ranks are its inverse. -/
theorem rankingIsUnique : Obligations.RankingIsUnique := by
  intro freq sym rnk sym' rnk' h h'
  have same : sym'.toList = sym.toList :=
    (h'.perm.trans h.perm.symm).eq_of_pairwise
      (fun a b _ _ hab hba => absurd (before_trans hab hba) (before_irrefl freq a)) h'.sorted h.sorted
  obtain rfl : sym' = sym := Vector.toList_inj.1 same
  refine ⟨rfl, Table.ext_at fun a => ?_⟩
  calc rnk'.at a = rnk'.at (sym'.at (rnk.at a)) := by rw [h.2.2]
    _ = rnk.at a := h'.2.1 _

/-! ### Splits (R104 to R108) -/

/-- Settles O12: the scan of the interval says where the imbalance stops falling. -/
theorem splitWritesTheBestDivision : Obligations.SplitWritesTheBestDivision := by
  intro s first last hr hok h1 h2
  obtain ⟨ge, _, falls, stops⟩ := bestDivision_scan (rankFreq s.freq s.symOf) (Nat.le_of_lt h1)
  have lt := bestDivision_lt _ h1 (rankFreq_positive hr hok (first := first) h2)
  have rank : (BitVec.ofNat 8 (bestDivision (rankFreq s.freq s.symOf) first last)).toNat =
      bestDivision (rankFreq s.freq s.symOf) first last := by
    have := nnz_le hr hok
    rw [BitVec.toNat_ofNat, Nat.mod_eq_of_lt (by omega)]
  refine ⟨_, _, exec_split_ok hr h1 h2, rfl, ?_⟩
  rw [rank]
  exact ⟨ge, lt, falls, stops lt⟩

/-- Settles O13: either check faults on the state as it was. -/
theorem splitFaultsInOrder : Obligations.SplitFaultsInOrder := by
  intro s first last
  refine ⟨fun h => ?_, fun h hi => ?_⟩
  · exact ⟨_, exec_split_stale h first last, raise_faulted s .seqRank rfl (by decide) rfl, raise_untouched s _⟩
  · exact ⟨_, exec_split_operand h hi, raise_faulted s .operand rfl (by decide) rfl, raise_untouched s _⟩

section
variable {F : Nat → Nat} {first last : Nat}

/-- Up to the split index the imbalance falls. -/
theorem imbalanceAt_falls (h : first ≤ last) {r r' : Nat} (h1 : first ≤ r) (h2 : r < r')
    (h3 : r' ≤ bestDivision F first last) : imbalanceAt F first last r' < imbalanceAt F first last r := by
  obtain ⟨_, _, falls, _⟩ := bestDivision_scan F h
  induction r', h2 using Nat.le_induction with
  | base => exact falls r h1 h3
  | succ r' hr ih => exact (falls r' (by omega) h3).trans (ih (by omega))

/-- Behind the split index it is nowhere lower. -/
theorem imbalanceAt_rises (h : first < last) (hF : PositiveOn F first last) {r : Nat}
    (h1 : bestDivision F first last < r) (h2 : r ≤ last) :
    imbalanceAt F first last (bestDivision F first last) ≤ imbalanceAt F first last r := by
  obtain ⟨ge, _, _, stops⟩ := bestDivision_scan F (Nat.le_of_lt h)
  have next := stops (bestDivision_lt F h hF)
  have half : sumTo F first last ≤ 2 * sumTo F first (bestDivision F first last + 1) := by
    by_contra hc
    have := (imbalanceAt_mono F hF ge (Nat.lt_add_one _) (by omega)).2 (Nat.lt_of_not_le hc)
    omega
  rcases Nat.eq_or_lt_of_le (Nat.succ_le_of_lt h1) with rfl | hlt
  · exact next
  · exact next.trans (Nat.le_of_lt ((imbalanceAt_mono F hF (by omega) hlt h2).1 half))

end

/-- Settles O14: the imbalance falls up to the split index and is nowhere lower behind it. -/
theorem bestDivisionIsTheEarliestMinimum : Obligations.BestDivisionIsTheEarliestMinimum := by
  intro F first last h hF
  obtain ⟨ge, _⟩ := bestDivision_scan F (Nat.le_of_lt h)
  refine ⟨ge, bestDivision_lt F h hF, fun r h1 h2 => ?_⟩
  have before : r < bestDivision F first last → imbalanceAt F first last (bestDivision F first last) <
      imbalanceAt F first last r := fun hlt => imbalanceAt_falls (Nat.le_of_lt h) h1 hlt (Nat.le_refl _)
  refine ⟨?_, before⟩
  rcases Nat.lt_trichotomy r (bestDivision F first last) with hlt | rfl | hgt
  · exact Nat.le_of_lt (before hlt)
  · exact Nat.le_refl _
  · exact imbalanceAt_rises h hF hgt h2

/-- Settles O15: the first rank has a count of at least 1 and less than the total, so its imbalance is below the total
and the scan takes it, as the one without a minimum does. -/
theorem startingMinimumIsUnobservable : Obligations.StartingMinimumIsUnobservable := by
  intro F first last h hF
  have total : sumTo F first first < sumTo F first last := sumTo_strict F hF (Nat.le_refl _) h (Nat.le_refl _)
  have one : sumTo F first first = F first := by simp [sumTo, intervalSum]
  have pos := hF first (Nat.le_refl _) (Nat.le_of_lt h)
  have below : imbalance (0 + F first) (sumTo F first last) < sumTo F first last := by
    simp only [imbalance]
    split <;> omega
  have taken : improves (imbalance (0 + F first) (sumTo F first last)) (some (sumTo F first last)) = true :=
    decide_eq_true below
  change scanSplit F (sumTo F first last) _ _ _ (some (sumTo F first last)) _ =
    scanSplit F (sumTo F first last) _ _ _ _ _
  rw [scanSplit, if_pos taken, scanSplit, improves, if_pos rfl]

/-! ### The partition (R109 to R115) -/

/-- Settles O16: the bound is not felt, and the model's recursion is then that of the rule. -/
theorem partitionFollowsTheRecursion : Obligations.PartitionFollowsTheRecursion := by
  intro F bound first last p h hb hF
  split
  · next e =>
    subst e
    exact assignLeaves_one F bound first p
  · next hne =>
    rw [assignLeaves_bound F bound h hb hF, assignLeaves_two F (Nat.lt_of_le_of_ne h hne) hF]

/-- An entry of the table of leaves is empty or the packed code of a leaf, so its bits beyond the code are 0. -/
theorem tableOf_beyond (l : List (Byte × List Bool)) (t : CodeTable) (hl : ∀ x ∈ l, x.2.length ≤ 255)
    (ht : ∀ a k, (t.clen.at a).toNat ≤ k → (t.cbits.at a).getLsbD k = false) (a : Byte) (k : Nat)
    (hk : ((tableOf l t).clen.at a).toNat ≤ k) : ((tableOf l t).cbits.at a).getLsbD k = false := by
  induction l generalizing t with
  | nil => exact ht a k hk
  | cons x l ih =>
    obtain ⟨hx, hl⟩ := List.forall_mem_cons.1 hl
    refine ih (t.setCode x.1 x.2) hl (fun b j hj => ?_) hk
    simp only [CodeTable.setCode, Table.at_put] at hj ⊢
    split at hj
    · next e =>
      rw [if_pos e]
      rw [BitVec.toNat_ofNat, Nat.mod_eq_of_lt (by omega)] at hj
      exact packed_beyond hj
    · next e =>
      rw [if_neg e]
      exact ht b j hj

section
variable {s : State} {l : List (Byte × List Bool)}

theorem CodesOf.beyond (h : CodesOf s l) (hle : s.nnz.toNat ≤ 256) (a : Byte) (k : Nat)
    (hk : (s.partEffect.clen.at a).toNat ≤ k) : (s.partEffect.cbits.at a).getLsbD k = false := by
  have table : partition (rankFreq s.freq s.symOf) s.symOf s.nnz.toNat = tableOf l CodeTable.blank := h.table
  change ((partition _ _ _).clen.at a).toNat ≤ k at hk
  change ((partition _ _ _).cbits.at a).getLsbD k = false
  rw [table] at hk ⊢
  refine tableOf_beyond l _ (fun x hx => ?_) (fun b j _ => ?_) a k hk
  · have := h.short x hx
    omega
  · simp [CodeTable.blank]

/-- R111: the leaf of a rank gives its symbol's code. -/
theorem CodesOf.leaf_code (h : CodesOf s l) (hle : s.nnz.toNat ≤ 256) (h1 : 1 ≤ s.nnz.toNat) {r : Nat} {p : List Bool}
    (hp : (r, p) ∈ assignLeaves (rankFreq s.freq s.symOf) (s.nnz.toNat - 1) 0 (s.nnz.toNat - 1) []) :
    s.partEffect.code (s.symOf.at (BitVec.ofNat 8 r)) = p := by
  refine h.code hle (x := (s.symOf.at (BitVec.ofNat 8 r), p)) ?_
  rw [h.leaves, codeLeaves, if_pos h1]
  exact List.mem_map.2 ⟨_, hp, rfl⟩

/-- R113 (a): a symbol has a code exactly when it is counted. -/
theorem CodesOf.code_ne_iff (h : CodesOf s l) (hle : s.nnz.toNat ≤ 256) (h2 : 2 ≤ s.nnz.toNat) (a : Byte) :
    s.partEffect.code a ≠ [] ↔ s.freq.at a ≠ 0 :=
  ⟨fun ha => (h.symbols a).1 (List.mem_map.2 ⟨_, h.mem_of_code_ne hle ha, rfl⟩), h.code_ne hle h2⟩

/-- R113 (c). -/
theorem CodesOf.code_length_le (h : CodesOf s l) (hle : s.nnz.toNat ≤ 256) (a : Byte) :
    (s.partEffect.code a).length ≤ s.nnz.toNat - 1 := by
  by_cases ha : s.partEffect.code a = []
  · simp [ha]
  · exact h.short _ (h.mem_of_code_ne hle ha)

/-- The list of codes is in the order of the ranks. -/
theorem CodesOf.entry (h : CodesOf s l) (hle : s.nnz.toNat ≤ 256) {r : Byte} (hr : r.toNat < s.nnz.toNat) :
    l[r.toNat]? = some (s.symOf.at r, s.partEffect.code (s.symOf.at r)) := by
  have hl : r.toNat < l.length := by
    have := congrArg List.length h.ranks
    simp only [List.length_map, List.length_range] at this
    omega
  have sym : l[r.toNat].1 = s.symOf.at r := by
    have := congrArg (·[r.toNat]?) h.ranks
    simpa [List.getElem?_range hr, hl] using this
  rw [List.getElem?_eq_getElem hl, ← sym, h.code hle (List.getElem_mem hl)]

/-- R113 (e). -/
theorem CodesOf.lex (h : CodesOf s l) (hle : s.nnz.toNat ≤ 256) {r r' : Byte} (hrr : r.toNat < r'.toNat)
    (hr' : r'.toNat < s.nnz.toNat) :
    List.Lex (fun x y => x = false ∧ y = true) (s.partEffect.code (s.symOf.at r))
      (s.partEffect.code (s.symOf.at r')) := by
  obtain ⟨h1, e1⟩ := List.getElem?_eq_some_iff.1 (h.entry hle (hrr.trans hr'))
  obtain ⟨h2, e2⟩ := List.getElem?_eq_some_iff.1 (h.entry hle hr')
  have parts := List.pairwise_iff_getElem.1 h.parts _ _ h1 h2 hrr
  rw [e1, e2] at parts
  exact parts.lex

/-- R113 (d): the sum over the coded symbols is the sum over the leaves. -/
theorem CodesOf.kraft (h : CodesOf s l) (hle : s.nnz.toNat ≤ 256) (h2 : 2 ≤ s.nnz.toNat) :
    (allBytes.map fun a => if s.partEffect.code a = [] then 0 else 2 ^ (255 - (s.partEffect.code a).length)).sum =
      2 ^ 255 := by
  have leaves : ((l.map Prod.fst).map fun a =>
      if s.partEffect.code a = [] then 0 else 2 ^ (255 - (s.partEffect.code a).length)) =
      l.map fun x => 2 ^ (255 - x.2.length) := by
    rw [List.map_map]
    refine List.map_congr_left fun x hx => ?_
    rw [Function.comp_apply, h.code hle hx, if_neg (h.nonempty h2 x hx)]
  rw [← h.fills, ← leaves, ← List.sum_toFinset _ allBytes_nodup, ← List.sum_toFinset _ h.nodup]
  refine (Finset.sum_subset (fun a _ => List.mem_toFinset.2 (mem_allBytes a)) fun a _ ha => ?_).symm
  rw [List.mem_toFinset] at ha
  rw [if_pos (h.no_code ha).2.2]

end

/-- Settles O17: what `part` writes is the list of the leaves, whose properties are those of R113. -/
theorem partAssignsPrefixFreeCodes : Obligations.PartAssignsPrefixFreeCodes := by
  intro s hr hok
  have le := nnz_le hr hok
  refine ⟨_, exec_part_ok hr, by simp [Completed, SameErrors], by simp [SameInputs], by simp [SameRanking],
    by simp [SameTrie], by simp [SameCursor], rfl, rfl, ?_⟩
  by_cases h1 : 1 ≤ s.nnz.toNat
  · obtain ⟨l, hl⟩ := codesOf_exists hr hok h1
    exact ⟨hl.beyond le, fun _ r p hp => hl.leaf_code le h1 hp, fun h2 => ⟨hl.prefixFree le, hl.code_ne_iff le h2,
      hl.code_length_le le, fun _ _ => hl.lex le⟩⟩
  · refine ⟨fun a k _ => ?_, fun h => absurd h h1, fun h => absurd (Nat.le_of_succ_le h) h1⟩
    rw [partEffect_of_none (by omega)]
    simp

/-- Settles O18: the leaves fill the tree. -/
theorem partCodesFillTheTree : Obligations.PartCodesFillTheTree := by
  intro s hr hok h2
  obtain ⟨l, hl⟩ := codesOf_exists hr hok (Nat.le_of_succ_le h2)
  exact ⟨_, exec_part_ok hr, hl.kraft (nnz_le hr hok) h2⟩

/-- R114: at most one symbol makes no table entry but empty ones. -/
theorem partEffect_of_le_one {s : State} (h : s.nnz.toNat ≤ 1) (a : Byte) :
    s.partEffect.clen.at a = 0 ∧ s.partEffect.cbits.at a = 0 := by
  rcases Nat.le_one_iff_eq_zero_or_eq_one.1 h with h0 | h1
  · rw [partEffect_of_none h0]
    simp
  · have one : partition (rankFreq s.freq s.symOf) s.symOf s.nnz.toNat =
        CodeTable.blank.setCode (s.symOf.at 0) [] := by
      rw [h1]
      rfl
    change (partition _ _ _).clen.at a = 0 ∧ (partition _ _ _).cbits.at a = 0
    rw [one]
    simp [CodeTable.setCode, CodeTable.blank, Table.at_put, packBits]

/-- Settles O19: no leaf, or the one leaf with the empty code. -/
theorem partOfAtMostOneSymbolIsEmpty : Obligations.PartOfAtMostOneSymbolIsEmpty := by
  intro s hr h
  refine ⟨_, exec_part_ok hr, by simp [Completed, SameErrors], fun a => ?_⟩
  obtain ⟨len, bits⟩ := partEffect_of_le_one h a
  refine ⟨len, bits, List.eq_nil_of_length_eq_zero ?_⟩
  rw [code_length, State.complete_clen, len]
  rfl

/-- Settles O20: the completion in between changes nothing that `part` reads, and it sets the flags it finds set. -/
theorem assignIsRankThenPart : Obligations.AssignIsRankThenPart := by
  intro s
  refine ⟨_, s.rankEffect.partEffect.complete, exec_rank s, exec_part_ok rfl, exec_assign s, ?_⟩
  simp [Completed, SameErrors, SameInputs, SameTrie, SameCursor]

end Sys2Proof.Machine
end

section
/-! `tbuild` (41_trie.md): the trie of a table that fits and whose codes do not collide, and the first symbol of any
other at which the build stops. -/

namespace Sys2Proof.Machine

/-! ### What a build that completes answers -/

/-- A built arena is named by the prefixes of the table, in order of creation, and fits. -/
theorem paths_of_buildTrie {nodeMax : Nat} (hmax : 1 ≤ nodeMax) {code : Byte → List Bool} {ns : List Node}
    (h : buildTrie nodeMax code = .ok ns) :
    Paths code allBytes ns (creationOrder (allBytes.map code)) ∧ ns.length ≤ nodeMax := by
  rcases buildTrie_cases nodeMax hmax code with ⟨ns', e, hp, hl⟩ | ⟨_, _, _, _, e, _⟩ <;> cases e.symm.trans h
  exact ⟨hp, hl⟩

/-- R136 (d): only a table that fits and has no colliding codes is built. -/
theorem prefixFree_fits_of_buildTrie {nodeMax : Nat} (hmax : 1 ≤ nodeMax) {code : Byte → List Bool} {ns : List Node}
    (h : buildTrie nodeMax code = .ok ns) : PrefixFree code ∧ nodesNeeded code ≤ nodeMax := by
  obtain ⟨hp, hl⟩ := paths_of_buildTrie hmax h
  exact ⟨hp.prefixFree, hp.length_eq ▸ hl⟩

/-- R136 (a): a node with a symbol is the end of that symbol's code. -/
theorem Paths.symbol_reached {code : Byte → List Bool} {ns : List Node}
    (h : Paths code allBytes ns (creationOrder (allBytes.map code))) {n : Nat} (hn : n < ns.length)
    (hs : (nodeAt ns n).sym.isSome = true) : ∃ a : Byte, code a ≠ [] ∧ followPath ns 0 (code a) = some n := by
  obtain ⟨p, hp⟩ := h.get hn
  obtain ⟨a, ha⟩ := Option.isSome_iff_exists.1 hs
  obtain ⟨_, hne, rfl⟩ := (h.sym hp a).1 ha
  exact ⟨a, hne, (h.index_iff n (code a)).2 hp⟩

theorem storeNodes_nodeCount (s : State) {ns : List Node} (h : ns.length ≤ s.config.nodeMax) :
    (s.storeNodes ns).nodeCount.toNat = ns.length := by
  have := nodeMax_le s.config
  rw [State.storeNodes_nodeCount, BitVec.toNat_ofNat, Nat.mod_eq_of_lt (by omega)]

/-- Settles O21: the table is built, and the names of the nodes by paths say all of the arena. -/
theorem tbuildBuildsTheTrie : Obligations.TbuildBuildsTheTrie := by
  intro s held hpf hfit
  obtain ⟨ns, hb, trieHolds⟩ := buildTrie_of_prefixFree (nodeMax_pos s.config) hpf hfit
  obtain ⟨hp, hl⟩ := paths_of_buildTrie (nodeMax_pos s.config) hb
  refine ⟨_, exec_tbuild_ok held hb, by simp [Completed, SameErrors], rfl, hp.length_eq,
    (storeNodes_nodeCount s hl).trans hp.length_eq, trieHolds, hp.trieShape, fun n => hp.symbol_reached,
    hp.index_iff, ?_⟩
  simp [SameInputs, SameRanking, SameCodes, SameCursor]

/-- Settles O22: the command completes exactly where the build does. -/
theorem tbuildCompletesExactlyOnFittingPrefixFreeTables :
    Obligations.TbuildCompletesExactlyOnFittingPrefixFreeTables := by
  intro s held
  constructor
  · rintro ⟨t, ht, done⟩
    cases hb : buildTrie s.config.nodeMax s.code with
    | error f =>
      cases (exec_tbuild_fault held hb).symm.trans ht
      cases done
    | ok ns => exact prefixFree_fits_of_buildTrie (nodeMax_pos s.config) hb
  · rintro ⟨hpf, hfit⟩
    obtain ⟨ns, hb, _⟩ := buildTrie_of_prefixFree (nodeMax_pos s.config) hpf hfit
    exact ⟨_, exec_tbuild_ok held hb, rfl⟩

/-! ### Where the build stops -/

/-- R134: the build of a table that fits but has colliding codes stops at the first symbol that collides. -/
theorem buildTrie_collides {nodeMax : Nat} (hmax : 1 ≤ nodeMax) {code : Byte → List Bool} (hpf : ¬ PrefixFree code)
    (hfit : nodesNeeded code ≤ nodeMax) :
    ∃ (f : FaultReport) (before after : List Byte) (a : Byte), buildTrie nodeMax code = .error f ∧
      allBytes = before ++ a :: after ∧ code a ≠ [] ∧ Collides code before a f ∧
      ∀ b ∈ before, ∀ c ∈ before, b ≠ c → code b ≠ [] → code c ≠ [] → ¬ code b <+: code c := by
  rcases buildTrie_cases nodeMax hmax code with ⟨ns, _, hp, _⟩ | ⟨f, before, after, a, e, cut, hne, hfault, hfree⟩
  · exact absurd hp.prefixFree hpf
  · refine ⟨f, before, after, a, e, cut, hne, hfault.resolve_right fun hover => ?_, hfree⟩
    exact Nat.not_lt.2 hfit hover.nodesNeeded

/-- R137: the build of a table without collisions that does not fit stops where a node is wanting. -/
theorem buildTrie_overflows {nodeMax : Nat} (hmax : 1 ≤ nodeMax) {code : Byte → List Bool} (hpf : PrefixFree code)
    (hbig : nodeMax < nodesNeeded code) :
    ∃ (f : FaultReport) (a : Byte), buildTrie nodeMax code = .error f ∧
      Overflows nodeMax code (allBytes.take a.toNat) a f := by
  rcases buildTrie_cases nodeMax hmax code with ⟨ns, _, hp, hl⟩ | ⟨f, before, after, a, e, cut, hne, hfault, _⟩
  · exact absurd (hp.length_eq ▸ hl) (Nat.not_le.2 hbig)
  · have notBefore : a ∉ before := fun ha => Nat.lt_irrefl _ ((mem_before_iff cut a).1 ha)
    have full := hfault.resolve_left fun hcol => hcol.not_prefixFree notBefore hne hpf
    exact ⟨f, a, e, before_eq_take cut ▸ full⟩

/-- The words of a collision's fault (60_exceptions.md R203), by how the codes collide. -/
theorem Collides.faulted {code : Byte → List Bool} {earlier : List Byte} {a : Byte} {f : FaultReport}
    (h : Collides code earlier a f) (s : State) :
    ∃ b ∈ earlier, code b ≠ [] ∧
      ((code b <+: code a ∧ (code b).length < (code a).length ∧
          Faulted (s.raise f) 0x2004 (insertInfo (code b).length a)) ∨
       (code a <+: code b ∧ Faulted (s.raise f) 0x2104 (insertInfo (code a).length a))) := by
  obtain ⟨x, info, ⟨cause, hx, b, hb, hne, e⟩ | ⟨cause, rfl, b, hb, hne, hp⟩⟩ := h
  · have length : (code b).length = x := by
      rw [e, List.length_take, Nat.min_eq_left (Nat.le_of_lt hx)]
    refine ⟨b, hb, hne, .inl ⟨e ▸ List.take_prefix _ _, length ▸ hx, ?_⟩⟩
    exact raise_faulted s .prefixThrough cause (by decide) (length ▸ info)
  · exact ⟨b, hb, hne, .inr ⟨hp, raise_faulted s .prefixEnd cause (by decide) info⟩⟩

/-- Settles O23: the build stops at the first collision, and the symbols before that entry are those below it. -/
theorem tbuildRefusesPrefixingCodes : Obligations.TbuildRefusesPrefixingCodes := by
  intro s held hpf hfit
  obtain ⟨f, before, after, a, hb, cut, hne, hcol, hfree⟩ := buildTrie_collides (nodeMax_pos s.config) hpf hfit
  obtain ⟨b, hbef, hbne, fault⟩ := hcol.faulted s
  refine ⟨_, a, b, exec_tbuild_fault held hb, raise_untouched s f, (mem_before_iff cut b).1 hbef, hne, hbne, ?_, fault⟩
  exact fun c c' hc hc' => hfree c ((mem_before_iff cut c).2 hc) c' ((mem_before_iff cut c').2 hc')

/-- Settles O24: the build stops where the arena is full. -/
theorem tbuildFaultsWhenTheArenaIsFull : Obligations.TbuildFaultsWhenTheArenaIsFull := by
  intro s held hpf hbig
  obtain ⟨f, a, hb, cause, x, info, hx, full, new⟩ := buildTrie_overflows (nodeMax_pos s.config) hpf hbig
  exact ⟨_, a, x, exec_tbuild_fault held hb, raise_faulted s .nodes cause (by decide) info, hx, full, new,
    raise_untouched s f⟩

/-! ### The empty table (R135) -/

theorem insertSymbols_of_empty (nodeMax : Nat) {code : Byte → List Bool} (h : ∀ a, code a = []) (l : List Byte)
    (ns : List Node) : insertSymbols nodeMax code l ns = .ok ns := by
  induction l with
  | nil => rfl
  | cons a l ih =>
    have skip : insertSymbol nodeMax code a ns = .ok ns := by simp [insertSymbol, h a]
    rw [insertSymbols, skip]
    exact ih

/-- Settles O25: every symbol is skipped, and the root is left. -/
theorem tbuildOfAnEmptyTableIsTheRoot : Obligations.TbuildOfAnEmptyTableIsTheRoot := by
  intro s held h
  have empty : ∀ a, s.code a = [] := fun a => by
    apply List.eq_nil_of_length_eq_zero
    rw [code_length, h a]
    rfl
  exact exec_tbuild_ok held (insertSymbols_of_empty s.config.nodeMax empty allBytes [Node.empty])

end Sys2Proof.Machine
end

section
/-! What the commands leave unchanged (20_memory.md R75), how they end (60_exceptions.md R206, R210), and that every
step keeps the flags and `BITMASK` legal (10_state.md R52). -/

namespace Sys2Proof.Machine

/-! ### How a command ends -/

/-- A command ends in `complete` or in fault entry, at a state with the inputs and the error flags it began with. -/
theorem exec_ends {i : Instr} {s t : State} (h : exec i s = .next t) :
    ∃ s' : State, SameInputs s s' ∧ SameErrors s s' ∧ s'.status.fault = s.status.fault ∧
      (t = s'.complete ∨ ∃ f, f.cause ∈ ownCauses i ∧ t = s'.raise f) := by
  rcases exec_cases h with
    ⟨f, own, rfl | ⟨rfl, rfl⟩⟩ | ⟨rfl, rfl⟩ | ⟨rfl, rfl⟩ | ⟨first, last, rfl, _, _, _, rfl⟩ | ⟨rfl, _, rfl⟩ |
    ⟨rfl, rfl⟩ | ⟨rfl, _, ns, _, rfl⟩ | ⟨rfl, rfl⟩ | ⟨rfl, _, _, _, k, o, walk, ⟨_, rfl⟩ | ⟨f, rfl, rfl⟩⟩ |
    ⟨rfl, _, _, _, ns, _, k, o, walk, ⟨_, rfl⟩ | ⟨f, rfl, rfl⟩⟩
  · exact ⟨s, by simp [SameInputs], by simp [SameErrors], rfl, .inr ⟨f, own, rfl⟩⟩
  · exact ⟨s.startDecode, by simp [SameInputs], by simp [SameErrors], rfl, .inr ⟨f, own, rfl⟩⟩
  · exact ⟨s, by simp [SameInputs], by simp [SameErrors], rfl, .inl rfl⟩
  · exact ⟨s.rankEffect, by simp [SameInputs], by simp [SameErrors], rfl, .inl rfl⟩
  · exact ⟨{ s with splitD := BitVec.ofNat 8 (bestDivision (rankFreq s.freq s.symOf) first last) },
      by simp [SameInputs], by simp [SameErrors], rfl, .inl rfl⟩
  · exact ⟨s.partEffect, by simp [SameInputs], by simp [SameErrors], rfl, .inl rfl⟩
  · exact ⟨s.rankEffect.partEffect, by simp [SameInputs], by simp [SameErrors], rfl, .inl rfl⟩
  · exact ⟨(s.storeNodes ns).setTrieValid true, by simp [SameInputs], by simp [SameErrors], rfl, .inl rfl⟩
  · exact ⟨s.releaseNodes.setTrieValid false, by simp [SameInputs], by simp [SameErrors], rfl, .inl rfl⟩
  · exact ⟨s.withWalk k, by simp [SameInputs], by simp [SameErrors], rfl, .inl rfl⟩
  · refine ⟨s.withWalk k, by simp [SameInputs], by simp [SameErrors], rfl, .inr ⟨f, ?_, rfl⟩⟩
    rcases decodeBlock_cause walk with e | e | e <;> simp [e, ownCauses]
  · exact ⟨((s.storeNodes ns).withWalk k).releaseNodes, by simp [SameInputs], by simp [SameErrors], rfl, .inl rfl⟩
  · refine ⟨(s.storeNodes ns).withWalk k, by simp [SameInputs], by simp [SameErrors], rfl, .inr ⟨f, ?_, rfl⟩⟩
    rcases decodeBlock_cause walk with e | e | e <;> simp [e, ownCauses]

/-- No command writes an input (R75). -/
theorem exec_inputs {i : Instr} {s t : State} (h : exec i s = .next t) : SameInputs s t := by
  obtain ⟨s', same, _, _, rfl | ⟨f, _, rfl⟩⟩ := exec_ends h <;> exact same

/-- Settles O38: the end is completion with the error flags kept, or a fault of the command's own row. -/
theorem everyCommandCompletesOrFaults : Obligations.EveryCommandCompletesOrFaults := by
  intro i s _
  obtain ⟨t, h⟩ := exec_next i s
  refine ⟨t, h, exec_inputs h, ?_⟩
  obtain ⟨s', _, errors, fault, rfl | ⟨f, own, rfl⟩⟩ := exec_ends h
  · exact .inl ⟨rfl, rfl, fault, errors⟩
  · exact .inr ⟨_, _, errWord_of_ownCauses own, raise_faulted s' f.cause rfl rfl rfl⟩

/-! ### What a command may write -/

/-- Settles O39: by the case of the command's answer. -/
theorem commandsWriteOnlyTheirRow : Obligations.CommandsWriteOnlyTheirRow := by
  intro i s t h
  refine ⟨exec_inputs h, ?_⟩
  rcases exec_cases h with
    ⟨f, _, rfl | ⟨rfl, rfl⟩⟩ | ⟨rfl, rfl⟩ | ⟨rfl, rfl⟩ | ⟨first, last, rfl, _, _, _, rfl⟩ | ⟨rfl, _, rfl⟩ |
    ⟨rfl, rfl⟩ | ⟨rfl, _, ns, _, rfl⟩ | ⟨rfl, rfl⟩ | ⟨rfl, _, _, _, k, o, _, ⟨_, rfl⟩ | ⟨f, rfl, rfl⟩⟩ |
    ⟨rfl, _, _, _, ns, _, k, o, _, ⟨_, rfl⟩ | ⟨f, rfl, rfl⟩⟩ <;>
    simp [SameRanking, SameCodes, SameCursor, SameTrie]

/-- The registers and the output buffer where a walk of the packed stream can leave them. -/
def Walked (s t : State) : Prop :=
  (∃ p, NextBitIs t p ∧ p ≤ 8 * s.config.pbufSize) ∧ t.outCount.toNat ≤ s.config.obufSize ∧
  Memory.wf t.obuf ∧ (∀ c ∈ t.obuf, c.1 < s.config.obufSize) ∧ s.draws ≤ t.draws

/-- A walk with legal lengths stays in the buffers, and a fault entry after it only empties `OBUF`. -/
theorem decodeBlock_walked {s t : State} (hpl : s.packedLen.toNat ≤ s.config.pbufSize)
    (hel : s.expectedLen.toNat ≤ s.config.obufSize) {k : Walk} {o : Option FaultReport}
    (h : s.decodeBlock s.packedLen s.expectedLen = (k, o)) (hcur : SameCursor (s.withWalk k) t)
    (hobuf : t.obuf = k.obuf ∨ t.obuf = []) : Walked s t := by
  obtain ⟨⟨p, at_p, hp⟩, out, wf, bound, draws⟩ := decodeBlock_range hpl hel h
  obtain ⟨e1, e2, e3, e4⟩ := hcur
  refine ⟨⟨p, ?_, by omega⟩, ?_, ?_, ?_, ?_⟩
  · rw [NextBitIs, e2, e3]
    exact at_p
  · rw [e1]
    exact out.trans hel
  · rcases hobuf with e | e <;> rw [e]
    · exact wf
    · exact .nil
  · rcases hobuf with e | e <;> rw [e]
    · exact bound
    · exact nofun
  · rw [e4]
    exact draws

/-- `decode` and `blkdec` fault before any walk, with the registers as they were or as acceptance sets them, or walk. -/
theorem exec_walk_cursor {i : Instr} {s t : State} (hi : i = .decode ∨ i = .blkdec) (h : exec i s = .next t) :
    (SameCursor s t ∧ t.obuf = []) ∨ Walked s t := by
  obtain ⟨f, _, rfl | ⟨_, rfl⟩⟩ | e := exec_cases h
  · exact .inl ⟨⟨rfl, rfl, rfl, rfl⟩, rfl⟩
  · exact .inr ⟨⟨0, ⟨rfl, rfl⟩, Nat.zero_le _⟩, Nat.zero_le _, .nil, nofun, Nat.le_refl _⟩
  · refine .inr ?_
    rcases hi with rfl | rfl <;> simp only [reduceCtorEq, false_and, false_or, or_false, true_and, exists_false] at e
    · obtain ⟨_, hpl, hel, k, o, walk, ⟨_, rfl⟩ | ⟨f, _, rfl⟩⟩ := e
      · exact decodeBlock_walked hpl hel walk ⟨rfl, rfl, rfl, rfl⟩ (.inl rfl)
      · exact decodeBlock_walked hpl hel walk ⟨rfl, rfl, rfl, rfl⟩ (.inr rfl)
    · obtain ⟨_, hpl, hel, ns, _, k, o, walk, ⟨_, rfl⟩ | ⟨f, _, rfl⟩⟩ := e
      · exact decodeBlock_walked (s := s.storeNodes ns) hpl hel walk ⟨rfl, rfl, rfl, rfl⟩ (.inl rfl)
      · exact decodeBlock_walked (s := s.storeNodes ns) hpl hel walk ⟨rfl, rfl, rfl, rfl⟩ (.inr rfl)

/-- A command leaves the decode registers as they are, or where a walk can leave them. -/
theorem exec_cursor {i : Instr} {s t : State} (h : exec i s = .next t) :
    (SameCursor s t ∧ (t.obuf = s.obuf ∨ t.obuf = [])) ∨ Walked s t := by
  by_cases hi : i = .decode ∨ i = .blkdec
  · exact (exec_walk_cursor hi h).imp_left fun ⟨same, empty⟩ => ⟨same, .inr empty⟩
  · obtain ⟨hd, hb⟩ := not_or.1 hi
    obtain ⟨_, _, _, cursor, _, _, obuf⟩ := commandsWriteOnlyTheirRow i s t h
    refine .inl ⟨cursor hd hb, ?_⟩
    obtain ⟨s', _, _, _, rfl | ⟨f, _, rfl⟩⟩ := exec_ends h
    · exact .inl (obuf hd hb rfl)
    · exact .inr rfl

/-- The arena is released (41_trie.md R140, 60_exceptions.md R210). -/
def Released (t : State) : Prop := t.nodes = [] ∧ t.nodeCount = 0 ∧ t.status.trieValid = false

/-- `tbuild` releases the arena at a fault, and stores the one it built where it completes. -/
theorem exec_tbuild_arena {s t : State} (h : exec .tbuild s = .next t) :
    Released t ∨ (buildTrie s.config.nodeMax s.code = .ok t.nodes ∧ t.nodeCount = BitVec.ofNat 17 t.nodes.length ∧
      t.status.trieValid = true) := by
  cases held : s.status.trieValid with
  | true =>
    cases (exec_tbuild_held held).symm.trans h
    exact .inl ⟨rfl, rfl, rfl⟩
  | false =>
    cases built : buildTrie s.config.nodeMax s.code with
    | error f =>
      cases (exec_tbuild_fault held built).symm.trans h
      exact .inl ⟨rfl, rfl, rfl⟩
    | ok ns =>
      cases (exec_tbuild_ok held built).symm.trans h
      exact .inr ⟨rfl, rfl, rfl⟩

/-- A command leaves the arena as it is, releases it, or stores the one it built. -/
theorem exec_arena {i : Instr} {s t : State} (h : exec i s = .next t) :
    SameTrie s t ∨ Released t ∨
    (buildTrie s.config.nodeMax s.code = .ok t.nodes ∧ t.nodeCount = BitVec.ofNat 17 t.nodes.length ∧
      t.status.trieValid = true) := by
  by_cases hbuild : i = .tbuild
  · subst hbuild
    exact .inr (exec_tbuild_arena h)
  by_cases hfree : i = .tfree
  · subst hfree
    rw [exec_tfree] at h
    cases h
    exact .inr (.inl ⟨rfl, rfl, rfl⟩)
  by_cases hblk : i = .blkdec
  · subst hblk
    obtain ⟨t', h', released⟩ := blkdecLeavesNoTrie s
    cases h'.symm.trans h
    exact .inr (.inl released)
  obtain ⟨_, _, _, _, _, trie, _⟩ := commandsWriteOnlyTheirRow i s t h
  obtain ⟨s', _, _, _, rfl | ⟨f, _, rfl⟩⟩ := exec_ends h
  · exact .inl (trie hbuild hfree hblk rfl)
  · exact .inr (.inl ⟨rfl, rfl, rfl⟩)

/-! ### The invariants at reset -/

/-- Settles O54: at reset no flag is set, no node allocated, no byte specified. -/
theorem resetMeetsTheInvariants : Obligations.ResetMeetsTheInvariants := by
  refine ⟨⟨nofun, nofun, fun _ => ⟨rfl, rfl⟩⟩, .head _, nofun, ⟨rfl, Nat.zero_le _, by decide⟩, nofun, ?_⟩
  exact ⟨.nil, nofun, .nil, nofun, Nat.zero_le _, Nat.zero_le _⟩

/-! ### The flags and `BITMASK` (R27, R52 (c), (d)) -/

theorem statusOk_raise (s : State) (f : FaultReport) : StatusOk (s.raise f) := ⟨nofun, nofun, nofun⟩

theorem statusOk_writeCmd {s : State} (h : StatusOk s) (v : Word) : StatusOk (s.writeCmd v) := by
  rcases writeCmd_cases s v with ⟨_, e⟩ | ⟨_, _, e⟩ | ⟨_, hf, e⟩ <;> rw [e]
  · exact h
  · exact h
  · obtain ⟨_, _, noError⟩ := h
    exact ⟨fun both => Bool.false_ne_true (hf.symm.trans both.2), nofun, noError⟩

/-- A command in flight meets no fault, and its end is legal either way. -/
theorem statusOk_exec {i : Instr} {s t : State} (hb : s.status.busy = true) (he : exec i s = .next t) (h : StatusOk s) :
    StatusOk t := by
  obtain ⟨exclusive, _, noError⟩ := h
  have hf : s.status.fault = false := Bool.eq_false_iff.2 fun hf => exclusive ⟨hb, hf⟩
  obtain ⟨s', _, ⟨err, errInfo⟩, fault, rfl | ⟨f, _, rfl⟩⟩ := exec_ends he
  · have noFault : s'.complete.status.fault = false := fault.trans hf
    refine ⟨nofun, fun _ => ⟨rfl, noFault⟩, fun _ => ?_⟩
    rw [State.complete_err, State.complete_errInfo, err, errInfo]
    exact noError hf
  · exact statusOk_raise s' f

theorem step_keeps_statusOk {s t : State} (h : StatusOk s) (hs : step s = .next t) : StatusOk t := by
  refine step_induct StatusOk ?turns ?read ?hard ?soft ?cmd ?store ?raise ?command h hs
  case turns => exact fun _ _ h => h
  case read => exact fun _ _ _ h => h
  case hard => exact fun _ _ => resetMeetsTheInvariants.1
  case soft => exact fun _ _ => resetMeetsTheInvariants.1
  case cmd => exact fun _ v h => statusOk_writeCmd h v
  case store =>
    intro s a v _ h
    rw [writeLoc_frame]
    exact h
  case raise => exact fun s f _ _ => statusOk_raise s f
  case command => exact fun _ _ _ hb he h => statusOk_exec hb he h

/-- A bit of the packed stream is named by a one-hot mask. -/
theorem bitmaskOk_of_nextBit {t : State} {p : Nat} (h : NextBitIs t p) : BitmaskOk t := by
  have key : ∀ r : Fin 8, (0x80 : Byte) >>> r.val ∈ ([0x80, 0x40, 0x20, 0x10, 0x08, 0x04, 0x02, 0x01] : List Byte) := by
    decide
  rw [BitmaskOk, h.2]
  exact key ⟨p % 8, Nat.mod_lt _ (by decide)⟩

theorem step_keeps_bitmaskOk {s t : State} (h : BitmaskOk s) (hs : step s = .next t) : BitmaskOk t := by
  refine step_induct BitmaskOk ?turns ?read ?hard ?soft ?cmd ?store ?raise ?command h hs
  case turns => exact fun _ _ h => h
  case read => exact fun _ _ _ h => h
  case hard => exact fun _ _ => resetMeetsTheInvariants.2.1
  case soft => exact fun _ _ => resetMeetsTheInvariants.2.1
  case cmd =>
    intro s v h
    rcases writeCmd_cases s v with ⟨_, e⟩ | ⟨_, _, e⟩ | ⟨_, _, e⟩ <;> rw [e] <;> exact h
  case store =>
    intro s a v _ h
    rw [writeLoc_frame]
    exact h
  case raise => exact fun _ _ _ h => h
  case command =>
    intro s i t _ he h
    rcases exec_cursor he with ⟨⟨_, _, bitmask, _⟩, _⟩ | ⟨⟨p, next, _⟩, _⟩
    · rw [BitmaskOk, bitmask]
      exact h
    · exact bitmaskOk_of_nextBit next

/-- Settles O55: both hold through each kind of turn. -/
theorem stepKeepsStatusAndBitmask : Obligations.StepKeepsStatusAndBitmask :=
  fun _ _ hs => ⟨fun h => step_keeps_statusOk h hs, fun h => step_keeps_bitmaskOk h hs⟩

end Sys2Proof.Machine
end

section
/-! What every step keeps of the rank tables, the arena and the buffers (10_state.md R52), and that every step goes
on. -/

namespace Sys2Proof.Machine

/-! ### The rank tables (R52 (b)) -/

/-- A truth about `FREQ` and the ranking alone. -/
theorem rankTablesOk_of_same {s t : State} (hf : t.freq = s.freq) (hr : SameRanking s t) (h : RankTablesOk s) :
    RankTablesOk t := by
  obtain ⟨e1, e2, e3, e4, e5⟩ := hr
  rw [RankTablesOk, hf, e1, e2, e3, e4, e5]
  exact h

theorem rankTablesOk_exec {i : Instr} {s t : State} (he : exec i s = .next t) (h : RankTablesOk s) :
    RankTablesOk t := by
  by_cases hi : i = .rank ∨ i = .assign
  · have described := rankEffect_rankTablesOk s
    rcases hi with rfl | rfl
    · rw [exec_rank] at he
      cases he
      exact described
    · rw [exec_assign] at he
      cases he
      exact described
  · obtain ⟨inputs, ranking, _⟩ := commandsWriteOnlyTheirRow i s t he
    obtain ⟨_, _, freq, _⟩ := inputs
    exact rankTablesOk_of_same freq (ranking (fun e => hi (.inl e)) fun e => hi (.inr e)) h

/-- A store changes `FREQ` only where it clears `RANK_VALID` (R40). -/
theorem rankTablesOk_writeLoc {s : State} (h : RankTablesOk s) (v : Word) (l : Loc) :
    RankTablesOk (s.writeLoc v l) := by
  cases l
  case freq => exact nofun
  all_goals exact h

/-- Settles O56: only `rank` and `assign` set `RANK_VALID`, and a store into `FREQ` clears it. -/
theorem stepKeepsRankTables : Obligations.StepKeepsRankTables := by
  intro s t h hs
  refine step_induct RankTablesOk ?turns ?read ?hard ?soft ?cmd ?store ?raise ?command h hs
  case turns => exact fun _ _ h => h
  case read => exact fun _ _ _ h => h
  case hard => exact fun _ _ => nofun
  case soft => exact fun _ _ => nofun
  case cmd =>
    intro s v h
    rcases writeCmd_cases s v with ⟨_, e⟩ | ⟨_, _, e⟩ | ⟨_, _, e⟩ <;> rw [e] <;> exact h
  case store => exact fun _ _ v _ h => rankTablesOk_writeLoc h v _
  case raise => exact fun _ _ _ h => h
  case command => exact fun _ _ _ _ he h => rankTablesOk_exec he h

/-! ### The arena (R52 (a), (e)) -/

/-- What is kept of the arena: it is counted, it fits, and while it is held it is a trie. -/
def TrieInvariant (s : State) : Prop := ArenaOk s ∧ TrieOk s

/-- A truth about the arena and `NODE_MAX` alone. -/
theorem trieInvariant_of_same {s t : State} (hc : t.config = s.config) (ht : SameTrie s t) (h : TrieInvariant s) :
    TrieInvariant t := by
  obtain ⟨nodes, count, valid⟩ := ht
  rw [TrieInvariant, ArenaOk, TrieOk, hc, nodes, count, valid]
  exact h

/-- No node is allocated and no trie held. -/
theorem trieInvariant_of_released {t : State} (h : Released t) : TrieInvariant t := by
  obtain ⟨nodes, count, valid⟩ := h
  simp [TrieInvariant, ArenaOk, TrieOk, nodes, count, valid]

/-- A built arena has a root, fits, and is a trie. -/
theorem trieInvariant_of_built {s t : State} (hc : t.config = s.config)
    (built : buildTrie s.config.nodeMax s.code = .ok t.nodes) (count : t.nodeCount = BitVec.ofNat 17 t.nodes.length)
    (valid : t.status.trieValid = true) : TrieInvariant t := by
  obtain ⟨paths, fits⟩ := paths_of_buildTrie (nodeMax_pos s.config) built
  have counted : t.nodeCount.toNat = t.nodes.length := by
    rw [count]
    exact storeNodes_nodeCount s fits
  have root : 1 ≤ t.nodes.length := by
    rw [paths.length_eq, nodesNeeded]
    omega
  exact ⟨⟨counted, hc ▸ fits, iff_of_true valid (counted ▸ root)⟩, fun _ => paths.trieShape⟩

theorem trieInvariant_exec {i : Instr} {s t : State} (he : exec i s = .next t) (h : TrieInvariant s) :
    TrieInvariant t := by
  obtain ⟨config, _⟩ := exec_inputs he
  rcases exec_arena he with same | released | ⟨built, count, valid⟩
  · exact trieInvariant_of_same config same h
  · exact trieInvariant_of_released released
  · exact trieInvariant_of_built config built count valid

theorem step_keeps_trieInvariant {s t : State} (h : TrieInvariant s) (hs : step s = .next t) : TrieInvariant t := by
  refine step_induct TrieInvariant ?turns ?read ?hard ?soft ?cmd ?store ?raise ?command h hs
  case turns => exact fun _ _ h => h
  case read => exact fun _ _ _ h => h
  case hard => exact fun _ _ => trieInvariant_of_released ⟨rfl, rfl, rfl⟩
  case soft => exact fun _ _ => trieInvariant_of_released ⟨rfl, rfl, rfl⟩
  case cmd =>
    intro s v h
    rcases writeCmd_cases s v with ⟨_, e⟩ | ⟨_, _, e⟩ | ⟨_, _, e⟩ <;> rw [e] <;> exact h
  case store =>
    intro s a v _ h
    rw [writeLoc_frame]
    exact h
  case raise => exact fun _ _ _ _ => trieInvariant_of_released ⟨rfl, rfl, rfl⟩
  case command => exact fun _ _ _ _ he h => trieInvariant_exec he h

/-- Settles O57: through each kind of turn the arena stays as it is, is released, or is one just built. -/
theorem stepKeepsTrie : Obligations.StepKeepsTrie :=
  fun _ _ arena trie hs => step_keeps_trieInvariant ⟨arena, trie⟩ hs

/-! ### The buffers -/

theorem buffersOk_raise {s : State} (h : BuffersOk s) (f : FaultReport) : BuffersOk (s.raise f) := by
  obtain ⟨wf, bound, _, _, out, cursor⟩ := h
  exact ⟨wf, bound, .nil, nofun, out, cursor⟩

theorem buffersOk_exec {i : Instr} {s t : State} (he : exec i s = .next t) (h : BuffersOk s) : BuffersOk t := by
  obtain ⟨config, _, _, pbuf, _⟩ := exec_inputs he
  obtain ⟨wf, bound, wf', bound', out, cursor⟩ := h
  rw [BuffersOk, config, pbuf]
  refine ⟨wf, bound, ?_⟩
  rcases exec_cursor he with ⟨⟨e1, e2, _, _⟩, obuf⟩ | ⟨⟨p, ⟨at_p, _⟩, hp⟩, out', wf', bound', _⟩
  · rw [e1, e2]
    rcases obuf with e | e <;> rw [e]
    · exact ⟨wf', bound', out, cursor⟩
    · exact ⟨.nil, nofun, out, cursor⟩
  · exact ⟨wf', bound', out', by omega⟩

/-- A store of a buffer word lies inside the buffer (20_memory.md R61). -/
theorem buffersOk_writeLoc {s : State} (h : BuffersOk s) (a : BitVec 28) (v : Word) :
    BuffersOk (s.writeLoc v (locate s.config (portOffset a))) := by
  cases hl : locate s.config (portOffset a)
  case pbuf j =>
    obtain ⟨wf, bound, rest⟩ := h
    refine ⟨Memory.writeWord_wf wf j v, fun c hc => ?_, rest⟩
    rcases Memory.mem_writeWord hc with ⟨_, hlt⟩ | hc
    · exact Nat.lt_of_lt_of_le hlt (locate_pbuf_bound hl (portOffset_mod a))
    · exact bound c hc
  all_goals exact h

/-- Settles O58: only the walk of `decode` and `blkdec` moves in `OBUF`, only a store writes `PBUF`. -/
theorem stepKeepsBuffers : Obligations.StepKeepsBuffers := by
  intro s t h hs
  have reset : ∀ c : Config, BuffersOk { State.reset with config := c } := fun c =>
    ⟨.nil, nofun, .nil, nofun, Nat.zero_le _, Nat.zero_le _⟩
  refine step_induct BuffersOk ?turns ?read ?hard ?soft ?cmd ?store ?raise ?command h hs
  case turns => exact fun _ _ h => h
  case read => exact fun _ _ _ h => h
  case hard => exact fun s _ => reset s.config
  case soft =>
    rintro s ⟨wf, bound, _⟩
    exact ⟨wf, bound, .nil, nofun, Nat.zero_le _, Nat.zero_le _⟩
  case cmd =>
    intro s v h
    rcases writeCmd_cases s v with ⟨_, e⟩ | ⟨_, _, e⟩ | ⟨_, _, e⟩ <;> rw [e] <;> exact h
  case store => exact fun _ a v _ h => buffersOk_writeLoc h a v
  case raise => exact fun _ f _ h => buffersOk_raise h f
  case command => exact fun _ _ _ _ he h => buffersOk_exec he h

/-! ### Every step goes on -/

/-- The parameters are the same, no draw is taken back, and `OVR` is the same. -/
def GoesOn (s t : State) : Prop := t.config = s.config ∧ s.draws ≤ t.draws ∧ t.status.ovr = s.status.ovr

theorem exec_goesOn {i : Instr} {s t : State} (h : exec i s = .next t) : GoesOn s t := by
  obtain ⟨config, _, _, _, _, _, _, _, ovr⟩ := exec_inputs h
  refine ⟨config, ?_, ovr⟩
  rcases exec_cursor h with ⟨⟨_, _, _, draws⟩, _⟩ | ⟨_, _, _, _, draws⟩
  · exact Nat.le_of_eq draws.symm
  · exact draws

theorem engineTurn_goesOn (s : State) : ∃ t, engineTurn s = .next t ∧ GoesOn s t := by
  have refl : GoesOn s s := ⟨rfl, Nat.le_refl _, rfl⟩
  rcases engineTurn_cases s with ⟨_, e⟩ | ⟨_, i, _, e⟩ | ⟨_, w, _, e⟩
  · exact ⟨s, e, refl⟩
  · obtain ⟨t, h⟩ := exec_next i s
    exact ⟨t, e.trans h, exec_goesOn h⟩
  · exact ⟨_, e, refl⟩

/-- A host write keeps the parameters and draws nothing, and only the soft reset clears `OVR`. -/
theorem hostWrite_goesOn (s : State) (a : BitVec 28) (v : Word) :
    (s.hostWrite a v).config = s.config ∧ (s.hostWrite a v).draws = s.draws ∧
    (s.status.ovr = true → (s.hostWrite a v).status.ovr = true ∨ (a = portAddr 0x004 ∧ v.getLsbD 0 = true)) := by
  rcases hostWrite_cases s a v with ⟨ha, hv, e⟩ | ⟨_, e⟩ | e | ⟨_, _, _, e⟩ <;> rw [e]
  · exact ⟨rfl, rfl, fun _ => .inr ⟨ha, hv⟩⟩
  · rcases writeCmd_cases s v with ⟨_, e⟩ | ⟨_, _, e⟩ | ⟨_, _, e⟩ <;> rw [e]
    · exact ⟨rfl, rfl, fun _ => .inl rfl⟩
    · exact ⟨rfl, rfl, .inl⟩
    · exact ⟨rfl, rfl, .inl⟩
  · exact ⟨rfl, rfl, .inl⟩
  · rw [writeLoc_frame]
    exact ⟨rfl, rfl, .inl⟩

/-- Settles O59: by whose turn it is. -/
theorem everyStepGoesOn : Obligations.EveryStepGoesOn := by
  intro s
  rcases step_cases s with ⟨_, e⟩ | ⟨r, _, e⟩ | ⟨a, r, _, e⟩ | ⟨a, v, r, turns, e⟩ | ⟨r, turns, e⟩
  · obtain ⟨t, h, config, draws, ovr⟩ := engineTurn_goesOn s
    exact ⟨t, e.trans h, config, draws, fun set => .inl (ovr.trans set)⟩
  · obtain ⟨t, h, config, draws, ovr⟩ := engineTurn_goesOn { s with turns := r }
    exact ⟨t, e.trans h, config, draws, fun set => .inl (ovr.trans set)⟩
  · exact ⟨_, e, rfl, hostRead_draws { s with turns := r } a, .inl⟩
  · obtain ⟨config, draws, ovr⟩ := hostWrite_goesOn { s with turns := r } a v
    refine ⟨_, e, config, draws.ge, fun set => (ovr set).imp_right fun ⟨ha, hv⟩ => ?_⟩
    exact .inr ⟨v, r, ha ▸ turns, hv⟩
  · exact ⟨_, e, rfl, Nat.le_refl _, fun _ => .inr (.inl ⟨r, turns⟩)⟩

end Sys2Proof.Machine
end

section
/-! `decode` and `blkdec` on the packed stream of a block (42_decode.md R152 to R156), and `blkdec` as its three parts
(R160). -/

namespace Sys2Proof.Machine

/-! ### The packed block -/

/-- What a walk that has emitted a whole block leaves in the registers and in `OBUF`. -/
theorem withWalk_block {s : State} {code : Byte → List Bool} {block : List Byte} (hp : HoldsPacked s code block)
    {k : Walk} (emitted : k.Emitted block) (at_end : k.At (block.flatMap code).length) :
    (s.withWalk k).outCount = s.expectedLen ∧ (∀ i, Memory.read (s.withWalk k).obuf i = block[i]?) ∧
    (s.withWalk k).cursor.toNat = (block.flatMap code).length / 8 ∧
    (s.withWalk k).bitmask = (0x80 : Byte) >>> ((block.flatMap code).length % 8) := by
  obtain ⟨_, count, obuf⟩ := emitted
  exact ⟨BitVec.eq_of_toNat_eq (count.trans hp.expected.symm), obuf, at_end.1, at_end.2⟩

/-- Settles O27: `DecodeBlock` emits the block and ends behind its last bit. -/
theorem decodeReturnsThePackedBlock : Obligations.DecodeReturnsThePackedBlock := by
  intro s code block held hT coded packed packedFits expected expectedFits bytes
  have hp : HoldsPacked s code block := ⟨packed, packedFits, expected, expectedFits, bytes⟩
  obtain ⟨k, walk, emitted, at_end, draws⟩ := hp.decodeBlock hT coded
  obtain ⟨count, obuf, cursor, bitmask⟩ := withWalk_block hp emitted at_end
  refine ⟨_, exec_decode_ok held hp.latchLengths walk, by simp [Completed, SameErrors], count, obuf, cursor, bitmask,
    draws, ?_⟩
  simp [SameInputs, SameRanking, SameCodes, SameTrie]

/-- Settles O32: the table is built, and `DecodeBlock` emits the block through the built trie. -/
theorem blkdecReturnsThePackedBlock : Obligations.BlkdecReturnsThePackedBlock := by
  intro s block held hpf hfit coded packed packedFits expected expectedFits bytes
  obtain ⟨ns, hb, hT⟩ := buildTrie_of_prefixFree (nodeMax_pos s.config) hpf hfit
  have hp : HoldsPacked (s.storeNodes ns) s.code block := ⟨packed, packedFits, expected, expectedFits, bytes⟩
  obtain ⟨k, walk, emitted, at_end, draws⟩ := hp.decodeBlock hT coded
  obtain ⟨count, obuf, cursor, bitmask⟩ := withWalk_block hp emitted at_end
  refine ⟨_, exec_blkdec_ok held hp.latchLengths hb walk, by simp [Completed, SameErrors], count, obuf, cursor, bitmask,
    rfl, rfl, held, draws, ?_⟩
  simp [SameInputs, SameRanking, SameCodes]

/-! ### Degenerate decodes (R156) -/

/-- At a bare root every bit leads to an absent child. -/
theorem decodeBlock_rootOnly {s : State} (root : s.nodes = [Node.empty]) {el : Word} (h : 1 ≤ el.toNat) (pl : Word) :
    (pl = 0 ∧ s.decodeBlock pl el = (Walk.start s.draws, some (exhausted 0))) ∨
    (pl ≠ 0 ∧ ∃ d b, s.decodeBlock pl el = ({ Walk.start s.draws with draws := d }, some (missingChild 0 b))) := by
  have count : (Walk.start s.draws).outCount.toNat < el.toNat := h
  by_cases hpl : pl = 0
  · exact .inl ⟨hpl, decodeLoop_exhausted count (by simp [hpl]) _⟩
  · have pos : 0 < pl.toNat := Nat.pos_of_ne_zero fun e => hpl (BitVec.eq_of_toNat_eq e)
    have absent (b : Bool) : (nodeAt s.nodes 0).child b = none := by
      rw [root]
      exact Node.empty_child b
    exact .inr ⟨hpl, _, _, decodeLoop_noChild count pos rfl (absent _) _⟩

/-- Settles O31: the count is reached before the first bit, or the root has no child to go to. -/
theorem degenerateDecodes : Obligations.DegenerateDecodes := by
  intro s held hpl
  refine ⟨fun hel => ?_, fun root h1 hel => ?_⟩
  · have walk : s.decodeBlock s.packedLen s.expectedLen = (Walk.start s.draws, none) :=
      decodeLoop_count (by simp [hel]) _
    exact exec_decode_ok held (latchLengths_ok hpl (by simp [hel])) walk
  · have latched := latchLengths_ok hpl hel
    rcases decodeBlock_rootOnly root h1 s.packedLen with ⟨h0, walk⟩ | ⟨h0, d, b, walk⟩
    · refine ⟨_, exec_decode_misfit held latched walk, rfl, rfl, rfl, fun _ => ?_, fun h => absurd h0 h⟩
      exact raise_faulted _ .exhaustedRoot rfl (by decide) rfl
    · refine ⟨_, exec_decode_misfit held latched walk, rfl, rfl, rfl, fun h => absurd h h0, fun _ => ?_⟩
      cases b
      · exact .inl (raise_faulted _ .noChild rfl (by decide) (by decide))
      · exact .inr (raise_faulted _ .noChild rfl (by decide) (by decide))

/-! ### `blkdec` as its three parts (R160) -/

/-- The state a completed `tbuild` leaves. -/
def State.built (s : State) (ns : List Node) : State := ((s.storeNodes ns).setTrieValid true).complete

/-- Fault entry overwrites the flags in which a built state differs. -/
theorem built_misfit (s : State) (ns : List Node) (k : Walk) (f : FaultReport) :
    ((s.built ns).withWalk k).raise f = ((s.storeNodes ns).withWalk k).raise f := rfl

/-- The release takes back what `tbuild` set. -/
theorem built_release {s : State} (held : s.status.trieValid = false) (ns : List Node) (k : Walk) :
    (((s.built ns).withWalk k).complete.releaseNodes.setTrieValid false).complete =
      ((s.storeNodes ns).withWalk k).releaseNodes.complete := by
  have flags : ({ s.status with trieValid := false } : Status) = s.status := by rw [← held]
  exact congrArg (fun st : Status => { ((s.storeNodes ns).withWalk k).releaseNodes with status := st.completed }) flags

/-- Only legal lengths let `decode` complete (R151). -/
theorem legal_of_decode_done {s t : State} (h : exec .decode s = .next t) (done : t.status.done = true) :
    s.packedLen.toNat ≤ s.config.pbufSize ∧ s.expectedLen.toNat ≤ s.config.obufSize := by
  cases held : s.status.trieValid with
  | false =>
    cases (exec_decode_noTrie held).symm.trans h
    cases done
  | true =>
    rcases latchLengths_cases s with ⟨_, e⟩ | ⟨_, _, e⟩ | ⟨h1, h2, _⟩
    · cases (exec_decode_lengths held e).symm.trans h
      cases done
    · cases (exec_decode_lengths held e).symm.trans h
      cases done
    · exact ⟨h1, h2⟩

/-- With legal lengths: the build faults; or it completes and the decode faults; or both complete, and the release with
them. -/
theorem blkdec_parts {s : State} (held : s.status.trieValid = false) (hpl : s.packedLen.toNat ≤ s.config.pbufSize)
    (hel : s.expectedLen.toNat ≤ s.config.obufSize) :
    (∃ f, exec .tbuild s = .next (s.raise f) ∧
      exec .blkdec s = .next { s.raise f with outCount := 0, cursor := 0, bitmask := 0x80 }) ∨
    (∃ ns, exec .tbuild s = .next (s.built ns) ∧
      ((∃ k f, exec .decode (s.built ns) = .next (((s.built ns).withWalk k).raise f) ∧
          exec .blkdec s = .next (((s.built ns).withWalk k).raise f)) ∨
        ∃ k c, exec .decode (s.built ns) = .next ((s.built ns).withWalk k).complete ∧
          exec .tfree ((s.built ns).withWalk k).complete = .next c ∧ exec .blkdec s = .next c)) := by
  have latched := latchLengths_ok hpl hel
  cases hb : buildTrie s.config.nodeMax s.code with
  | error f => exact .inl ⟨f, exec_tbuild_fault held hb, exec_blkdec_build held latched hb⟩
  | ok ns =>
    refine .inr ⟨ns, exec_tbuild_ok held hb, ?_⟩
    have latched' : (s.built ns).latchLengths = .ok (s.packedLen, s.expectedLen) := latched
    rcases walk : (s.storeNodes ns).decodeBlock s.packedLen s.expectedLen with ⟨k, _ | f⟩
    · have walk' : (s.built ns).decodeBlock s.packedLen s.expectedLen = (k, none) := walk
      refine .inr ⟨k, _, exec_decode_ok rfl latched' walk', exec_tfree _, ?_⟩
      rw [built_release held, exec_blkdec_ok held latched hb walk]
    · have walk' : (s.built ns).decodeBlock s.packedLen s.expectedLen = (k, some f) := walk
      refine .inl ⟨k, f, exec_decode_misfit rfl latched' walk', ?_⟩
      rw [built_misfit, exec_blkdec_misfit held latched hb walk]

/-- With legal lengths `blkdec` ends where the first of its parts to fault does, or where all of them complete. -/
theorem blkdec_follows_parts {s : State} (held : s.status.trieValid = false)
    (hpl : s.packedLen.toNat ≤ s.config.pbufSize) (hel : s.expectedLen.toNat ≤ s.config.obufSize) :
    ∃ a, exec .tbuild s = .next a ∧
      (a.status.done = false → a.status.fault = true ∧
        exec .blkdec s = .next { a with outCount := 0, cursor := 0, bitmask := 0x80 }) ∧
      (a.status.done = true → ∃ b, exec .decode a = .next b ∧
        (b.status.done = false → b.status.fault = true ∧ exec .blkdec s = .next b) ∧
        (b.status.done = true → ∃ c, exec .tfree b = .next c ∧ exec .blkdec s = .next c)) := by
  rcases blkdec_parts held hpl hel with
    ⟨f, tbuild, blkdec⟩ | ⟨ns, tbuild, ⟨k, f, decode, blkdec⟩ | ⟨k, c, decode, tfree, blkdec⟩⟩
  · exact ⟨_, tbuild, fun _ => ⟨rfl, blkdec⟩, nofun⟩
  · exact ⟨_, tbuild, nofun, fun _ => ⟨_, decode, fun _ => ⟨rfl, blkdec⟩, nofun⟩⟩
  · exact ⟨_, tbuild, nofun, fun _ => ⟨_, decode, nofun, fun _ => ⟨c, tfree, blkdec⟩⟩⟩

/-- Settles O33: a decode that completes has legal lengths, so both halves are the case analysis with legal lengths. -/
theorem blkdecIsBuildDecodeRelease : Obligations.BlkdecIsBuildDecodeRelease := by
  refine ⟨fun s a b c held tbuild built decode decoded tfree => ?_, fun s => blkdec_follows_parts⟩
  obtain ⟨config, _, _, _, packedLen, expectedLen, _⟩ := exec_inputs tbuild
  obtain ⟨hpl, hel⟩ := legal_of_decode_done decode decoded
  rw [config, packedLen] at hpl
  rw [config, expectedLen] at hel
  obtain ⟨a', tbuild', _, completes⟩ := blkdec_follows_parts held hpl hel
  cases tbuild.symm.trans tbuild'
  obtain ⟨b', decode', _, completes⟩ := completes built
  cases decode.symm.trans decode'
  obtain ⟨c', tfree', blkdec⟩ := completes decoded
  cases tfree.symm.trans tfree'
  exact blkdec

end Sys2Proof.Machine
end

section
/-! How far a walk of the packed stream has come (42_decode.md R152 to R155): the symbols it has emitted with their
paths, the bits followed since, and where it ends. -/

namespace Sys2Proof.Machine

/-! ### The bits followed -/

theorem followedBits_step (emitted : List (Byte × List Bool)) (rest : List Bool) (b : Bool) :
    followedBits emitted (rest ++ [b]) = followedBits emitted rest ++ [b] := by
  simp [followedBits]

/-- Emitting a symbol turns the bits since the last one into its path. -/
theorem followedBits_emit (emitted : List (Byte × List Bool)) (rest : List Bool) (a : Byte) (b : Bool) :
    followedBits (emitted ++ [(a, rest ++ [b])]) [] = followedBits emitted rest ++ [b] := by
  simp [followedBits]

/-- Each of these bits that lies in a written byte of `PBUF` is the bit of that byte (20_memory.md R63). -/
def AgreesWith (pbuf : Memory) (bits : List Bool) : Prop :=
  ∀ k x, k < bits.length → Memory.read pbuf (k / 8) = some x → bits[k]? = some (x.getLsbD (7 - k % 8))

/-- A packed bit read from a written byte is the bit the cursor names. -/
theorem packedBit_agrees {pbuf : Memory} {k : Walk} {p d : Nat} {b : Bool} (hk : k.At p)
    (h : packedBit pbuf k.cursor.toNat k.bitmask k.draws = (b, d)) {x : Byte} (hx : Memory.read pbuf (p / 8) = some x) :
    b = x.getLsbD (7 - p % 8) :=
  (congrArg Prod.fst (h.symm.trans (packedBit_of_streamBit hk ⟨x, hx, rfl⟩)))

theorem AgreesWith.snoc {pbuf : Memory} {bits : List Bool} (h : AgreesWith pbuf bits) {k : Walk} {d : Nat} {b : Bool}
    (hk : k.At bits.length) (hb : packedBit pbuf k.cursor.toNat k.bitmask k.draws = (b, d)) :
    AgreesWith pbuf (bits ++ [b]) := by
  intro j x hj hx
  rw [List.length_append, List.length_singleton] at hj
  rcases Nat.lt_or_eq_of_le (Nat.le_of_lt_succ hj) with hlt | rfl
  · rw [List.getElem?_append_left hlt]
    exact h j x hlt hx
  · rw [List.getElem?_concat_length, packedBit_agrees hk hb hx]

/-! ### The invariant of the loop -/

/-- A walk has emitted these symbols along these paths, and followed these bits since. -/
structure Follows (ns : List Node) (pbuf : Memory) (pl el : Word) (k : Walk) (emitted : List (Byte × List Bool))
    (rest : List Bool) : Prop where
  path : FollowedTo ns emitted rest k.node
  node : k.node < ns.length
  count : k.outCount.toNat = emitted.length
  pos : k.At (followedBits emitted rest).length
  within : (followedBits emitted rest).length ≤ 8 * pl.toNat
  agrees : AgreesWith pbuf (followedBits emitted rest)
  obuf : ∀ j, Memory.read k.obuf j = (emitted.map Prod.fst)[j]?
  /-- bits are followed only where a symbol is still expected -/
  wanted : rest ≠ [] → k.outCount.toNat < el.toNat

section
variable {ns : List Node} {pbuf : Memory} {pl el : Word} {k : Walk} {emitted : List (Byte × List Bool)}
  {rest : List Bool} {b : Bool} {c d : Nat}

theorem Follows.start (hn : 0 < ns.length) (d : Nat) : Follows ns pbuf pl el (Walk.start d) [] [] where
  path := ⟨nofun, rfl⟩
  node := hn
  count := rfl
  pos := Walk.at_start d
  within := Nat.zero_le _
  agrees := nofun
  obuf := fun _ => rfl
  wanted := fun h => absurd rfl h

/-- The path to the child along the bit read. -/
theorem Follows.path_child (h : Follows ns pbuf pl el k emitted rest) (hc : (nodeAt ns k.node).child b = some c) :
    followPath ns 0 (rest ++ [b]) = some c := followPath_snoc h.path.2 hc

theorem Follows.within_next (h : Follows ns pbuf pl el k emitted rest) (hpos : k.cursor.toNat < pl.toNat) :
    (followedBits emitted rest ++ [b]).length ≤ 8 * pl.toNat := by
  have := h.pos.1
  rw [List.length_append, List.length_singleton]
  omega

theorem Follows.pos_next (h : Follows ns pbuf pl el k emitted rest) (hpl : pl.toNat < 2 ^ 28 + 1)
    (hpos : k.cursor.toNat < pl.toNat) :
    (({ k with draws := d } : Walk).enter ns c).nextBit.At (followedBits emitted rest ++ [b]).length := by
  have := h.within_next (b := b) hpos
  rw [List.length_append, List.length_singleton] at this ⊢
  exact Walk.at_iteration h.pos (by omega)

/-- One iteration to an inner node: one bit more since the last symbol. -/
theorem Follows.step_inner (h : Follows ns pbuf pl el k emitted rest) (shape : TrieShape ns)
    (hpl : pl.toNat < 2 ^ 28 + 1) (hcount : k.outCount.toNat < el.toNat) (hpos : k.cursor.toNat < pl.toNat)
    (hb : packedBit pbuf k.cursor.toNat k.bitmask k.draws = (b, d)) (hc : (nodeAt ns k.node).child b = some c)
    (inner : (nodeAt ns c).isLeaf = false) :
    Follows ns pbuf pl el (({ k with draws := d } : Walk).enter ns c).nextBit emitted (rest ++ [b]) := by
  have pos := h.pos_next (b := b) (c := c) (d := d) hpl hpos
  have within := h.within_next (b := b) hpos
  have agrees := h.agrees.snoc h.pos hb
  rw [← followedBits_step] at pos within agrees
  have entered := Walk.enter_inner inner ({ k with draws := d } : Walk)
  constructor
  case path => exact ⟨h.path.1, by simpa [entered] using h.path_child hc⟩
  case node => simpa [entered] using (shape.1 _ _ h.node (isChild_iff.2 ⟨b, hc⟩)).2
  case count => simpa [entered] using h.count
  case pos => exact pos
  case within => exact within
  case agrees => exact agrees
  case obuf => simpa [entered] using h.obuf
  case wanted => exact fun _ => by simpa [entered] using hcount

/-- The next byte of `OBUF`. -/
theorem read_write_snoc {m : Memory} {out : List Byte} (h : ∀ j, Memory.read m j = out[j]?) (a : Byte) (j : Nat) :
    Memory.read (Memory.write m out.length a) j = (out ++ [a])[j]? := by
  rw [Memory.read_write, h, List.getElem?_append]
  rcases Nat.lt_trichotomy j out.length with hj | rfl | hj
  · rw [if_neg (Nat.ne_of_lt hj), if_pos hj]
  · simp
  · rw [if_neg (Nat.ne_of_gt hj), if_neg (Nat.lt_asymm hj), List.getElem?_eq_none (Nat.le_of_lt hj),
      List.getElem?_eq_none (by simp; omega)]

/-- One iteration to a leaf: its symbol is emitted, with the bits since the last one as its path. -/
theorem Follows.step_leaf (h : Follows ns pbuf pl el k emitted rest) (hpl : pl.toNat < 2 ^ 28 + 1)
    (hcount : k.outCount.toNat < el.toNat) (hpos : k.cursor.toNat < pl.toNat)
    (hb : packedBit pbuf k.cursor.toNat k.bitmask k.draws = (b, d)) (hc : (nodeAt ns k.node).child b = some c)
    {a : Byte} (leaf : nodeAt ns c = { left := none, right := none, sym := some a }) :
    Follows ns pbuf pl el (({ k with draws := d } : Walk).enter ns c).nextBit (emitted ++ [(a, rest ++ [b])]) [] := by
  have pos := h.pos_next (b := b) (c := c) (d := d) hpl hpos
  have within := h.within_next (b := b) hpos
  have agrees := h.agrees.snoc h.pos hb
  rw [← followedBits_emit _ _ a] at pos within agrees
  have isLeaf : (nodeAt ns c).isLeaf = true := by rw [leaf]; rfl
  have entered := Walk.enter_leaf isLeaf ({ k with draws := d } : Walk)
  rw [leaf] at entered
  constructor
  case path =>
    refine ⟨fun x hx => ?_, by simp [entered, followPath]⟩
    rcases List.mem_append.1 hx with hx | hx
    · exact h.path.1 x hx
    · rw [List.mem_singleton] at hx
      subst hx
      exact ⟨by simp, c, h.path_child hc, leaf⟩
  case node => simpa [entered] using Nat.zero_lt_of_lt h.node
  case count =>
    have := el.isLt
    have bound : k.outCount.toNat + 1 < 2 ^ 32 := by omega
    rw [Walk.nextBit_outCount, entered, List.length_append, List.length_singleton, ← h.count]
    simpa using Nat.mod_eq_of_lt bound
  case pos => exact pos
  case within => exact within
  case agrees => exact agrees
  case obuf =>
    intro j
    have := read_write_snoc h.obuf a j
    rw [List.length_map, ← h.count] at this
    simpa [entered] using this
  case wanted => exact fun hne => absurd rfl hne

/-- One iteration: a child is an inner node, or in a trie a leaf that holds a symbol. -/
theorem Follows.step (h : Follows ns pbuf pl el k emitted rest) (shape : TrieShape ns)
    (hpl : pl.toNat < 2 ^ 28 + 1) (hcount : k.outCount.toNat < el.toNat) (hpos : k.cursor.toNat < pl.toNat)
    (hb : packedBit pbuf k.cursor.toNat k.bitmask k.draws = (b, d)) (hc : (nodeAt ns k.node).child b = some c) :
    ∃ emitted' rest', Follows ns pbuf pl el (({ k with draws := d } : Walk).enter ns c).nextBit emitted' rest' := by
  cases leaf : (nodeAt ns c).isLeaf with
  | false => exact ⟨_, _, h.step_inner shape hpl hcount hpos hb hc leaf⟩
  | true =>
    obtain ⟨a, ha⟩ := shape.leaf h.node (isChild_iff.2 ⟨b, hc⟩) leaf
    exact ⟨_, _, h.step_leaf hpl hcount hpos hb hc ha⟩

/-- Where the packed bytes are exhausted the next bit is the first behind them. -/
theorem Follows.exhausted (h : Follows ns pbuf pl el k emitted rest) (hpos : pl.toNat ≤ k.cursor.toNat) :
    k.cursor.toNat = pl.toNat ∧ k.bitmask = 0x80 := by
  obtain ⟨cursor, bitmask⟩ := h.pos
  have within := h.within
  have last : (followedBits emitted rest).length % 8 = 0 := by omega
  rw [last] at bitmask
  exact ⟨by omega, bitmask⟩

end

/-! ### How `decode` ends -/

/-- Draws do not matter to how far a walk has come. -/
theorem Follows.with_draws {ns : List Node} {pbuf : Memory} {pl el : Word} {k : Walk}
    {emitted : List (Byte × List Bool)} {rest : List Bool} (h : Follows ns pbuf pl el k emitted rest) (d : Nat) :
    Follows ns pbuf pl el { k with draws := d } emitted rest :=
  ⟨h.path, h.node, h.count, h.pos, h.within, h.agrees, h.obuf, h.wanted⟩

/-- `DecodeBlock` ends at the count; or before it, at the end of the packed bytes, or at the absent child of the bit
`CURSOR` and `BITMASK` name. -/
def EndsAt (ns : List Node) (pbuf : Memory) (pl el : Word) (k : Walk) (rest : List Bool)
    (o : Option FaultReport) : Prop :=
  (o = none ∧ k.outCount = el ∧ rest = []) ∨
  (k.outCount.toNat < el.toNat ∧
    ((o = some (exhausted k.node) ∧ k.cursor.toNat = pl.toNat ∧ k.bitmask = 0x80) ∨
     (∃ b : Bool, o = some (missingChild k.node b) ∧ (nodeAt ns k.node).child b = none ∧ k.cursor.toNat < pl.toNat ∧
        ∀ x, Memory.read pbuf k.cursor.toNat = some x → b = (x &&& k.bitmask != 0))))

theorem decodeBlock_ends {s : State} (shape : TrieShape s.nodes) (root : 0 < s.nodes.length)
    (hpl : s.packedLen.toNat ≤ s.config.pbufSize) (hel : s.expectedLen.toNat ≤ s.config.obufSize) :
    ∃ k o emitted rest, s.decodeBlock s.packedLen s.expectedLen = (k, o) ∧
      Follows s.nodes s.pbuf s.packedLen s.expectedLen k emitted rest ∧
      EndsAt s.nodes s.pbuf s.packedLen s.expectedLen k rest o := by
  have small : s.packedLen.toNat < 2 ^ 28 + 1 := Nat.lt_succ_of_le (hpl.trans (pbufSize_le s.config))
  rcases decodeLoop_induct (nodes := s.nodes) (pbuf := s.pbuf) (pl := s.packedLen) (el := s.expectedLen)
      (fun k => ∃ emitted rest, Follows s.nodes s.pbuf s.packedLen s.expectedLen k emitted rest)
      (fun k b d c ⟨_, _, h⟩ hcount hpos hb hc => h.step shape small hcount hpos hb hc)
      (8 * s.packedLen.toNat + 1) (Walk.start s.draws) ⟨[], [], Follows.start root s.draws⟩ with
    ⟨k, walk, emitted, rest, h⟩ | ⟨k, walk, ⟨emitted, rest, h⟩, hcount, hpos⟩ |
    ⟨k, b, d, walk, ⟨emitted, rest, h⟩, hcount, hpos, hb, hc⟩
  · have ge := decodeLoop_reaches_count small _ 0 _ (Walk.at_start _) (by omega) (Nat.zero_le _) walk
    obtain ⟨_, le, _⟩ := decodeBlock_range hpl hel walk
    refine ⟨k, none, emitted, rest, walk, h, .inl ⟨rfl, BitVec.eq_of_toNat_eq (Nat.le_antisymm le ge), ?_⟩⟩
    by_contra hne
    exact Nat.not_le.2 (h.wanted hne) ge
  · exact ⟨k, _, emitted, rest, walk, h, .inr ⟨hcount, .inl ⟨rfl, h.exhausted hpos⟩⟩⟩
  · refine ⟨_, _, emitted, rest, walk, h.with_draws d, .inr ⟨hcount, .inr ⟨b, rfl, hc, hpos, fun x hx => ?_⟩⟩⟩
    have read := byteOrFree_of_read hx k.draws
    have bit := congrArg Prod.fst hb
    simp only [packedBit, read] at bit
    exact bit.symm

/-- What a walk that has come this far leaves in the registers. -/
theorem Follows.registers {s t : State} {k : Walk} {emitted : List (Byte × List Bool)} {rest : List Bool}
    (h : Follows s.nodes s.pbuf s.packedLen s.expectedLen k emitted rest) (hc : SameCursor (s.withWalk k) t) :
    t.outCount.toNat = emitted.length ∧ NextBitIs t (followedBits emitted rest).length := by
  obtain ⟨count, cursor, bitmask, _⟩ := hc
  refine ⟨count ▸ h.count, ?_⟩
  rw [NextBitIs, cursor, bitmask]
  exact h.pos

/-- Settles O28: how far the walk has come when `DecodeBlock` ends, at completion and at either fault. -/
theorem decodeEndsAtCountOrMisfit : Obligations.DecodeEndsAtCountOrMisfit := by
  intro s held arena trie hpl hel
  have root : 0 < s.nodes.length := by
    obtain ⟨counted, _, any⟩ := arena
    rw [← counted]
    exact any.1 held
  have latched := latchLengths_ok hpl hel
  obtain ⟨k, o, emitted, rest, walk, h, ends⟩ := decodeBlock_ends (trie held) root hpl hel
  have misfit {f : FaultReport} (e : o = some f) : exec .decode s = .next ((s.withWalk k).raise f) :=
    exec_decode_misfit held latched (e ▸ walk)
  have faultRegisters (f : FaultReport) := h.registers (t := (s.withWalk k).raise f) ⟨rfl, rfl, rfl, rfl⟩
  rcases ends with ⟨rfl, count, rfl⟩ | ⟨before, ⟨e, cursor, bitmask⟩ | ⟨b, e, absent, cursor, bit⟩⟩
  · obtain ⟨outCount, next⟩ := h.registers (t := (s.withWalk k).complete) ⟨rfl, rfl, rfl, rfl⟩
    exact ⟨_, emitted, [], k.node, exec_decode_ok held latched walk, by simp [SameInputs], by simp [SameRanking],
      by simp [SameCodes], rfl, h.path, h.node, outCount, next, h.agrees,
      .inl ⟨by simp [Completed, SameErrors], count, rfl, by simp [SameTrie], h.obuf⟩⟩
  · obtain ⟨outCount, next⟩ := faultRegisters (exhausted k.node)
    refine ⟨_, emitted, rest, k.node, misfit e, by simp [SameInputs], by simp [SameRanking],
      by simp [SameCodes], rfl, h.path, h.node, outCount, next, h.agrees, .inr ⟨before, ?_⟩⟩
    by_cases hn : k.node = 0
    · refine .inl ⟨raise_faulted _ .exhaustedRoot ?_ (by decide) ?_, hn, cursor, bitmask⟩ <;>
        simp [exhausted, hn]
    · refine .inr (.inl ⟨raise_faulted _ .exhaustedMidpath ?_ (by decide) ?_, hn, cursor, bitmask⟩) <;>
        simp [exhausted, hn]
  · obtain ⟨outCount, next⟩ := faultRegisters (missingChild k.node b)
    refine ⟨_, emitted, rest, k.node, misfit e, by simp [SameInputs], by simp [SameRanking],
      by simp [SameCodes], rfl, h.path, h.node, outCount, next, h.agrees, .inr ⟨before, .inr (.inr ⟨b, ?_⟩)⟩⟩
    exact ⟨raise_faulted _ .noChild rfl (by decide) rfl, absent, cursor, bit⟩

end Sys2Proof.Machine
end

section
/-! The host port (20_memory.md): which offsets are mapped, what a read and a write do in each phase, and what a write
leaves alone. -/

namespace Sys2Proof.Machine

/-! ### Which offsets are mapped (R61, 10_state.md R39) -/

/-- Nothing lies in the reserved part of the register page, between the regions, or behind the last of them. -/
theorem locate_gap (c : Config) {off : Nat}
    (h : (0x03C ≤ off ∧ off < 0x400) ∨ (0x1400 ≤ off ∧ off < 0x2000) ∨ (0x4000 ≤ off ∧ off < 0x80000) ∨
      (0x80000 + 8 * c.nodeMax ≤ off ∧ off < 0x10000000) ∨
      (0x10000000 + c.pbufSize ≤ off ∧ off < 0x20000000) ∨ 0x20000000 + c.obufSize ≤ off) :
    locate c off = .unmapped := by
  have := nodeMax_le c
  have := pbufSize_le c
  rcases h with h | h | h | h | h | h
  · simp (disch := omega) only [locate_register, registerAt, if_neg]
  all_goals simp (disch := omega) only [locate, if_neg, if_pos]

/-- A register from `ERR` on, a table entry, a node or a buffer word: none of the locations a busy engine shows. -/
theorem locate_hidden (c : Config) {off : Nat} (h4 : off % 4 = 0)
    (h : (0x010 ≤ off ∧ off < 0x03C) ∨ (0x400 ≤ off ∧ off < 0x1400) ∨ (0x2000 ≤ off ∧ off < 0x4000) ∨
      (0x80000 ≤ off ∧ off < 0x80000 + 8 * c.nodeMax) ∨
      (0x10000000 ≤ off ∧ off < 0x10000000 + c.pbufSize) ∨ (0x20000000 ≤ off ∧ off < 0x20000000 + c.obufSize)) :
    locate c off ∉ [Loc.id, Loc.ctrl, Loc.cmd, Loc.status, Loc.unmapped] := by
  rcases h with ⟨h1, h2⟩ | ⟨h1, h2⟩ | ⟨h1, h2⟩ | ⟨h1, h2⟩ | ⟨h1, h2⟩ | ⟨h1, h2⟩
  · obtain ⟨k, rfl⟩ : ∃ k, off = 4 * k := ⟨off / 4, by omega⟩
    rw [locate_register c (by omega)]
    have : 4 ≤ k := by omega
    have : k < 15 := by omega
    interval_cases k <;> decide
  · rcases Nat.lt_or_ge off 0x800 with h | h
    · simp [locate_freq c h1 h]
    rcases Nat.lt_or_ge off 0xC00 with h' | h'
    · simp [locate_symOf c h h']
    rcases Nat.lt_or_ge off 0x1000 with h | h
    · simp [locate_rankOf c h' h]
    · simp [locate_clen c h h2]
  · simp [locate_cbits c h1 h2]
  · simp [locate_node c h1 h2]
  · simp [locate_pbuf c h1 h2]
  · simp [locate_obuf c h1 h2]

/-! ### Reads (R65, R66, R68) -/

/-- Settles O40: the read is made at the state that is left, which differs in nothing a read looks at. -/
theorem readsHaveNoSideEffect : Obligations.ReadsHaveNoSideEffect :=
  fun s a _ h => ⟨step_of_hostRead h, hostRead_draws s a⟩

theorem hostRead_cmd (s : State) : s.hostRead (portAddr 0x008) = (s.cmd, s.draws) := by
  have loc : locate s.config (portOffset (portAddr 0x008)) = .cmd :=
    (locate_eq_cmd_iff _ _).2 (portOffset_portAddr (by decide) (by decide))
  simp [State.hostRead, loc, State.readLocBusy, State.readLoc]

theorem hostRead_status (s : State) : s.hostRead (portAddr 0x00C) = (s.status.toWord, s.draws) := by
  have loc : locate s.config (portOffset (portAddr 0x00C)) = .status := by
    rw [portOffset_portAddr (by decide) (by decide), locate_register _ (by decide)]
    rfl
  simp [State.hostRead, loc, State.readLocBusy, State.readLoc]

/-! ### The bits of `STATUS` (10_state.md R27) -/

theorem getLsbD_flagBit (b : Bool) (i k : Nat) (hk : k < 32) : (flagBit b i).getLsbD k = (b && decide (k = i)) := by
  cases b
  · simp [flagBit]
  · have one : (1 : Word).getLsbD (k - i) = decide (k - i = 0) := by
      rw [BitVec.ofNat_eq_ofNat, BitVec.getLsbD_one]
      simp
    rw [flagBit, if_pos rfl, BitVec.getLsbD_shiftLeft, one]
    simp only [hk, decide_true, Bool.true_and]
    rw [← decide_not, ← Bool.decide_and]
    exact decide_eq_decide.2 (by omega)

/-- Bit by bit: the six flags, and 0 above them. -/
theorem getLsbD_statusWord (st : Status) {k : Nat} (hk : k < 32) :
    st.toWord.getLsbD k = [st.busy, st.done, st.fault, st.rankValid, st.trieValid, st.ovr].getD k false := by
  simp only [Status.toWord, BitVec.getLsbD_or, getLsbD_flagBit _ _ _ hk]
  by_cases h : k < 6
  · interval_cases k <;> simp
  · have out : [st.busy, st.done, st.fault, st.rankValid, st.trieValid, st.ovr].getD k false = false := by
      rw [List.getD_eq_getElem?_getD, List.getElem?_eq_none (by simpa using h)]
      rfl
    rw [out]
    simp (disch := omega) only [decide_eq_false, Bool.and_false, Bool.or_false]

/-- Settles O41: the four locations read as they are in every phase; every other mapped one is hidden. -/
theorem busyPortAccess : Obligations.BusyPortAccess := by
  intro s a v hb
  refine ⟨fun h4 h8 => hostWrite_busy hb h4 h8 v, hostRead_id s, hostRead_ctrl s, hostRead_cmd s, hostRead_status s,
    (getLsbD_statusWord s.status (by decide)).trans hb, fun h => ?_⟩
  rw [hostRead_busy hb]
  exact readLocBusy_hidden s (locate_hidden s.config (portOffset_mod a) h)

/-- Settles O42: nothing lies there, in any phase. -/
theorem unmappedOffsetsAreSilent : Obligations.UnmappedOffsetsAreSilent := by
  intro s a v h
  have loc : locate s.config (portOffset a) = .unmapped := locate_gap s.config h
  cases hb : s.status.busy with
  | false =>
    rw [hostRead_idle hb, loc]
    exact ⟨rfl, by simp [State.hostWrite, loc, hb, State.writeLoc]⟩
  | true =>
    rw [hostRead_busy hb, loc]
    exact ⟨rfl, by simp [State.hostWrite, loc, hb]⟩

/-! ### Writes (R65, R67, R70 (a)) -/

/-- Settles O43: a store to a location has the frame of `writeLoc`, and only `FREQ` offsets hold entries of `FREQ`. -/
theorem writesReachOnlyWritableState : Obligations.WritesReachOnlyWritableState := by
  intro s a v hb h4 h8
  rw [hostWrite_loc hb h4 h8]
  exact ⟨writeLoc_frame s v _, fun h => writeLoc_status s v (locate_ne_freq s.config (portOffset_mod a) h)⟩

/-- A read after a write, both at locations. -/
theorem hostRead_hostWrite {s : State} (hb : s.status.busy = false) {a : BitVec 28} (h4 : a ≠ portAddr 0x004)
    (h8 : a ≠ portAddr 0x008) (v : Word) (b : BitVec 28) :
    (s.hostWrite a v).hostRead b =
      (s.writeLoc v (locate s.config (portOffset a))).readLoc (locate s.config (portOffset b)) := by
  have frame := writeLoc_frame s v (locate s.config (portOffset a))
  have busy : (s.writeLoc v (locate s.config (portOffset a))).status.busy = false := by
    rw [frame]
    exact hb
  have config : (s.writeLoc v (locate s.config (portOffset a))).config = s.config := by rw [frame]
  rw [hostWrite_loc hb h4 h8, hostRead_idle busy, config]

theorem readLoc_writeLoc_cbits (s : State) (v : Word) (a : Byte) {w : Nat} (hw : w < 8) :
    ((s.writeLoc v (.cbits a w)).readLoc (.cbits a w)).1 = v := by
  simp [State.writeLoc, State.readLoc, cbitsWord_set_same _ hw]

theorem readLoc_writeLoc_pbuf (s : State) (v : Word) (j : Nat) :
    ((s.writeLoc v (.pbuf j)).readLoc (.pbuf j)).1 = v := by
  have bytes := wordOrFree_of_read (Memory.writeWord s.pbuf j v) j s.draws (byteOfWord v)
    fun _ hk => Memory.read_writeWord s.pbuf j v hk
  rw [State.writeLoc, State.readLoc, bytes, wordOfBytes_byteOfWord]

/-- A `CLEN` entry keeps the low byte (10_state.md R43). -/
theorem readLoc_writeLoc_clen (s : State) (v : Word) (a : Byte) :
    ((s.writeLoc v (.clen a)).readLoc (.clen a)).1 = v &&& 0xFF := by
  have low : (v.setWidth 8).setWidth 32 = v &&& 0xFF := by
    apply BitVec.eq_of_getLsbD_eq
    intro k hk
    interval_cases k <;> simp
  simpa [State.writeLoc, State.readLoc] using low

/-- Settles O44: by the region of the offset. -/
theorem readReturnsTheLastWrite : Obligations.ReadReturnsTheLastWrite := by
  intro s a v hb
  have away (h : 0x00C ≤ portOffset a) : a ≠ portAddr 0x004 ∧ a ≠ portAddr 0x008 := by
    constructor <;> rintro rfl <;> rw [portOffset_portAddr (by decide) (by decide)] at h <;> omega
  have read (h : 0x00C ≤ portOffset a) := hostRead_hostWrite hb (away h).1 (away h).2 v a
  have offset : 4 * a.toNat = portOffset a := rfl
  rw [offset]
  refine ⟨?_, fun ⟨h1, h2⟩ => ?_⟩
  · rintro (rfl | rfl | ⟨h1, h2⟩ | ⟨h1, h2⟩ | ⟨h1, h2⟩)
    · rw [read (by decide)]
      rfl
    · rw [read (by decide)]
      rfl
    · rw [read (by omega), locate_freq s.config h1 h2]
      simp [State.writeLoc, State.readLoc]
    · rw [read (by omega), locate_cbits s.config h1 h2]
      exact readLoc_writeLoc_cbits s v _ (by omega)
    · rw [read (by omega), locate_pbuf s.config h1 h2]
      exact readLoc_writeLoc_pbuf s v _
  · rw [read (by omega), locate_clen s.config h1 h2]
    exact readLoc_writeLoc_clen s v _

/-- An entry has eight words. -/
theorem cbitsWord_beyond (x : BitVec 256) {w : Nat} (hw : 8 ≤ w) : cbitsWord x w = 0 := by
  apply BitVec.eq_of_getLsbD_eq
  intro k _
  rw [getLsbD_cbitsWord, BitVec.getLsbD_of_ge x _ (by omega)]
  simp

theorem readLoc_writeLoc_cbits_other (s : State) (v : Word) {a a' : Byte} {w w' : Nat} (h : ¬ (a = a' ∧ w = w')) :
    (s.writeLoc v (.cbits a w)).readLoc (.cbits a' w') = s.readLoc (.cbits a' w') := by
  simp only [State.writeLoc, State.readLoc, Table.at_put]
  split
  · next e =>
    subst e
    have hw : w' ≠ w := fun e => h ⟨rfl, e.symm⟩
    rcases Nat.lt_or_ge w' 8 with h8 | h8
    · rw [cbitsWord_set_other _ hw h8]
    · rw [cbitsWord_beyond _ h8, cbitsWord_beyond _ h8]
  · rfl

theorem readLoc_writeLoc_pbuf_other (s : State) (v : Word) {j j' : Nat} (h : j ≠ j') :
    (s.writeLoc v (.pbuf j)).readLoc (.pbuf j') = s.readLoc (.pbuf j') :=
  wordOrFree_congr _ _ _ _ fun _ hk => Memory.read_writeWord_other s.pbuf j v (by omega)

/-- A store changes what no other location reads as, but for `STATUS`. -/
theorem readLoc_writeLoc_other (s : State) (v : Word) {l l' : Loc} (h : l ≠ l') (hst : l' ≠ .status) :
    (s.writeLoc v l).readLoc l' = s.readLoc l' := by
  cases l
  case packedLen =>
    cases l'
    case packedLen => exact absurd rfl h
    all_goals rfl
  case expectedLen =>
    cases l'
    case expectedLen => exact absurd rfl h
    all_goals rfl
  case freq a =>
    cases l'
    case freq a' =>
      have other := Table.at_put_other s.freq a a' v fun e => h (by rw [e])
      simp only [State.writeLoc, State.readLoc, other]
    case status => exact absurd rfl hst
    all_goals rfl
  case clen a =>
    cases l'
    case clen a' =>
      have other := Table.at_put_other s.clen a a' (v.setWidth 8) fun e => h (by rw [e])
      simp only [State.writeLoc, State.readLoc, other]
    all_goals rfl
  case cbits a w =>
    cases l'
    case cbits a' w' => exact readLoc_writeLoc_cbits_other s v fun e => h (by rw [e.1, e.2])
    all_goals rfl
  case pbuf j =>
    cases l'
    case pbuf j' => exact readLoc_writeLoc_pbuf_other s v fun e => h (by rw [e])
    all_goals rfl
  all_goals rfl

/-- Settles O45: at two addresses lie two locations, or nothing at all. -/
theorem writesLeaveOtherOffsetsAlone : Obligations.WritesLeaveOtherOffsetsAlone := by
  intro s a b v hb h4 h8 hne hst
  rw [hostRead_hostWrite hb h4 h8, hostRead_idle hb]
  have notStatus : locate s.config (portOffset b) ≠ .status := fun e => hst <| portOffset_inj <| by
    have := locate_offset s.config (portOffset_mod b) (by simp [e])
    rw [← this, e, portOffset_portAddr (by decide) (by decide)]
    rfl
  by_cases same : locate s.config (portOffset a) = locate s.config (portOffset b)
  · have nothing : locate s.config (portOffset a) = .unmapped := by
      by_contra mapped
      exact hne (locate_inj same mapped).symm
    rw [← same, nothing]
    rfl
  · exact readLoc_writeLoc_other s v same notStatus

/-- Settles O48: by what a host write can be, and the frames of `part` and `assign`. -/
theorem trieIsASnapshot : Obligations.TrieIsASnapshot := by
  refine ⟨fun s a v h4 => ?_, fun s hr => ⟨_, exec_part_ok hr, by simp [SameTrie]⟩,
    fun s => ⟨_, exec_assign s, by simp [SameTrie]⟩⟩
  rcases hostWrite_cases s a v with ⟨ha, _⟩ | ⟨_, e⟩ | e | ⟨_, _, _, e⟩
  · exact absurd ha h4
  · rw [e]
    rcases writeCmd_cases s v with ⟨_, e⟩ | ⟨_, _, e⟩ | ⟨_, _, e⟩ <;> rw [e] <;> exact ⟨rfl, rfl, rfl⟩
  · rw [e]
    exact ⟨rfl, rfl, rfl⟩
  · rw [e, writeLoc_frame]
    exact ⟨rfl, rfl, rfl⟩

end Sys2Proof.Machine
end

section
/-! What the host reads while the engine is not busy: every register, the tables of one entry a word, and the two words
of a node (10_state.md R22 to R46). -/

namespace Sys2Proof.Machine

/-! ### Registers and tables -/

section
variable {s : State} (hb : s.status.busy = false)
include hb

theorem hostRead_register {off : Nat} (h4 : off % 4 = 0) (h : off < 0x400) :
    s.hostRead (portAddr off) = s.readLoc (registerAt off) := by
  rw [hostRead_idle hb, portOffset_portAddr h4 (by omega), locate_register _ h]

/-- Entry `a` of a table that lies from `base` on. -/
theorem hostRead_entry {base : Nat} (h4 : base % 4 = 0) (hbase : base ≤ 0x1000) (a : Byte) {loc : Byte → Loc}
    (h : ∀ off, base ≤ off → off < base + 0x400 → locate s.config off = loc (entryIndex (off - base))) :
    s.hostRead (portAddr (base + 4 * a.toNat)) = s.readLoc (loc a) := by
  have ha := a.isLt
  have index : entryIndex (base + 4 * a.toNat - base) = a := by
    apply BitVec.eq_of_toNat_eq
    rw [entryIndex_toNat (by omega)]
    omega
  rw [hostRead_idle hb, portOffset_portAddr (by omega) (by omega), h _ (by omega) (by omega), index]

end

/-- Settles O49: the bits of the status word, and each location's value by the address map. -/
theorem registersReadAsTheyAre : Obligations.RegistersReadAsTheyAre := by
  constructor
  · intro st
    have bit {k : Nat} (hk : k < 32) := getLsbD_statusWord st hk
    refine ⟨bit (by decide), bit (by decide), bit (by decide), bit (by decide), bit (by decide), bit (by decide), ?_⟩
    apply BitVec.eq_of_getLsbD_eq
    intro k hk
    rw [BitVec.getLsbD_extractLsb', bit (by omega), List.getD_eq_getElem?_getD, List.getElem?_eq_none (by simp)]
    simp
  · intro s hb
    have register {off : Nat} (h4 : off % 4 = 0) (h : off < 0x400) := hostRead_register hb h4 h
    refine ⟨hostRead_id s, hostRead_ctrl s, hostRead_cmd s, hostRead_status s, register (by decide) (by decide),
      register (by decide) (by decide), register (by decide) (by decide), register (by decide) (by decide),
      register (by decide) (by decide), register (by decide) (by decide), register (by decide) (by decide),
      register (by decide) (by decide), register (by decide) (by decide), register (by decide) (by decide),
      register (by decide) (by decide), fun a => ⟨?_, ?_, ?_, ?_⟩⟩
    · exact hostRead_entry hb (by decide) (by decide) a fun _ => locate_freq s.config
    · exact hostRead_entry hb (by decide) (by decide) a fun _ => locate_symOf s.config
    · exact hostRead_entry hb (by decide) (by decide) a fun _ => locate_rankOf s.config
    · exact hostRead_entry hb (by decide) (by decide) a fun _ => locate_clen s.config

/-! ### Nodes (R46) -/

/-- A child index of 16 bits has no bit above them. -/
theorem getLsbD_childWord {c : Option Nat} (hc : ∀ n, c = some n → n < 65536) {k : Nat} (hk : k < 32) :
    (childWord c).getLsbD k = (decide (k < 16) && (BitVec.ofNat 16 (c.getD 0)).getLsbD k) := by
  have small : c.getD 0 < 2 ^ 16 := by
    cases c with
    | none => decide
    | some n => exact hc n rfl
  rw [childWord, BitVec.getLsbD_ofNat, BitVec.getLsbD_ofNat]
  by_cases h16 : k < 16
  · simp [hk, h16]
  · have high : (c.getD 0).testBit k = false :=
      Nat.testBit_lt_two_pow (small.trans_le (Nat.pow_le_pow_right (by decide) (by omega)))
    simp [h16, high]

theorem word0_fields {x : Node} (hl : ∀ c, x.left = some c → c < 65536) (hr : ∀ c, x.right = some c → c < 65536) :
    x.word0.extractLsb' 0 16 = BitVec.ofNat 16 (x.left.getD 0) ∧
    x.word0.extractLsb' 16 16 = BitVec.ofNat 16 (x.right.getD 0) := by
  constructor <;> apply BitVec.eq_of_getLsbD_eq <;> intro k hk <;>
    rw [BitVec.getLsbD_extractLsb', Node.word0, BitVec.getLsbD_or, BitVec.getLsbD_shiftLeft,
      getLsbD_childWord hl (by omega)]
  · simp [hk]
  · rw [Nat.add_sub_cancel_left, getLsbD_childWord hr (by omega)]
    simp [hk]
    omega

/-- Bit by bit: the validity flags, then the symbol in its byte. -/
theorem getLsbD_word1 (x : Node) {k : Nat} (hk : k < 32) :
    x.word1.getLsbD k = if k < 8 then [x.left.isSome, x.right.isSome, x.sym.isSome].getD k false
      else (x.sym.getD 0).getLsbD (k - 8) := by
  rw [Node.word1, BitVec.getLsbD_or, BitVec.getLsbD_or, BitVec.getLsbD_or, getLsbD_flagBit _ _ _ hk,
    getLsbD_flagBit _ _ _ hk, getLsbD_flagBit _ _ _ hk, BitVec.getLsbD_shiftLeft, BitVec.getLsbD_setWidth]
  by_cases h8 : k < 8
  · rw [if_pos h8]
    interval_cases k <;> simp
  · rw [if_neg h8]
    simp (disch := omega) only [decide_eq_false, decide_eq_true, Bool.and_false, Bool.false_or, Bool.not_false,
      Bool.true_and]

theorem word1_fields (x : Node) :
    x.word1.extractLsb' 3 5 = 0 ∧ x.word1.extractLsb' 8 8 = x.sym.getD 0 ∧ x.word1.extractLsb' 16 16 = 0 := by
  refine ⟨?_, ?_, ?_⟩ <;> apply BitVec.eq_of_getLsbD_eq <;> intro k hk <;>
    rw [BitVec.getLsbD_extractLsb', getLsbD_word1 x (by omega)]
  · rw [if_pos (by omega), List.getD_eq_getElem?_getD, List.getElem?_eq_none (by simp)]
    simp
  · rw [if_neg (by omega), Nat.add_sub_cancel_left]
    simp [hk]
  · rw [if_neg (by omega), BitVec.getLsbD_of_ge _ _ (by omega)]
    simp

theorem hostRead_nodeWord {s : State} (hb : s.status.busy = false) {n : Nat} (hn : n < s.config.nodeMax) :
    s.hostRead (portAddr (0x80000 + 8 * n)) = s.readLoc (.node n false) ∧
    s.hostRead (portAddr (0x80004 + 8 * n)) = s.readLoc (.node n true) := by
  have := nodeMax_le s.config
  constructor <;>
    rw [hostRead_idle hb, portOffset_portAddr (by omega) (by omega), locate_node _ (by omega) (by omega)]
  · have index : (0x80000 + 8 * n - 0x80000) / 8 = n := by omega
    have second : decide ((0x80000 + 8 * n - 0x80000) % 8 = 4) = false := decide_eq_false (by omega)
    rw [index, second]
  · have index : (0x80004 + 8 * n - 0x80000) / 8 = n := by omega
    have second : decide ((0x80004 + 8 * n - 0x80000) % 8 = 4) = true := decide_eq_true (by omega)
    rw [index, second]

/-- Settles O50: the fields bit by bit, and the two offsets of a node. -/
theorem nodeWordsHoldTheirFields : Obligations.NodeWordsHoldTheirFields := by
  constructor
  · intro x hl hr
    obtain ⟨left, right⟩ := word0_fields hl hr
    exact ⟨left, right, getLsbD_word1 x (by decide), getLsbD_word1 x (by decide), getLsbD_word1 x (by decide),
      word1_fields x⟩
  · intro s n hb hn
    obtain ⟨first, second⟩ := hostRead_nodeWord hb hn
    rw [first, second]
    refine ⟨fun h => ?_, fun h => ?_⟩
    · simp [State.readLoc, h]
    · simp [State.readLoc, Nat.not_lt.2 h]

end Sys2Proof.Machine
end
